-- ==== Sys2Proof/Word.lean ====
section
/-! DEFINITION. The widths of the block's values (00_scope.md R7, R8, R10; 20_memory.md R61): all unsigned, bit 0 least
significant. -/

namespace Sys2Proof

/-- One element: a byte or an 8-bit character code (R7 `BYTE_W`, R8 `CHAR_W`). -/
abbrev Byte := BitVec 8

/-- The value of one hex digit (R7 `NIBBLE_W`). -/
abbrev Nibble := BitVec 4

/-- One 6-bit field of the accumulator, an index into the alphabet (R7 `FIELD_W`). -/
abbrev Field := BitVec 6

/-- The Base64 accumulator (R7 `ACC_W`). -/
abbrev Acc := BitVec 24

/-- The command word and the status code, 2 bits each (R8 `OP_W`, `STATUS_W`). -/
abbrev Code := BitVec 2

end Sys2Proof
end

