-- ==== Sys2Proof/Config.lean ====
section
/-! DEFINITION. What an instance of the block fixes (00_scope.md R9), and the free values: what the spec leaves
unspecified while the machine goes on (93_implementation_defined.md U4, U6). -/

namespace Sys2Proof

/-- R9 `HEX_IMPL`: how HEXDEC is built. -/
inductive HexImpl where
  /-- Two characters a beat, two nibble decoders (`LANES_A = 2`). -/
  | parallel
  /-- One character a beat, one nibble decoder, the high nibble held one step (`LANES_A = 1`). -/
  | pipelined
  deriving DecidableEq, Repr

/-- The open parameters of ONE instance (R9). `N_INST` is the number of instances: the length of the list in
Machine/Instances.lean. -/
structure Params where
  /-- `HEX_IMPL`. -/
  hexImpl : HexImpl
  /-- `MAX_LEN`; `none` is the spec's infinity. -/
  maxLen : Option Nat
  deriving DecidableEq, Repr

/-- Free value: what `hn` holds after an invalid high digit (10_state.md R27, U4 "any value"). No body: nothing can be
proved of its values. Log 4. -/
opaque Config.freeNibble : Nat → Nibble

/-- Free value: `r_data` where the spec calls it unspecified (10_state.md R36, U6 "any value"). No body. Log 4. -/
opaque Config.freeByte : Nat → Byte

end Sys2Proof
end

