-- ==== Sys2Proof/Syntax.lean ====
section
/-! DEFINITION. The instructions: the rows of spec/opcode_table.json (30_encoding.md R71). A command carries no operand,
no immediate and no length (R70, R74): operands follow on the streams. -/

namespace Sys2Proof

/-- One constructor per row of the opcode table. -/
inductive Instr where
  /-- `HEXDEC`, code 0: `decode_hex`, operand on stream A (40_hexdec.md R100). -/
  | hexdec
  /-- `B64ENC`, code 1: `encode_base64`, operand on stream A (41_b64enc.md R120). -/
  | b64enc
  /-- `XORC`, code 2: `xor_combine`, operands on streams A and B (42_xorc.md R140). -/
  | xorc
  /-- `ILLEGAL`, code 3: the reserved code, no operand, answered with `ILLEGAL_OP` (R76). -/
  | illegal
  deriving DecidableEq, Repr

end Sys2Proof
end

