-- ==== Sys2Proof/WellFormed.lean ====
section
/-! DEFINITION. What is well formed: an instruction, a command word, a beat's count, a number of instances. -/

namespace Sys2Proof

/-- A command has one field, `op`, and all four of its values are rows of the table (30_encoding.md R70, R72): an
instruction has nothing that could be ill formed. -/
def Instr.wf : Instr → Bool
  | .hexdec => true
  | .b64enc => true
  | .xorc => true
  | .illegal => true

/-- A number is a command word when it fits in the 2 bits of the format `CMD` (R70). -/
def commandWordFits (w : Nat) : Bool := decide (w < 4)

/-- The number of lanes of stream A (00_scope.md R9 `LANES_A`). -/
def lanesA : HexImpl → Nat
  | .parallel => 2
  | .pipelined => 1

/-- A beat on stream A carries at most `LANES_A` elements (20_memory.md R51), so `a_cnt = 3` is never legal
(30_encoding.md R77). -/
def countFits (h : HexImpl) (cnt : Nat) : Bool := decide (cnt ≤ lanesA h)

/-- There is at least one instance (R9 `N_INST`). -/
def instancesFit (n : Nat) : Bool := decide (1 ≤ n)

end Sys2Proof
end

