-- ==== Sys2Proof/Decode.lean ====
section
/-! DEFINITION. Decoding and encoding of the command word (30_encoding.md R70 to R72). Every 2-bit value is a row of the
table, so the decoder is total and refuses nothing: the reserved code is the row `ILLEGAL` (R76). -/

namespace Sys2Proof

/-- R71, R72: the mask is `0b11` for every row, the match value is the code. -/
def decode (c : Code) : Instr :=
  match c.toNat with
  | 0 => .hexdec
  | 1 => .b64enc
  | 2 => .xorc
  | _ => .illegal

/-- R71: the code of each operation, the word of the format `CMD`. -/
def encode : Instr → Code
  | .hexdec => 0b00#2
  | .b64enc => 0b01#2
  | .xorc => 0b10#2
  | .illegal => 0b11#2

/-- The word on `cmd_op[1:0]` for an instruction given as a table word of `nbits` bits: the bits above `nbits` are 0, and
the port has no wire for a bit above 1 (20_memory.md R54; log 12). -/
def commandWord (nbits w : Nat) : Code := BitVec.ofNat 2 (w % 2 ^ nbits)

/-- What the decoder reads from a word numbered as spec/opcode_table.json numbers it. -/
def decodeTableWord (nbits w : Nat) : Option Instr := some (decode (commandWord nbits w))

end Sys2Proof
end

