-- ==== Sys2Proof/Machine/State.lean ====
section
/-! DEFINITION. The state: the block's registers (10_state.md R37), what the environment drives on the ports
(20_memory.md R54), the instance's parameters (00_scope.md R9), the reasons a step can stop, and reset. -/

namespace Sys2Proof.Machine

/-- `mode` (10_state.md R24). The fourth 2-bit value is never taken and cannot be written down. -/
inductive Mode where
  /-- No transaction is open; a command is accepted and nothing else. -/
  | idle
  /-- A command has been accepted; operand beats are accepted and nothing else. -/
  | run
  /-- The result is known; result beats are offered and nothing is accepted. -/
  | resp
  deriving DecidableEq, Repr

/-- The status of a result (30_encoding.md R73). -/
inductive Status where
  /-- Success. -/
  | ok
  /-- The document's `DecodeError`; HEXDEC only. -/
  | decodeError
  /-- The document's `LengthMismatchError`; XORC only. -/
  | lengthMismatchError
  /-- The reserved command code only. -/
  | illegalOp
  deriving DecidableEq, Repr

/-- A result: a status and a sequence (00_scope.md R15); the register `res` holds one (10_state.md R33). -/
structure Result where
  status : Status
  seq : List Byte
  deriving DecidableEq, Repr

/-- The registers of one instance: every row of the table of 10_state.md R37. -/
structure Block where
  /-- R24. -/
  mode : Mode
  /-- R25: the operation code of the open transaction. -/
  op : Code
  /-- R26: the high digit of a pair is held (PIPELINED HEXDEC only). -/
  ph : Bool
  /-- R27: the high digit held (PIPELINED HEXDEC only). -/
  hn : Nibble
  /-- R28: the 24-bit accumulator. -/
  acc : Acc
  /-- R29: bytes of the current group already in `acc`; 3 is never held between steps. -/
  gc : BitVec 2
  /-- R30: the sticky error flag of the open transaction. -/
  err : Bool
  /-- R31: the result buffer. -/
  out : List Byte
  /-- R32: stream A has delivered its `last` beat (XORC). -/
  adone : Bool
  /-- R32: stream B has delivered its `last` beat (XORC). -/
  bdone : Bool
  /-- R33: the result register. -/
  res : Result
  /-- R33: the read position into `res.seq`. -/
  rp : Nat
  deriving DecidableEq, Repr

/-- A beat offered on stream A, as the ports carry it (20_memory.md R54): `a_cnt`, `a_data`, `a_last`. `a_data` is held 16
bits wide; under PIPELINED the port has only the 8 lower ones, and `State.pins` lets no other through (log 15). -/
structure ABeat where
  cnt : BitVec 2
  data : BitVec 16
  last : Bool
  deriving DecidableEq, Repr

/-- A beat offered on stream B (R54): `b_cnt`, `b_data`, `b_last`. -/
structure BBeat where
  cnt : BitVec 1
  data : BitVec 8
  last : Bool
  deriving DecidableEq, Repr

/-- A beat of the result stream (R54): `r_status`, `r_cnt`, `r_data`, `r_last`. -/
structure RBeat where
  status : Code
  cnt : BitVec 1
  data : Byte
  last : Bool
  deriving DecidableEq, Repr

/-- The output ports at the coming edge (20_memory.md R54, R55). `r` is `none` when `r_valid = 0`: its payload then means nothing
(70_reset_and_hazards.md R191, U6; log 18). -/
structure PortOut where
  cmdReady : Bool
  aReady : Bool
  bReady : Bool
  r : Option RBeat
  deriving DecidableEq, Repr

/-- What the environment offers on its three channels: `none` is `valid = 0`, and then no payload exists (U8). -/
structure Offers where
  cmd : Option Code
  a : Option ABeat
  b : Option BBeat
  deriving DecidableEq, Repr

/-- The input ports at one rising edge of `clk` (R54). -/
structure PortIn where
  rst : Bool
  offers : Offers
  rReady : Bool
  deriving DecidableEq, Repr

/-- The environment's side of the ports: the model's own fields (10_state.md R41: inputs, not state of the block; log 1). -/
structure Env where
  /-- The input ports at the coming edges, the next edge first. After the last one the environment holds what it has on
  offer and offers nothing new (log 11). -/
  inputs : List PortIn
  /-- What was offered at the last edge and not taken: R53 has it held (log 7). -/
  held : Offers
  /-- Operand beats on offer at a reset edge in mid-transaction: R192 has them withdrawn (log 8). -/
  stale : Offers
  /-- The result beats the environment has taken, oldest first (00_scope.md R17). -/
  taken : List RBeat
  deriving DecidableEq, Repr

/-- The state of one instance and its environment. Plain data. -/
structure State where
  /-- The registers of the block. -/
  block : Block
  /-- The environment's side of the ports. -/
  env : Env
  /-- The model's own: elements of operand A taken in the open transaction, for R196 and R199 (log 13). -/
  nA : Nat
  /-- The model's own: elements of operand B taken in the open transaction (log 13). -/
  nB : Nat
  /-- The model's own: the index of the next free value (log 4). -/
  free : Nat
  /-- The parameters of the instance (R9); no step writes them. -/
  params : Params
  deriving DecidableEq, Repr

/-- The reasons to stop with a fault. -/
inductive Fault where
  /-- Raised by B64ENC when a byte is taken with `gc = 3`, a value 10_state.md R29 says is never held between steps and
  for which 41_b64enc.md R127 gives no shift. Safe: no run reaches it (log 9). -/
  | groupCountThree
  deriving DecidableEq, Repr

/-- The reasons to refuse a step. All but the first are breaches of the protocol by the ENVIRONMENT, which
60_exceptions.md R172 says the model refuses. -/
inductive Refusal where
  /-- Raised by `exec` for an instruction without a meaning; none is left. Safe. -/
  | notModelled (mnemonic : String)
  /-- Raised by a beat step that takes an ill-framed beat of stream A (70_reset_and_hazards.md R196, U2). Safe (log 5). -/
  | illFramedA
  /-- Raised by a beat step that takes an ill-framed beat of stream B (R196, U2). Safe (log 5). -/
  | illFramedB
  /-- Raised by a beat step whose operand grows past a finite `MAX_LEN` (R199, U1). Safe (log 6). -/
  | operandTooLong
  /-- Raised by `step` when an offer is changed or dropped before it is taken (20_memory.md R53, U10). Safe (log 7). -/
  | offerNotHeld
  /-- Raised by `step` when an operand beat is not withdrawn after a reset in mid-transaction (R192, U5). Safe (log 8). -/
  | beatNotWithdrawn
  deriving DecidableEq, Repr

/-- Nothing on offer. -/
def Offers.silent : Offers := ⟨none, none, none⟩

/-- The registers after the reset edge (70_reset_and_hazards.md R190, 10_state.md R37). -/
def Block.reset : Block where
  mode := .idle
  op := 0#2
  ph := false
  hn := 0#4
  acc := 0#24
  gc := 0#2
  err := false
  out := []
  adone := false
  bdone := false
  res := ⟨.ok, []⟩
  rp := 0

/-- An instance with parameters `p` right after reset, the environment silent. -/
def State.resetWith (p : Params) : State where
  block := Block.reset
  env := ⟨[], Offers.silent, Offers.silent, []⟩
  nA := 0
  nB := 0
  free := 0
  params := p

/-- The machine right after reset. Its registers are the spec's; `HEX_IMPL` and `MAX_LEN` are open (R9), and this one
state takes PIPELINED, the variant in which `ph` and `hn` exist, and infinity (log 2). -/
def State.reset : State := State.resetWith ⟨.pipelined, none⟩

end Sys2Proof.Machine
end

