-- ==== Sys2Proof/Machine/Flags.lean ====
section
/-! DEFINITION. The flag computations. The block has no condition codes (10_state.md R38); its flag-like bits are `err`,
`adone`, `bdone` and `ph`. -/

namespace Sys2Proof.Machine

/-- `raise` (00_scope.md R13, 10_state.md R30): the error flag is sticky; it is set when there is a cause and never
cleared within a transaction. -/
def raiseIf (cause : Bool) (err : Bool) : Bool := err || cause

/-- The status `Finish` is called with: `st` if an error was raised, `OK` otherwise (40_hexdec.md R106, R107;
42_xorc.md R146). -/
def endStatus (st : Status) (err : Bool) : Status := if err then st else .ok

/-- The cause of `LengthMismatchError` at a joint step (42_xorc.md R146): the counts differ, or the `last` marks do. -/
def mismatch (ca cb : Nat) (la lb : Bool) : Bool := ca != cb || la != lb

end Sys2Proof.Machine
end

