-- ==== Sys2Proof/Machine/Operands.lean ====
section
/-! DEFINITION. The operand forms: beats as the ports carry them, beats as the rules speak of them, lanes, framing
(20_memory.md R51, R52, R56; 30_encoding.md R75, R89). -/

namespace Sys2Proof.Machine

/-- A beat as the rules speak of it (R51): `cnt`, the elements of the lanes below `cnt`, `last`. -/
structure Beat where
  cnt : Nat
  lane : List Byte
  last : Bool
  deriving DecidableEq, Repr

/-- Lane 0 of `a_data`: bits 7:0 (R56, R89). -/
def ABeat.lane0 (b : ABeat) : Byte := b.data.extractLsb' 0 8

/-- Lane 1 of `a_data`: bits 15:8 (R56, R89). -/
def ABeat.lane1 (b : ABeat) : Byte := b.data.extractLsb' 8 8

/-- `LA`, the width of `a_data` (R54): 16 under PARALLEL, 8 under PIPELINED. -/
def dataWidthA (h : HexImpl) : Nat := 8 * lanesA h

/-- A beat of stream A as the wires of the variant carry it: `a_data` has `LA` bits (R54, log 15). -/
def ABeat.wired (h : HexImpl) (b : ABeat) : ABeat := { b with data := (b.data.setWidth (dataWidthA h)).setWidth 16 }

/-- What is offered, as the wires of the variant carry it (R54). -/
def Offers.wired (h : HexImpl) (o : Offers) : Offers := { o with a := o.a.map (ABeat.wired h) }

/-- `TakeA()`'s view of a beat (00_scope.md R13, 20_memory.md R51): lanes at and above `cnt` are ignored. -/
def ABeat.beat (b : ABeat) : Beat where
  cnt := b.cnt.toNat
  lane := [b.lane0, b.lane1].take b.cnt.toNat
  last := b.last

/-- `TakeB()`'s view of a beat (R13, R51). -/
def BBeat.beat (b : BBeat) : Beat where
  cnt := b.cnt.toNat
  lane := [b.data].take b.cnt.toNat
  last := b.last

/-- The number of lanes an operation uses on stream A (R52, 30_encoding.md R75): 2 for HEXDEC under PARALLEL, else 1. -/
def laneWidth (h : HexImpl) (op : Code) : Nat :=
  match h with
  | .parallel => if op = 0#2 then 2 else 1
  | .pipelined => 1

/-- `frame(s, W)` of R52: the one list of beats that carries `s` on `w` lanes. -/
def frame (w : Nat) (s : List Byte) : List Beat :=
  let n := s.length
  if n = 0 then [⟨0, [], true⟩]
  else
    let k := (n + w - 1) / w
    (List.range k).map fun j =>
      let part := (s.drop (j * w)).take w
      ⟨part.length, part, j + 1 == k⟩

/-- The sequence a list of beats carries: its lanes, concatenated (R52). -/
def carried (bs : List Beat) : List Byte := bs.flatMap Beat.lane

/-- A list of beats is well framed when it equals `frame(s, W)` for some `s`; that `s` is what it carries (R52). -/
def wellFramed (w : Nat) (bs : List Beat) : Bool := decide (bs = frame w (carried bs))

/-- The framing rules of R196 for the next beat of an operand, `w` lanes, after `n` elements: `cnt` within the lane count,
no null beat except as the sole beat, every beat but the last full (log 5). -/
def framingOk (w n : Nat) (b : Beat) : Bool :=
  decide (b.cnt ≤ w) && (b.cnt != 0 || (b.last && n == 0)) && (b.last || b.cnt == w)

/-- The length bound of R199: `n` elements are within `MAX_LEN`. -/
def withinMax (maxLen : Option Nat) (n : Nat) : Bool :=
  match maxLen with
  | none => true
  | some m => decide (n ≤ m)

/-- A beat on the ports of stream A (R54, R89); the bits of lanes at and above `cnt` are those of `junk`. -/
def Beat.onA (b : Beat) (junk : BitVec 16) : ABeat where
  cnt := BitVec.ofNat 2 b.cnt
  data :=
    match b.lane with
    | [] => junk
    | [x] => junk.extractLsb' 8 8 ++ x
    | x :: y :: _ => y ++ x
  last := b.last

/-- A beat on the ports of stream B (R54); the bits of the lane are those of `junk` on a null beat. -/
def Beat.onB (b : Beat) (junk : Byte) : BBeat where
  cnt := BitVec.ofNat 1 b.cnt
  data := b.lane.headD junk
  last := b.last

end Sys2Proof.Machine
end

