-- ==== Sys2Proof/Machine/Ops.lean ====
section
/-! DEFINITION. The named operations: status and mode codes, the ports and the handshake (20_memory.md R53 to R55),
taking beats, `Append` and `Finish` (00_scope.md R13), command acceptance, result delivery, reset, the clock edge. -/

namespace Sys2Proof.Machine

/-- What a step or a meaning answers. -/
abbrev Answer := Host.Outcome State Fault Refusal

/-! ## Codes -/

/-- The 2-bit value of `mode` (10_state.md R24). -/
def Mode.code : Mode → BitVec 2
  | .idle => 0#2
  | .run => 1#2
  | .resp => 2#2

/-- The 2-bit status code on `r_status` (30_encoding.md R73). -/
def Status.code : Status → Code
  | .ok => 0#2
  | .decodeError => 1#2
  | .lengthMismatchError => 2#2
  | .illegalOp => 3#2

/-! ## Updates of the registers -/

/-- `Append(v)` for each element of `vs`, in order (00_scope.md R13, 10_state.md R31). -/
def Block.append (b : Block) (vs : List Byte) : Block := { b with out := b.out ++ vs }

/-- `Finish(st)` (10_state.md R35), which is also error entry (60_exceptions.md R169): the result is `out` when the
status is `OK` and the empty sequence otherwise. -/
def Block.finish (b : Block) (st : Status) : Block :=
  { b with res := ⟨st, if st = .ok then b.out else []⟩, rp := 0, mode := .resp }

/-- Command acceptance (10_state.md R34). -/
def Block.accept (b : Block) (c : Code) : Block :=
  let b' : Block := { b with
    op := c, ph := false, gc := 0#2, acc := 0#24, err := false, out := [], adone := false, bdone := false }
  if c = 3#2 then { b' with res := ⟨.illegalOp, []⟩, rp := 0, mode := .resp } else { b' with mode := .run }

/-! ## Ports and handshake -/

/-- What the environment drives at the coming edge. When it has said no more, it holds what it has on offer, offers
nothing new and takes nothing (log 11). -/
def Env.drive (e : Env) : PortIn :=
  match e.inputs with
  | p :: _ => p
  | [] => ⟨false, e.held, false⟩

/-- The input ports at the coming edge: what the environment drives, on the wires the variant has (R54). -/
def State.pins (s : State) : PortIn :=
  { s.env.drive with offers := s.env.drive.offers.wired s.params.hexImpl }

/-- `cmd_ready` (20_memory.md R54). -/
def cmdReady (b : Block) : Bool := b.mode == .idle

/-- `run and (op == HEXDEC or op == B64ENC)` (R55). -/
def solo (b : Block) : Bool := b.mode == .run && (b.op == 0#2 || b.op == 1#2)

/-- `run and op == XORC` (R55). -/
def runXorc (b : Block) : Bool := b.mode == .run && b.op == 2#2

/-- XORC in its joint phase (R55 `both`). -/
def joint (b : Block) : Bool := runXorc b && !b.adone && !b.bdone

/-- `a_ready` (R55). -/
def aReady (b : Block) (bValid : Bool) : Bool :=
  solo b || (joint b && bValid) || (runXorc b && b.bdone && !b.adone)

/-- `b_ready` (R55). -/
def bReady (b : Block) (aValid : Bool) : Bool :=
  (joint b && aValid) || (runXorc b && b.adone && !b.bdone)

/-- `r_valid` (R54). -/
def rValid (b : Block) : Bool := b.mode == .resp

/-- The command word taken at the coming edge: offered, the block ready, and `rst = 0` (R53). -/
def State.takenCmd (s : State) : Option Code :=
  if !s.pins.rst && cmdReady s.block then s.pins.offers.cmd else none

/-- The beat of stream A taken at the coming edge (R53, R55). -/
def State.takenA (s : State) : Option ABeat :=
  if !s.pins.rst && aReady s.block s.pins.offers.b.isSome then s.pins.offers.a else none

/-- The beat of stream B taken at the coming edge (R53, R55). -/
def State.takenB (s : State) : Option BBeat :=
  if !s.pins.rst && bReady s.block s.pins.offers.a.isSome then s.pins.offers.b else none

/-- The result beat on offer in mode `RESP` (10_state.md R36). `r_data` of a null beat is a free value. -/
def State.resultBeat (s : State) : RBeat :=
  let n := s.block.res.seq.length
  { status := s.block.res.status.code
    cnt := if n = 0 then 0#1 else 1#1
    data := (s.block.res.seq[s.block.rp]?).getD (Config.freeByte s.free)
    last := n == 0 || s.block.rp + 1 == n }

/-- The result beat taken at the coming edge: offered, the environment ready, and `rst = 0` (R53). -/
def State.takenR (s : State) : Option RBeat :=
  if !s.pins.rst && rValid s.block && s.pins.rReady then some s.resultBeat else none

/-- The output ports as functions of the registers and of what is offered (R54, R55). -/
def State.portsOut (s : State) : PortOut where
  cmdReady := Sys2Proof.Machine.cmdReady s.block
  aReady := Sys2Proof.Machine.aReady s.block s.pins.offers.b.isSome
  bReady := Sys2Proof.Machine.bReady s.block s.pins.offers.a.isSome
  r := if rValid s.block then some s.resultBeat else none

/-! ## Taking operand beats -/

/-- Whether the next beat of an operand may be taken: well framed (R196) and within `MAX_LEN` (R199). -/
def beatProblem (ill : Refusal) (maxLen : Option Nat) (w n : Nat) (b : Beat) : Option Refusal :=
  if framingOk w n b = false then some ill
  else if withinMax maxLen (n + b.cnt) = false then some .operandTooLong
  else none

/-- `TakeA()` on `w` lanes: nothing happens at an edge that takes no beat of stream A (20_memory.md R53); else `k` is the
rest of the beat step. -/
def takeA (w : Nat) (s : State) (k : Beat → State → Answer) : Answer :=
  match s.takenA with
  | none => .next s
  | some a =>
    match beatProblem .illFramedA s.params.maxLen w s.nA a.beat with
    | some r => .refused r
    | none => k a.beat { s with nA := s.nA + a.beat.cnt }

/-- `TakeB()`, on the one lane of stream B. -/
def takeB (s : State) (k : Beat → State → Answer) : Answer :=
  match s.takenB with
  | none => .next s
  | some b =>
    match beatProblem .illFramedB s.params.maxLen 1 s.nB b.beat with
    | some r => .refused r
    | none => k b.beat { s with nB := s.nB + b.beat.cnt }

/-! ## The phases of an operation -/

/-- A command is taken: R34, and the element counts start at 0. -/
def State.accept (s : State) (c : Code) : State :=
  { s with block := s.block.accept c, nA := 0, nB := 0 }

/-- Result delivery (10_state.md R36), which is also the return from an error (60_exceptions.md R170): when the
environment takes the beat, the read position moves on, or the block is idle again. -/
def State.deliver (s : State) : State :=
  match s.takenR with
  | none => s
  | some r =>
    { s with
      block := if r.last then { s.block with mode := .idle } else { s.block with rp := s.block.rp + 1 }
      env := { s.env with taken := s.env.taken ++ [r] }
      free := if s.block.rp < s.block.res.seq.length then s.free else s.free + 1 }

/-- The phases every operation shares (10_state.md R34, R36): its command is accepted in `IDLE`, its beat step runs in
`RUN`, its result is delivered in `RESP`. In `RUN` an operation other than the open one waits (20_memory.md R65); `step`
never asks for that (log 10). -/
def runOperation (c : Code) (beat : State → Answer) (s : State) : Answer :=
  match s.block.mode with
  | .idle => .next (s.accept c)
  | .run => if s.block.op = c then beat s else .next s
  | .resp => .next s.deliver

/-! ## The clock edge -/

/-- What is offered at the coming edge and not taken at it. -/
def State.untaken (s : State) : Offers where
  cmd := if cmdReady s.block then none else s.pins.offers.cmd
  a := if aReady s.block s.pins.offers.b.isSome then none else s.pins.offers.a
  b := if bReady s.block s.pins.offers.a.isSome then none else s.pins.offers.b

/-- After an edge with `rst = 0` that began in `s`: the next inputs are due, and what was not taken is held (R53). -/
def finishEdge (s t : State) : State :=
  { t with env := { t.env with inputs := s.env.inputs.tail, held := s.untaken, stale := Offers.silent } }

/-- The open transaction still reads stream A: its operand has not ended. -/
def aOpen (b : Block) : Bool := solo b || (runXorc b && !b.adone)

/-- The open transaction still reads stream B. -/
def bOpen (b : Block) : Bool := runXorc b && !b.bdone

/-- The operand beats on offer at a reset edge that belong to the transaction it abandons, or that an earlier edge of the
same reset found so and that are still on offer (70_reset_and_hazards.md R192). A beat is the same while the whole port is:
with a change of bits in lanes at or above `cnt` alone it counts as another beat (DESIGN CHOICE, log 8). -/
def State.staleOffers (s : State) : Offers where
  cmd := none
  a := if aOpen s.block || s.pins.offers.a = s.env.stale.a then s.pins.offers.a else none
  b := if bOpen s.block || s.pins.offers.b = s.env.stale.b then s.pins.offers.b else none

/-- The reset edge (70_reset_and_hazards.md R190): every register gets its reset value and no beat is taken. What the
environment has taken it keeps (R192). -/
def resetEdge (s : State) : State :=
  { s with
    block := Block.reset
    nA := 0
    nB := 0
    env := { s.env with inputs := s.env.inputs.tail, held := Offers.silent, stale := s.staleOffers } }

/-- An offer that was not taken is still there, unchanged (20_memory.md R53). -/
def stillOffered {α : Type} [DecidableEq α] (held now : Option α) : Bool :=
  held.isNone || decide (now = held)

/-- An operand beat of an abandoned transaction is gone (R192): the port carries nothing, or anything else. A change of
unused lane bits alone counts as gone (DESIGN CHOICE, log 8). -/
def withdrawn {α : Type} [DecidableEq α] (stale now : Option α) : Bool :=
  stale.isNone || decide (now ≠ stale)

/-- The environment's breaches of the protocol that show at the ports before any beat is looked at (R53, U10; R192,
U5). At an edge with `rst = 1` there is none. -/
def State.portProblem (s : State) : Option Refusal :=
  let o := s.pins.offers
  if s.pins.rst then none
  else if !(stillOffered s.env.held.cmd o.cmd && stillOffered s.env.held.a o.a && stillOffered s.env.held.b o.b) then
    some .offerNotHeld
  else if !(withdrawn s.env.stale.a o.a && withdrawn s.env.stale.b o.b) then some .beatNotWithdrawn
  else none

/-- The command word whose instruction acts at the coming edge: in `IDLE` the word taken, if any; else `op`, the
operation of the open transaction (10_state.md R25). -/
def State.dueCommand (s : State) : Option Code :=
  match s.block.mode with
  | .idle => s.takenCmd
  | .run => some s.block.op
  | .resp => some s.block.op

/-- The end of an edge that began in `s`, after the instruction has answered. -/
def closeEdge (s : State) : Answer → Answer
  | .next t => .next (finishEdge s t)
  | .fault f => .fault f
  | .refused r => .refused r

end Sys2Proof.Machine
end

