-- ==== Sys2Proof/Machine/B64enc.lean ====
section
/-! DEFINITION. B64ENC, the Base64 encoder bit-packer (41_b64enc.md), beat level: bit-packer, field extraction, alphabet
mux. -/

namespace Sys2Proof.Machine

/-- The alphabet mux `alpha` by ranges (30_encoding.md R86, the table of R85). -/
def alpha (i : Field) : Byte :=
  if i ≤ 25#6 then 0x41#8 + i.setWidth 8
  else if i ≤ 51#6 then 0x47#8 + i.setWidth 8
  else if i ≤ 61#6 then i.setWidth 8 - 4#8
  else if i = 62#6 then 0x2B#8
  else 0x2F#8

/-- The pad character `=` (R87). -/
def pad : Byte := 0x3D#8

/-- Field `i` of the accumulator, `a[23 - 6*i : 18 - 6*i]` (41_b64enc.md R123). -/
def accField (a : Acc) (i : Nat) : Field := a.extractLsb' (18 - 6 * i) 6

/-- The character at output position `i` of a group of `m` bytes (R123): data when `6*i < 8*m`, else the pad. -/
def groupChar (a : Acc) (m i : Nat) : Byte := if 6 * i < 8 * m then alpha (accField a i) else pad

/-- `EmitGroup(a, m)` (R127): the four characters of a group, in order. -/
def emitGroup (a : Acc) (m : Nat) : List Byte :=
  [groupChar a m 0, groupChar a m 1, groupChar a m 2, groupChar a m 3]

/-- The bit-packer (R127, R128): byte `g` of the group goes to bits `23 - 8*g : 16 - 8*g`. -/
def placeByte (a : Acc) (x : Byte) (g : Nat) : Acc := a ||| (x.setWidth 24 <<< (16 - 8 * g))

/-- The end of a B64ENC step (R127), with the local accumulator `a` and count `g`. -/
def b64encEnd (last : Bool) (a : Acc) (g : Nat) (b : Block) : Block :=
  if last then (if g = 0 then b else b.append (emitGroup a g)).finish .ok
  else { b with acc := a, gc := BitVec.ofNat 2 g }

/-- R127: the beat step on the registers. -/
def Block.b64enc (b : Block) (beat : Beat) : Block :=
  match beat.lane with
  | [] => b64encEnd beat.last b.acc b.gc.toNat b
  | x :: _ =>
    let a := placeByte b.acc x b.gc.toNat
    if b.gc.toNat + 1 = 3 then b64encEnd beat.last 0#24 0 (b.append (emitGroup a 3))
    else b64encEnd beat.last a (b.gc.toNat + 1) b

/-- The beat step of B64ENC. A byte taken with `gc = 3`, which is never held (10_state.md R29), has no place in the
accumulator (log 9). -/
def b64encStep (beat : Beat) (s : State) : Answer :=
  if s.block.gc = 3#2 ∧ beat.lane ≠ [] then .fault .groupCountThree
  else .next { s with block := s.block.b64enc beat }

/-- B64ENC: R34, R127, R36. -/
def execB64enc (s : State) : Answer :=
  runOperation 1#2 (fun s => takeA (laneWidth s.params.hexImpl 1#2) s b64encStep) s

end Sys2Proof.Machine
end

