-- ==== Sys2Proof/Machine/Hexdec.lean ====
section
/-! DEFINITION. HEXDEC, the hex-to-binary nibble decoder (40_hexdec.md), beat level, both variants. -/

namespace Sys2Proof.Machine

/-- The hex digit code `nib` by ranges (30_encoding.md R81, the table of R80); `none` is `invalid`. -/
def nib (c : Byte) : Option Nibble :=
  if 0x30#8 ≤ c ∧ c ≤ 0x39#8 then some ((c - 0x30#8).setWidth 4)
  else if 0x41#8 ≤ c ∧ c ≤ 0x46#8 then some ((c - 0x37#8).setWidth 4)
  else if 0x61#8 ≤ c ∧ c ≤ 0x66#8 then some ((c - 0x57#8).setWidth 4)
  else none

/-- `{h, l}`: the byte of a pair, the high digit in bits 7:4 (R100, 20_memory.md R58). -/
def pairByte (h l : Nibble) : Byte := h ++ l

/-- The end of a HEXDEC step (R106, R107): with `last` it finishes, else the error flag is written. -/
def hexdecEnd (last e : Bool) (b : Block) : Block :=
  if last then b.finish (endStatus .decodeError e) else { b with err := e }

/-- R106, one character under PIPELINED, up to the test of `last`: the value of `e`, the value of `p`, and the block with
`hn` written or a byte appended. `hn` gets the free value `junk` from an invalid high digit (10_state.md R27). -/
def hexdecChar (x : Byte) (junk : Nibble) (b : Block) : Bool × Bool × Block :=
  let v := nib x
  let e := raiseIf v.isNone b.err
  if b.ph then
    (e, false, if e then b else b.append [pairByte b.hn (v.getD 0#4)])
  else
    (e, true, { b with hn := v.getD junk })

/-- R106: the beat step under PIPELINED on the registers. -/
def Block.hexdecPipelined (b : Block) (beat : Beat) (junk : Nibble) : Block :=
  match beat.lane with
  | [] => hexdecEnd beat.last (raiseIf (beat.last && b.ph) b.err) b
  | x :: _ =>
    let (e, p, b') := hexdecChar x junk b
    if beat.last then hexdecEnd true (raiseIf p e) b'
    else hexdecEnd false e { b' with ph := p }

/-- Whether the step of R106 stores the free value in `hn`: an invalid character where a high digit is due. -/
def drawsNibble (b : Block) (beat : Beat) : Bool :=
  match beat.lane with
  | [] => false
  | x :: _ => !b.ph && (nib x).isNone

/-- R107: the beat step under PARALLEL on the registers. -/
def Block.hexdecParallel (b : Block) (beat : Beat) : Block :=
  match beat.lane with
  | [] => hexdecEnd beat.last b.err b
  | [_] => hexdecEnd beat.last (raiseIf true b.err) b
  | h :: l :: _ =>
    match nib h, nib l with
    | some vh, some vl =>
      hexdecEnd beat.last b.err (if b.err then b else b.append [pairByte vh vl])
    | _, _ => hexdecEnd beat.last (raiseIf true b.err) b

/-- The beat step of HEXDEC in the variant that is built (R106, R107). -/
def hexdecStep (beat : Beat) (s : State) : State :=
  match s.params.hexImpl with
  | .pipelined =>
    { s with
      block := s.block.hexdecPipelined beat (Config.freeNibble s.free)
      free := if drawsNibble s.block beat then s.free + 1 else s.free }
  | .parallel => { s with block := s.block.hexdecParallel beat }

/-- HEXDEC: R34, R106 or R107, R36. -/
def execHexdec (s : State) : Answer :=
  runOperation 0#2 (fun s => takeA (laneWidth s.params.hexImpl 0#2) s fun beat t => .next (hexdecStep beat t)) s

end Sys2Proof.Machine
end

