-- ==== Sys2Proof/Machine/Reserved.lean ====
section
/-! DEFINITION. The reserved code (30_encoding.md R76): accepted, no operand, answered with `ILLEGAL_OP`. -/

namespace Sys2Proof.Machine

/-- ILLEGAL: R34 puts `(ILLEGAL_OP, [])` in `res` at acceptance, R36 delivers it. In `RUN`, where code 3 never is, no
ready of 20_memory.md R55 is 1 and nothing is taken. -/
def execIllegal (s : State) : Answer := runOperation 3#2 (fun s => .next s) s

end Sys2Proof.Machine
end

