-- ==== Sys2Proof/Machine/Xorc.lean ====
section
/-! DEFINITION. XORC, the byte XOR combiner (42_xorc.md), beat level: the joint step and the drain. -/

namespace Sys2Proof.Machine

/-- The combiner proper (R141, R148): eight 2-input exclusive-or gates, of two lanes that both carry an element. -/
def xorLanes (xa xb : List Byte) : List Byte :=
  match xa, xb with
  | x :: _, y :: _ => [x ^^^ y]
  | _, _ => []

/-- R146: the joint step on the registers. -/
def Block.xorcJoint (b : Block) (ba bb : Beat) : Block :=
  let b' := if b.err then b else b.append (xorLanes ba.lane bb.lane)
  let e := raiseIf (mismatch ba.cnt bb.cnt ba.last bb.last) b.err
  if ba.last && bb.last then b'.finish (endStatus .lengthMismatchError e)
  else { b' with err := e, adone := ba.last, bdone := bb.last }

/-- R147: the drain step on the registers. -/
def Block.xorcDrain (b : Block) (beat : Beat) : Block :=
  if beat.last then b.finish .lengthMismatchError else b

/-- R146 in a state: both beats are taken at the same edge or neither (20_memory.md R55). -/
def xorcJointStep (s : State) : Answer :=
  if s.takenB.isNone then .next s
  else takeA (laneWidth s.params.hexImpl 2#2) s fun ba t =>
    takeB t fun bb u => .next { u with block := u.block.xorcJoint ba bb }

/-- R147 in a state: the stream that has not ended is taken alone. -/
def xorcDrainA (s : State) : Answer :=
  takeA (laneWidth s.params.hexImpl 2#2) s fun beat t => .next { t with block := t.block.xorcDrain beat }

/-- R147 in a state, for stream B. -/
def xorcDrainB (s : State) : Answer :=
  takeB s fun beat t => .next { t with block := t.block.xorcDrain beat }

/-- The beat step of XORC: joint (R146), drain (R147), or, with both streams ended, nothing: no ready of R55 is 1. -/
def xorcStep (s : State) : Answer :=
  match s.block.adone, s.block.bdone with
  | false, false => xorcJointStep s
  | false, true => xorcDrainA s
  | true, false => xorcDrainB s
  | true, true => .next s

/-- XORC: R34, R146, R147, R36. -/
def execXorc (s : State) : Answer := runOperation 2#2 xorcStep s

end Sys2Proof.Machine
end

