-- ==== Sys2Proof/Machine/Dispatch.lean ====
section
/-! DEFINITION. One arm per instruction. -/

namespace Sys2Proof.Machine

def exec (i : Instr) (s : State) : Host.Outcome State Fault Refusal :=
  match i with
  | .hexdec => Sys2Proof.Machine.execHexdec s
  | .b64enc => Sys2Proof.Machine.execB64enc s
  | .xorc => Sys2Proof.Machine.execXorc s
  | .illegal => Sys2Proof.Machine.execIllegal s

end Sys2Proof.Machine
end

