-- ==== Sys2Proof/Machine/Step.lean ====
section
/-! DEFINITION. One step: one rising edge of `clk` (20_memory.md R53, 70_reset_and_hazards.md R190). -/

namespace Sys2Proof.Machine

/-- One rising edge: a breach of the protocol is refused, `rst` wins over everything else (60_exceptions.md R168), and
otherwise the instruction that is due acts; with none due the edge takes nothing. -/
def step (s : State) : Host.Outcome State Fault Refusal :=
  match s.portProblem with
  | some r => .refused r
  | none =>
    if s.pins.rst then .next (resetEdge s)
    else
      match s.dueCommand with
      | none => .next (finishEdge s s)
      | some c => closeEdge s (exec (decode c) s)

/-- `s` with the command word `w` offered at the next edge and the block ready for it: idle, and nothing held over from
an earlier edge (log 12). -/
def State.withFetchWord (s : State) (nbits w : Nat) : State :=
  { s with
    block := { s.block with mode := .idle }
    env := { s.env with
      inputs := ⟨false, ⟨some (commandWord nbits w), none, none⟩, false⟩ :: s.env.inputs
      held := Offers.silent
      stale := Offers.silent } }

end Sys2Proof.Machine
end

