-- ==== Sys2Proof/Machine/Instances.lean ====
section
/-! DEFINITION. `N_INST` instances: a list of states that share nothing (20_memory.md R66, 60_exceptions.md R177). The
instances are the product of independent single ones; a schedule says whose clock edge comes next. What a stop of one
instance does to the others is the model's choice (log 3). -/

namespace Sys2Proof.Machine

/-- One edge of instance `k`; a number that names no instance is an edge of none. DESIGN CHOICE: a fault or a refusal of
that instance stops the whole list (log 3). -/
def stepInstance (sys : List State) (k : Nat) : Host.Outcome (List State) Fault Refusal :=
  match sys[k]? with
  | none => .next sys
  | some s =>
    match step s with
    | .next t => .next (sys.set k t)
    | .fault f => .fault f
    | .refused r => .refused r

/-- Edges of the instances in the order of a schedule. DESIGN CHOICE: the run of all instances ends at the first fault or
refusal of any of them (log 3). -/
def runInstances (sys : List State) : List Nat → Host.Outcome (List State) Fault Refusal
  | [] => .next sys
  | k :: ks =>
    match stepInstance sys k with
    | .next sys' => runInstances sys' ks
    | .fault f => .fault f
    | .refused r => .refused r

end Sys2Proof.Machine
end

