-- ==== Sys2Proof/Machine/Transaction.lean ====
section
/-! DEFINITION. The transaction level (00_scope.md R3): the three operations as functions on sequences, the ports of one
transaction as a well-behaved environment drives them, and what it sees on the result stream. -/

namespace Sys2Proof.Machine

/-! ## The three operations -/

/-- The loop of `decode_hex` (40_hexdec.md R100) over the pairs of a text; `none` when a character is invalid. -/
def hexPairs : List Byte → Option (List Byte)
  | h :: l :: rest =>
    match nib h, nib l, hexPairs rest with
    | some vh, some vl, some o => some (pairByte vh vl :: o)
    | _, _, _ => none
  | _ => some []

/-- `decode_hex` (R100). -/
def decodeHex (t : List Byte) : Result :=
  if t.length % 2 = 1 then ⟨.decodeError, []⟩
  else
    match hexPairs t with
    | none => ⟨.decodeError, []⟩
    | some o => ⟨.ok, o⟩

/-- `pack(g)` (41_b64enc.md R122): byte 0 in bits 23:16, byte 1 in 15:8, byte 2 in 7:0, absent bytes 0. -/
def pack (g : List Byte) : Acc :=
  ((g.getD 0 0#8).setWidth 24 <<< 16) ||| ((g.getD 1 0#8).setWidth 24 <<< 8) ||| (g.getD 2 0#8).setWidth 24

/-- `enc_group(g)` (R123). -/
def encGroup (g : List Byte) : List Byte := emitGroup (pack g) g.length

/-- The groups of `encode_base64` (R120, R121), in order. -/
def encodeGroups : List Byte → List Byte
  | [] => []
  | [x] => encGroup [x]
  | [x, y] => encGroup [x, y]
  | x :: y :: z :: rest => encGroup [x, y, z] ++ encodeGroups rest

/-- `encode_base64` (R120). -/
def encodeBase64 (b : List Byte) : Result := ⟨.ok, encodeGroups b⟩

/-- `xor_combine` (42_xorc.md R140). -/
def xorCombine (a b : List Byte) : Result :=
  if a.length ≠ b.length then ⟨.lengthMismatchError, []⟩ else ⟨.ok, List.zipWith (· ^^^ ·) a b⟩

/-- A hex digit of a nibble, upper or lower case: what a hex encoder writes. The block has none; tests and properties do
(40_hexdec.md R111). -/
def hexDigit (upper : Bool) (n : Nibble) : Byte :=
  if n ≤ 9#4 then 0x30#8 + n.setWidth 8
  else if upper then 0x37#8 + n.setWidth 8
  else 0x57#8 + n.setWidth 8

/-- `hexl` (R111): the lower-case hex text of a byte sequence. -/
def hexl (b : List Byte) : List Byte :=
  b.flatMap fun x => [hexDigit false (x.extractLsb' 4 4), hexDigit false (x.extractLsb' 0 4)]

/-! ## Transactions -/

/-- One command with its operands (00_scope.md R19). -/
inductive Transaction where
  | hexdec (t : List Byte)
  | b64enc (b : List Byte)
  | xorc (a b : List Byte)
  | illegal
  deriving DecidableEq, Repr

/-- The command of a transaction (30_encoding.md R71). -/
def Transaction.instr : Transaction → Instr
  | .hexdec _ => .hexdec
  | .b64enc _ => .b64enc
  | .xorc _ _ => .xorc
  | .illegal => .illegal

/-- The result of a transaction, at the transaction level (R100, R120, R140, 30_encoding.md R76). -/
def Transaction.result : Transaction → Result
  | .hexdec t => decodeHex t
  | .b64enc b => encodeBase64 b
  | .xorc a b => xorCombine a b
  | .illegal => ⟨.illegalOp, []⟩

/-- Every operand is within `MAX_LEN` (70_reset_and_hazards.md R199). -/
def Transaction.fits (maxLen : Option Nat) : Transaction → Bool
  | .hexdec t => withinMax maxLen t.length
  | .b64enc b => withinMax maxLen b.length
  | .xorc a b => withinMax maxLen a.length && withinMax maxLen b.length
  | .illegal => true

/-! ## The ports of a transaction -/

/-- An edge at which the environment does nothing. -/
def PortIn.quiet : PortIn := ⟨false, Offers.silent, false⟩

/-- An edge with a command word on offer. -/
def PortIn.command (c : Code) : PortIn := ⟨false, ⟨some c, none, none⟩, false⟩

/-- An edge with operand beats on offer. -/
def PortIn.operands (a : Option ABeat) (b : Option BBeat) : PortIn := ⟨false, ⟨none, a, b⟩, false⟩

/-- An edge at which the environment takes a result beat. -/
def PortIn.ready : PortIn := ⟨false, Offers.silent, true⟩

/-- The operand beats of XORC, one joint edge while both streams go on, then the rest of the longer one alone
(42_xorc.md R146, R147). -/
def lockStep : List ABeat → List BBeat → List PortIn
  | a :: as, b :: bs => PortIn.operands (some a) (some b) :: lockStep as bs
  | as, [] => as.map fun a => PortIn.operands (some a) none
  | [], bs => bs.map fun b => PortIn.operands none (some b)

/-- The beats of a transaction on stream A (20_memory.md R52). -/
def Transaction.framesA (h : HexImpl) : Transaction → List Beat
  | .hexdec t => frame (laneWidth h 0#2) t
  | .b64enc b => frame (laneWidth h 1#2) b
  | .xorc a _ => frame (laneWidth h 2#2) a
  | .illegal => []

/-- The beats of a transaction on stream B (R52). -/
def Transaction.framesB : Transaction → List Beat
  | .hexdec _ => []
  | .b64enc _ => []
  | .xorc _ b => frame 1 b
  | .illegal => []

/-- The operand edges of a transaction, each beat offered at the edge that takes it. -/
def Transaction.operandPins (h : HexImpl) (tx : Transaction) : List PortIn :=
  lockStep ((tx.framesA h).map (·.onA 0#16)) (tx.framesB.map (·.onB 0#8))

/-- The number of beats on which a result travels (20_memory.md R57). -/
def Result.beats (r : Result) : Nat := max 1 r.seq.length

/-- All the edges of a transaction: the command, the operands, the result (20_memory.md R50). -/
def Transaction.pins (h : HexImpl) (tx : Transaction) : List PortIn :=
  PortIn.command (encode tx.instr) :: tx.operandPins h ++ List.replicate tx.result.beats PortIn.ready

/-! ## The observation -/

/-- What may be read of a result beat: the status, the element when there is one, the end mark. `r_data` of a null beat
must not be read (U6). -/
def RBeat.seen (r : RBeat) : Code × List Byte × Bool := (r.status, [r.data].take r.cnt.toNat, r.last)

/-- How a result travels (20_memory.md R57): framed on one lane, with the status on every beat. -/
def resultFrame (r : Result) : List (Code × List Byte × Bool) :=
  (frame 1 r.seq).map fun b => (r.status.code, b.lane, b.last)

end Sys2Proof.Machine
end

