-- ==== Sys2Proof/Machine/Script.lean ====
section
/-! DEFINITION. The transaction script of 30_encoding.md R79, its two pseudo-operations with their expansions, and when a
script is ill formed. A line's name is its position in the script; a string literal is the list of its codes (log 21). -/

namespace Sys2Proof.Machine

/-- `<bytes>` of R79: literal bytes, or the name of an earlier result. -/
inductive Source where
  | bytes (s : List Byte)
  | named (line : Nat)
  deriving DecidableEq, Repr

/-- One line of a script (R79). -/
inductive Line where
  | hexdec (chars : List Byte)
  | b64enc (x : Source)
  | xorc (x y : Source)
  | illegal
  | hex2b64 (chars : List Byte)
  | hexxor (t u : List Byte)
  deriving DecidableEq, Repr

/-- The sequence a source stands for, the results so far given; `none` when it names no earlier result whose status is
`OK`, which is ill formed (R79). -/
def Source.value (rs : List Result) : Source → Option (List Byte)
  | .bytes s => some s
  | .named k =>
    match rs[k]? with
    | some r => if r.status = .ok then some r.seq else none
    | none => none

/-- The transactions a pseudo-operation goes on with when the status is `OK`; it stops at the first that is not (R79). -/
def Result.andThen (r : Result) (k : List Byte → List Transaction) : List Transaction :=
  if r.status = .ok then k r.seq else []

/-- The transactions a line issues (R79); `none` when the line is ill formed. -/
def Line.issues (rs : List Result) : Line → Option (List Transaction)
  | .hexdec t => some [.hexdec t]
  | .b64enc x => (x.value rs).map fun b => [.b64enc b]
  | .xorc x y => (x.value rs).bind fun a => (y.value rs).map fun b => [.xorc a b]
  | .illegal => some [.illegal]
  | .hex2b64 t => some (.hexdec t :: (decodeHex t).andThen fun b => [.b64enc b])
  | .hexxor t u => some (.hexdec t :: (decodeHex t).andThen fun a =>
      .hexdec u :: (decodeHex u).andThen fun b => [.xorc a b])

/-- The result a line binds: that of the last transaction it issues (R79). The other results of a pseudo-operation are not
bound (DESIGN CHOICE, log 21). -/
def lastResult (ts : List Transaction) : Option Result := ts.getLast?.map Transaction.result

/-- A script from the results `rs` of the lines before it: the transactions issued and all results; `none` when a line is
ill formed. DESIGN CHOICE: a line binds one result, so the intermediate `x` and `y` in the expansions of HEX2B64 and HEXXOR
cannot be named by a later line, on which R79 is silent (log 21). -/
def scriptFrom (rs : List Result) : List Line → Option (List Transaction × List Result)
  | [] => some ([], rs)
  | l :: ls =>
    match l.issues rs with
    | none => none
    | some ts =>
      match scriptFrom (rs ++ (lastResult ts).toList) ls with
      | none => none
      | some (us, rs') => some (ts ++ us, rs')

end Sys2Proof.Machine
end

