-- ==== Sys2Proof/Safety.lean ====
section
/-! DEFINITION. What claims speak of: the reachable-state invariant (10_state.md R44), the length invariant
(70_reset_and_hazards.md R199), a breach by the environment, what it owes, and an edge that takes something. -/

namespace Sys2Proof.Machine

/-- R44 (b). -/
abbrev hexdecInv (b : Block) : Prop :=
  b.mode = .run → b.op = 0#2 → b.gc = 0#2 ∧ b.acc = 0#24 ∧ b.adone = false ∧ b.bdone = false

/-- R44 (c). -/
abbrev b64encInv (b : Block) : Prop :=
  b.mode = .run → b.op = 1#2 →
    b.gc.toNat ≤ 2 ∧ b.err = false ∧ b.ph = false ∧
    (∀ i < 24 - 8 * b.gc.toNat, b.acc.getLsbD i = false) ∧ b.out.length % 4 = 0

/-- R44 (d). -/
abbrev xorcInv (b : Block) : Prop :=
  b.mode = .run → b.op = 2#2 → ¬(b.adone = true ∧ b.bdone = true) ∧ (b.adone ≠ b.bdone → b.err = true)

/-- R44 (e). -/
abbrev respInv (b : Block) : Prop :=
  b.mode = .resp → (b.res.status ≠ .ok → b.res.seq = []) ∧ b.rp < max 1 b.res.seq.length

/-- No transaction of the reserved code is ever in `RUN` (10_state.md R34). -/
abbrev runOpInv (b : Block) : Prop := b.mode = .run → b.op ≠ 3#2

/-- The matrix of 60_exceptions.md R165: which status a command can end in. -/
def statusAllowed (op : Code) (st : Status) : Bool :=
  match decode op, st with
  | .hexdec, .ok => true
  | .hexdec, .decodeError => true
  | .b64enc, .ok => true
  | .xorc, .ok => true
  | .xorc, .lengthMismatchError => true
  | .illegal, .illegalOp => true
  | _, _ => false

/-- The result on offer has a status its command can end in (R165). -/
abbrev matrixInv (b : Block) : Prop := b.mode = .resp → statusAllowed b.op b.res.status = true

/-- Under PARALLEL the registers `ph` and `hn` do not exist (10_state.md R26, R27): here they stay 0. -/
abbrev parallelInv (s : State) : Prop := s.params.hexImpl = .parallel → s.block.ph = false ∧ s.block.hn = 0#4

/-- What the model remembers of the ports has only bits the ports have (20_memory.md R54, log 15). -/
abbrev wiresInv (s : State) : Prop :=
  s.env.held.wired s.params.hexImpl = s.env.held ∧ s.env.stale.wired s.params.hexImpl = s.env.stale

/-- The reachable-state invariant: R44 (b) to (e), and what it needs to be kept by a step. R44 (a) is the type `Mode`. -/
abbrev State.Inv (s : State) : Prop :=
  hexdecInv s.block ∧ b64encInv s.block ∧ xorcInv s.block ∧ respInv s.block ∧ runOpInv s.block ∧
  matrixInv s.block ∧ parallelInv s ∧ wiresInv s

/-- How long the result buffer is against the elements taken (20_memory.md R61), while the operand comes in. -/
abbrev bufferInv (s : State) : Prop :=
  s.block.mode = .run →
    (s.block.op = 0#2 → 2 * s.block.out.length + s.block.ph.toNat ≤ s.nA) ∧
    (s.block.op = 1#2 → 3 * s.block.out.length + 4 * s.block.gc.toNat = 4 * s.nA) ∧
    (s.block.op = 2#2 → s.block.out.length ≤ s.nA) ∧
    withinMax s.params.maxLen s.nA = true ∧ withinMax s.params.maxLen s.nB = true

/-- The longest result an operation can have when no operand is longer than `m` (70_reset_and_hazards.md R199). -/
def capacity (op : Code) (m : Nat) : Nat :=
  match decode op with
  | .hexdec => m / 2
  | .b64enc => 4 * ((m + 2) / 3)
  | .xorc => m
  | .illegal => 0

/-- The result on offer is within the capacity of R199. -/
abbrev capacityInv (s : State) : Prop :=
  s.block.mode = .resp → ∀ m ∈ s.params.maxLen, s.block.res.seq.length ≤ capacity s.block.op m

/-- The length invariant. -/
abbrev State.LengthInv (s : State) : Prop := bufferInv s ∧ capacityInv s

/-- What is wrong with the operand beats taken at the coming edge, stream A first (R196, R199). -/
def State.takenProblem (s : State) : Option Refusal :=
  let w := laneWidth s.params.hexImpl s.block.op
  let pa := s.takenA.bind fun a => beatProblem .illFramedA s.params.maxLen w s.nA a.beat
  let pb := s.takenB.bind fun b => beatProblem .illFramedB s.params.maxLen 1 s.nB b.beat
  pa.or pb

/-- The environment's breach of the protocol at the coming edge, if any (60_exceptions.md R172). -/
def State.breach (s : State) : Option Refusal :=
  match s.portProblem with
  | some r => some r
  | none => if s.pins.rst then none else s.takenProblem

/-- The coming edge takes something (20_memory.md R53). -/
def State.takes (s : State) : Bool :=
  s.takenCmd.isSome || s.takenA.isSome || s.takenB.isSome || s.takenR.isSome

/-- The environment offers, or takes, what the block is waiting for (70_reset_and_hazards.md R198, R206). -/
def State.supplied (s : State) : Bool :=
  let o := s.pins.offers
  match s.block.mode with
  | .idle => o.cmd.isSome
  | .run => (!aOpen s.block || o.a.isSome) && (!bOpen s.block || o.b.isSome)
  | .resp => s.pins.rReady

/-- Nothing is held over and nothing is to be withdrawn: the environment starts a new transaction cleanly. -/
abbrev State.clean (s : State) : Prop := s.env.held = Offers.silent ∧ s.env.stale = Offers.silent

/-- `k` steps, stopping at the first fault or refusal (what `Host.Core.run` is, over the model's own types). -/
def runSteps : Nat → State → Answer
  | 0, s => .next s
  | k + 1, s =>
    match step s with
    | .next t => runSteps k t
    | .fault f => .fault f
    | .refused r => .refused r

/-- `k` steps lead from `s` to `t`. -/
abbrev reaches (k : Nat) (s t : State) : Prop := runSteps k s = .next t

/-- What the block takes from the environment, channel by channel, in order (20_memory.md R50). -/
structure Traffic where
  cmds : List Code
  a : List Beat
  b : List Beat
  deriving DecidableEq, Repr

/-- One stretch of traffic after another. -/
def Traffic.append (x y : Traffic) : Traffic := ⟨x.cmds ++ y.cmds, x.a ++ y.a, x.b ++ y.b⟩

/-- What the coming edge takes. -/
def State.traffic (s : State) : Traffic where
  cmds := s.takenCmd.toList
  a := (s.takenA.map ABeat.beat).toList
  b := (s.takenB.map BBeat.beat).toList

/-- What `k` edges take, up to the first fault or refusal. -/
def trafficOf : Nat → State → Traffic
  | 0, _ => ⟨[], [], []⟩
  | k + 1, s =>
    match step s with
    | .next t => s.traffic.append (trafficOf k t)
    | .fault _ => ⟨[], [], []⟩
    | .refused _ => ⟨[], [], []⟩

end Sys2Proof.Machine
end

