-- ==== Sys2Proof/Certificates/Slice0/Obligations.lean ====
section
/-! DEFINITION. The statements for the provers. Each names the rule or section of spec/ it formalises; a clause that rests
on a decision of the model names its log entry. -/

open Sys2Proof Sys2Proof.Machine

/-! ## Encoding, and how an instruction comes to run -/

/-- 30_encoding.md section 1 (the table of operation codes, written out bit by bit). -/
def Obligations.DecodeReadsSpecWords : Prop :=
  decode 0b00#2 = .hexdec ∧ decode 0b01#2 = .b64enc ∧ decode 0b10#2 = .xorc ∧ decode 0b11#2 = .illegal

/-- 30_encoding.md section 1: decoding and encoding agree, both ways, on every instruction and every command word. -/
def Obligations.DecodeEncodeRoundTrip : Prop :=
  (∀ i : Instr, i.wf = true → decode (encode i) = i) ∧ ∀ c : Code, encode (decode c) = c

/-- opcode_table.json's mask `0x3`: a table word is read by its two low bits (the model's reading: log 12). -/
def Obligations.TableWordReadByItsTwoLowBits : Prop :=
  ∀ (i : Instr) (nbits w : Nat), 2 ≤ nbits → w % 4 = (encode i).toNat → decodeTableWord nbits w = some i

/-- 20_memory.md section 1 and 10_state.md section 2: which instruction acts at an edge, and what the step adds around it:
the next inputs are due and what was offered and not taken is held (log 1, log 7, log 10). -/
def Obligations.StepRunsTheDueInstruction : Prop :=
  ∀ s : State, s.portProblem = none → s.pins.rst = false →
    (∀ c, s.block.mode = .idle → s.pins.offers.cmd = some c → step s = closeEdge s (exec (decode c) s)) ∧
    (s.block.mode ≠ .idle → step s = closeEdge s (exec (decode s.block.op) s)) ∧
    (s.block.mode = .idle → s.pins.offers.cmd = none → step s = .next (finishEdge s s)) ∧
    (∀ t, closeEdge s (.next t) = .next (finishEdge s t) ∧
      (finishEdge s t).block = t.block ∧ (finishEdge s t).env.taken = t.env.taken ∧
      (finishEdge s t).env.inputs = s.env.inputs.tail ∧ (finishEdge s t).env.held = s.untaken ∧
      (finishEdge s t).nA = t.nA ∧ (finishEdge s t).nB = t.nB ∧ (finishEdge s t).params = t.params)

/-- The word placed for the next edge is the instruction the next step runs, from every state (log 12). -/
def Obligations.PlacedCommandRunsNext : Prop :=
  ∀ (s : State) (nbits w : Nat) (i : Instr), decodeTableWord nbits w = some i →
    step (s.withFetchWord nbits w) = closeEdge (s.withFetchWord nbits w) (exec i (s.withFetchWord nbits w)) ∧
    ∃ t, step (s.withFetchWord nbits w) = .next t ∧ t.block.op = encode i

/-! ## Acceptance, Finish, delivery -/

/-- 10_state.md R34: command acceptance, for every command; and what it leaves unchanged. The model's own fields are in
`ModelFieldsFollowTheBeats`. -/
def Obligations.CommandAcceptance : Prop :=
  ∀ (i : Instr) (s : State), s.block.mode = .idle →
    ∃ t, exec i s = .next t ∧
      t.block.op = encode i ∧ t.block.ph = false ∧ t.block.gc = 0#2 ∧ t.block.acc = 0#24 ∧ t.block.err = false ∧
      t.block.out = [] ∧ t.block.adone = false ∧ t.block.bdone = false ∧ t.block.hn = s.block.hn ∧
      (if encode i = 3#2 then
        t.block.res = ⟨.illegalOp, []⟩ ∧ t.block.rp = 0 ∧ t.block.mode = .resp
      else
        t.block.res = s.block.res ∧ t.block.rp = s.block.rp ∧ t.block.mode = .run)

/-- What `exec` does to the model's own fields, which no rule names: the element counts start at 0 at acceptance and grow by
the counts of the beats taken (log 13; 42_xorc.md R148 has no length counter), the environment's side changes only by the
result beats it takes (log 1), and the parameters not at all. -/
def Obligations.ModelFieldsFollowTheBeats : Prop :=
  ∀ (i : Instr) (s t : State), exec i s = .next t →
    (s.block.mode = .idle → t.nA = 0 ∧ t.nB = 0 ∧ t.free = s.free) ∧
    (s.block.mode = .run → s.block.op = encode i →
      t.nA = s.nA + s.takenA.elim 0 (·.cnt.toNat) ∧ t.nB = s.nB + s.takenB.elim 0 (·.cnt.toNat)) ∧
    (s.block.mode = .run → s.block.op ≠ encode i → t = s) ∧
    (s.block.mode = .resp → t.nA = s.nA ∧ t.nB = s.nB) ∧
    t.env = { s.env with taken := s.env.taken ++ s.takenR.toList } ∧ t.params = s.params

/-- 30_encoding.md R76: the reserved code takes no operand beat and is answered with one null beat of status 3. -/
def Obligations.ReservedCodeAnswersIllegalOp : Prop :=
  ∀ s : State, s.block.mode = .idle →
    ∃ t, exec .illegal s = .next t ∧ t.block.mode = .resp ∧ t.block.res = ⟨.illegalOp, []⟩ ∧
      t.takenA = none ∧ t.takenB = none ∧
      (t.resultBeat.status = 3#2 ∧ t.resultBeat.cnt = 0#1 ∧ t.resultBeat.last = true) ∧
      (t.pins.rst = false → t.pins.rReady = true →
        ∃ u, exec .illegal t = .next u ∧ u.block.mode = .idle ∧ u.env.taken = s.env.taken ++ [t.resultBeat])

/-- 10_state.md R35: `Finish(st)`, which is error entry too: the result, the read position and the mode, and nothing else. -/
def Obligations.FinishWritesTheResult : Prop :=
  ∀ (b : Block) (st : Status),
    (b.finish st).res = (if st = .ok then ⟨.ok, b.out⟩ else ⟨st, []⟩) ∧
    (b.finish st).rp = 0 ∧ (b.finish st).mode = .resp ∧
    b.finish st = { b with res := (b.finish st).res, rp := 0, mode := .resp }

/-- 10_state.md R36: result delivery, the same for every operation. `r_data` of a null beat is a free value (log 4) and
this says nothing of it; every register the rule does not name is unchanged. The model's own fields are in
`ModelFieldsFollowTheBeats`. -/
def Obligations.ResultDelivery : Prop :=
  ∀ (i : Instr) (s : State), s.block.mode = .resp →
    (s.pins.rReady = false ∨ s.pins.rst = true → exec i s = .next s) ∧
    (s.pins.rReady = true → s.pins.rst = false →
      ∃ t r, exec i s = .next t ∧ t.env.taken = s.env.taken ++ [r] ∧
        r.status = s.block.res.status.code ∧
        (s.block.res.seq = [] → r.cnt = 0#1 ∧ r.last = true) ∧
        (s.block.res.seq ≠ [] → r.cnt = 1#1 ∧
          (∀ v, s.block.res.seq[s.block.rp]? = some v → r.data = v) ∧
          (r.last = true ↔ s.block.rp = s.block.res.seq.length - 1)) ∧
        t.block = (if r.last then { s.block with mode := .idle } else { s.block with rp := s.block.rp + 1 }))

/-! ## The beat steps -/

/-- 40_hexdec.md R106: the beat step of HEXDEC under PIPELINED, for every beat the framing rules allow, with every register
it leaves unchanged. After an invalid high digit `hn` is a free value (log 4) and this says nothing of it. The model's own
fields are in `ModelFieldsFollowTheBeats`. -/
def Obligations.HexdecPipelinedBeat : Prop :=
  ∀ (s : State) (a : ABeat),
    s.block.mode = .run → s.block.op = 0#2 → s.params.hexImpl = .pipelined →
    s.pins.rst = false → s.pins.offers.a = some a →
    framingOk 1 s.nA a.beat = true → withinMax s.params.maxLen (s.nA + a.beat.cnt) = true →
    let b := s.block
    let v := a.beat.lane.head?.bind nib
    let one := decide (a.beat.cnt = 1)
    let e := b.err || (one && v.isNone)
    let p := if one then !b.ph else b.ph
    let out := if one && b.ph && !e then b.out ++ [b.hn ++ v.getD 0#4] else b.out
    ∃ t, exec .hexdec s = .next t ∧
      (if one && !b.ph then ∀ n, v = some n → t.block.hn = n else t.block.hn = b.hn) ∧
      (if a.last then
        t.block = { b with
          hn := t.block.hn, out := out, rp := 0, mode := .resp,
          res := if e || p then ⟨.decodeError, []⟩ else ⟨.ok, out⟩ }
      else t.block = { b with hn := t.block.hn, out := out, err := e, ph := p })

/-- 40_hexdec.md R107: the beat step of HEXDEC under PARALLEL, for every beat the framing rules allow, with every register
the variant has. `ph` and `hn` do not exist there; that the model's fields stay as they were (log 14) is in `HexdecFrame`,
the model's own fields are in `ModelFieldsFollowTheBeats`. -/
def Obligations.HexdecParallelBeat : Prop :=
  ∀ (s : State) (a : ABeat),
    s.block.mode = .run → s.block.op = 0#2 → s.params.hexImpl = .parallel →
    s.pins.rst = false → s.pins.offers.a = some a →
    framingOk 2 s.nA a.beat = true → withinMax s.params.maxLen (s.nA + a.beat.cnt) = true →
    let b := s.block
    let h := nib (a.data.extractLsb' 0 8)
    let l := nib (a.data.extractLsb' 8 8)
    let two := decide (a.cnt = 2#2)
    let bad := two && (h.isNone || l.isNone)
    let e := b.err || bad || decide (a.cnt = 1#2)
    let out := if two && !bad && !b.err then b.out ++ [h.getD 0#4 ++ l.getD 0#4] else b.out
    ∃ t, exec .hexdec s = .next t ∧
      t.block =
        if a.last then { b with
          ph := t.block.ph, hn := t.block.hn,
          out := out, rp := 0, mode := .resp, res := if e then ⟨.decodeError, []⟩ else ⟨.ok, out⟩ }
        else { b with ph := t.block.ph, hn := t.block.hn, out := out, err := e }

/-- 41_b64enc.md R127: the beat step of B64ENC, for every beat the framing rules allow, with every register it leaves
unchanged. `gc ≤ 2` is 10_state.md R29; `gc = 3` is `GroupCountThreeStops`. The model's own fields are in `B64encFrame` and
`ModelFieldsFollowTheBeats`. -/
def Obligations.B64encBeat : Prop :=
  ∀ (s : State) (x : ABeat),
    s.block.mode = .run → s.block.op = 1#2 → s.block.gc.toNat ≤ 2 → s.pins.rst = false → s.pins.offers.a = some x →
    framingOk 1 s.nA x.beat = true → withinMax s.params.maxLen (s.nA + x.beat.cnt) = true →
    let b := s.block
    let emit := fun (a : Acc) (m : Nat) => (List.range 4).map fun i =>
      if 6 * i < 8 * m then alpha (a.extractLsb' (18 - 6 * i) 6) else 0x3D#8
    let one := decide (x.cnt = 1#2)
    let a1 := if one then b.acc ||| ((x.data.extractLsb' 0 8).setWidth 24 <<< (16 - 8 * b.gc.toNat)) else b.acc
    let g1 := if one then b.gc.toNat + 1 else b.gc.toNat
    let out1 := if one && g1 == 3 then b.out ++ emit a1 3 else b.out
    let a2 := if one && g1 == 3 then 0#24 else a1
    let g2 := if one && g1 == 3 then 0 else g1
    let out2 := if x.last && g2 != 0 then out1 ++ emit a2 g2 else out1
    ∃ t, exec .b64enc s = .next t ∧
      t.block =
        if x.last then { b with out := out2, rp := 0, mode := .resp, res := ⟨.ok, out2⟩ }
        else { b with out := out2, acc := a2, gc := BitVec.ofNat 2 g2 }

/-- The model's one fault (log 9): a byte taken with `gc = 3`, which 10_state.md R29 says is never held between steps. -/
def Obligations.GroupCountThreeStops : Prop :=
  ∀ (s : State) (x : ABeat),
    s.block.mode = .run → s.block.op = 1#2 → s.block.gc = 3#2 → s.pins.rst = false → s.pins.offers.a = some x →
    x.cnt = 1#2 → withinMax s.params.maxLen (s.nA + 1) = true →
    exec .b64enc s = .fault .groupCountThree

/-- 42_xorc.md R146: the joint step of XORC, for every pair of beats the framing rules allow, with every register it leaves
unchanged. The model's own fields are in `XorcAndReservedFrame` and `ModelFieldsFollowTheBeats`. -/
def Obligations.XorcJointStep : Prop :=
  ∀ (s : State) (x : ABeat) (y : BBeat),
    s.block.mode = .run → s.block.op = 2#2 → s.block.adone = false → s.block.bdone = false →
    s.pins.rst = false → s.pins.offers.a = some x → s.pins.offers.b = some y →
    framingOk 1 s.nA x.beat = true → framingOk 1 s.nB y.beat = true →
    withinMax s.params.maxLen (s.nA + x.beat.cnt) = true → withinMax s.params.maxLen (s.nB + y.beat.cnt) = true →
    let b := s.block
    let ca := x.cnt.toNat
    let cb := y.cnt.toNat
    let out := if ca == 1 && cb == 1 && !b.err then b.out ++ [x.data.extractLsb' 0 8 ^^^ y.data] else b.out
    let e := b.err || ca != cb || x.last != y.last
    ∃ t, exec .xorc s = .next t ∧
      t.block =
        if x.last && y.last then { b with
          out := out, rp := 0, mode := .resp, res := if e then ⟨.lengthMismatchError, []⟩ else ⟨.ok, out⟩ }
        else { b with out := out, err := e, adone := x.last, bdone := y.last }

/-- 42_xorc.md R147: the drain step of XORC on either stream, which takes that stream alone: until the `last` beat nothing of
the block changes. The model's own fields are in `XorcAndReservedFrame` and `ModelFieldsFollowTheBeats`. -/
def Obligations.XorcDrainStep : Prop :=
  (∀ (s : State) (x : ABeat),
    s.block.mode = .run → s.block.op = 2#2 → s.block.adone = false → s.block.bdone = true →
    s.pins.rst = false → s.pins.offers.a = some x →
    framingOk 1 s.nA x.beat = true → withinMax s.params.maxLen (s.nA + x.beat.cnt) = true →
    s.takenA = some x ∧ s.takenB = none ∧
    ∃ t, exec .xorc s = .next t ∧
      t.block = if x.last then { s.block with res := ⟨.lengthMismatchError, []⟩, rp := 0, mode := .resp } else s.block) ∧
  (∀ (s : State) (y : BBeat),
    s.block.mode = .run → s.block.op = 2#2 → s.block.adone = true → s.block.bdone = false →
    s.pins.rst = false → s.pins.offers.b = some y →
    framingOk 1 s.nB y.beat = true → withinMax s.params.maxLen (s.nB + y.beat.cnt) = true →
    s.takenA = none ∧ s.takenB = some y ∧
    ∃ t, exec .xorc s = .next t ∧
      t.block = if y.last then { s.block with res := ⟨.lengthMismatchError, []⟩, rp := 0, mode := .resp } else s.block)

/-! ## Frames in `RUN` (acceptance and delivery state theirs above) -/

/-- What a HEXDEC beat step leaves unchanged, in every state of `RUN` (40_hexdec.md section 2, 10_state.md section 3). That
`ph` and `hn` stay as they were under PARALLEL, where they do not exist, is the model's choice (log 14). -/
def Obligations.HexdecFrame : Prop :=
  ∀ s t : State, s.block.mode = .run → exec .hexdec s = .next t →
    t.block.op = s.block.op ∧ t.block.acc = s.block.acc ∧ t.block.gc = s.block.gc ∧
    t.block.adone = s.block.adone ∧ t.block.bdone = s.block.bdone ∧ s.block.out <+: t.block.out ∧
    (t.block.mode = .run → t.block.res = s.block.res ∧ t.block.rp = s.block.rp) ∧
    (t.block.mode ≠ .run → t.block.err = s.block.err ∧ t.block.ph = s.block.ph) ∧
    (s.params.hexImpl = .parallel → t.block.ph = s.block.ph ∧ t.block.hn = s.block.hn ∧ t.free = s.free) ∧
    t.nB = s.nB ∧ t.env = s.env ∧ t.params = s.params

/-- What a B64ENC beat step leaves unchanged, in every state of `RUN` (41_b64enc.md section 2, 10_state.md section 3). -/
def Obligations.B64encFrame : Prop :=
  ∀ s t : State, s.block.mode = .run → exec .b64enc s = .next t →
    t.block.op = s.block.op ∧ t.block.ph = s.block.ph ∧ t.block.hn = s.block.hn ∧ t.block.err = s.block.err ∧
    t.block.adone = s.block.adone ∧ t.block.bdone = s.block.bdone ∧ s.block.out <+: t.block.out ∧
    (t.block.mode = .run → t.block.res = s.block.res ∧ t.block.rp = s.block.rp) ∧
    (t.block.mode ≠ .run → t.block.acc = s.block.acc ∧ t.block.gc = s.block.gc) ∧
    t.nB = s.nB ∧ t.free = s.free ∧ t.env = s.env ∧ t.params = s.params

/-- What an XORC step leaves unchanged, and the whole state for the reserved code, in every state of `RUN`
(42_xorc.md section 2, 10_state.md section 3). -/
def Obligations.XorcAndReservedFrame : Prop :=
  (∀ s t : State, s.block.mode = .run → exec .xorc s = .next t →
    t.block.op = s.block.op ∧ t.block.ph = s.block.ph ∧ t.block.hn = s.block.hn ∧ t.block.acc = s.block.acc ∧
    t.block.gc = s.block.gc ∧ s.block.out <+: t.block.out ∧
    (t.block.mode = .run → t.block.res = s.block.res ∧ t.block.rp = s.block.rp) ∧
    (t.block.mode ≠ .run →
      t.block.err = s.block.err ∧ t.block.adone = s.block.adone ∧ t.block.bdone = s.block.bdone) ∧
    t.free = s.free ∧ t.env = s.env ∧ t.params = s.params) ∧
  ∀ s : State, s.block.mode = .run → exec .illegal s = .next s

/-! ## Handshake, waiting, refusals -/

/-- 20_memory.md R55: the readies of the two operand streams, case by case. -/
def Obligations.OperandReadies : Prop :=
  ∀ (b : Block) (av bv : Bool),
    (b.mode ≠ .run → aReady b bv = false ∧ bReady b av = false) ∧
    (b.mode = .run →
      (b.op = 0#2 ∨ b.op = 1#2 → aReady b bv = true ∧ bReady b av = false) ∧
      (b.op = 2#2 →
        (b.adone = false → b.bdone = false → aReady b bv = bv ∧ bReady b av = av) ∧
        (b.adone = false → b.bdone = true → aReady b bv = true ∧ bReady b av = false) ∧
        (b.adone = true → b.bdone = false → aReady b bv = false ∧ bReady b av = true) ∧
        (b.adone = true → b.bdone = true → aReady b bv = false ∧ bReady b av = false)) ∧
      (b.op = 3#2 → aReady b bv = false ∧ bReady b av = false))

/-- 20_memory.md section 1 and 70_reset_and_hazards.md section 3: a command is taken only in `IDLE`, operand beats only in
`RUN`, a result beat only in `RESP`; and in the joint phase of XORC both streams are taken or neither. -/
def Obligations.ChannelsTakeTurns : Prop :=
  ∀ s : State,
    (s.takenCmd ≠ none → s.block.mode = .idle) ∧
    (s.takenA ≠ none ∨ s.takenB ≠ none → s.block.mode = .run) ∧
    (s.takenR ≠ none → s.block.mode = .resp) ∧
    (joint s.block = true → (s.takenA.isSome ↔ s.takenB.isSome))

/-- 20_memory.md section 1 (an edge at which nothing is taken changes no state) and 70_reset_and_hazards.md section 3 (the
stuck states (a) to (d)): the block waits, without a time-out and without an error. The edge itself is a step of the model
(log 17). -/
def Obligations.WaitingChangesNothing : Prop :=
  (∀ s : State, s.portProblem = none → s.pins.rst = false → s.takes = false → step s = .next (finishEdge s s)) ∧
  (∀ s : State, s.block.mode = .run → s.pins.offers.a = none → s.pins.offers.b = none → s.takes = false) ∧
  (∀ s : State, s.block.mode = .run → s.block.op ≠ 2#2 → s.pins.offers.a = none → s.takes = false) ∧
  (∀ s : State, joint s.block = true → s.pins.offers.a = none ∨ s.pins.offers.b = none → s.takes = false) ∧
  (∀ s : State, s.block.mode = .resp → s.pins.rReady = false → s.takes = false) ∧
  (∀ s : State, s.block.mode = .idle → s.pins.offers.cmd = none → s.takes = false)

/-- 70_reset_and_hazards.md section 3 and 60_exceptions.md section 3: an ill-framed beat is refused by name, on either
stream: a count above the lanes, a null beat that is not the sole beat, a short beat that is not the last (log 5). -/
def Obligations.IllFramedBeatsAreRefused : Prop :=
  (∀ (i : Instr) (s : State) (x : ABeat),
    s.block.mode = .run → s.block.op = encode i → s.takenA = some x →
    let w := laneWidth s.params.hexImpl s.block.op
    (x.cnt.toNat > w ∨ (x.cnt = 0#2 ∧ (x.last = false ∨ s.nA ≠ 0)) ∨ (x.last = false ∧ x.cnt.toNat ≠ w)) →
    exec i s = .refused .illFramedA) ∧
  ∀ (s : State) (y : BBeat),
    s.block.mode = .run → s.block.op = 2#2 → s.takenB = some y →
    (∀ x, s.takenA = some x → beatProblem .illFramedA s.params.maxLen 1 s.nA x.beat = none) →
    y.cnt = 0#1 ∧ (y.last = false ∨ s.nB ≠ 0) →
    exec .xorc s = .refused .illFramedB

/-- 70_reset_and_hazards.md section 3 (length bound): with a finite `MAX_LEN` a well-framed beat that makes its operand
longer is refused by name (log 6). -/
def Obligations.OverlongOperandsAreRefused : Prop :=
  (∀ (i : Instr) (s : State) (x : ABeat) (m : Nat),
    s.block.mode = .run → s.block.op = encode i → s.params.maxLen = some m → s.takenA = some x →
    framingOk (laneWidth s.params.hexImpl s.block.op) s.nA x.beat = true → s.nA + x.cnt.toNat > m →
    exec i s = .refused .operandTooLong) ∧
  ∀ (s : State) (y : BBeat) (m : Nat),
    s.block.mode = .run → s.block.op = 2#2 → s.params.maxLen = some m → s.takenB = some y →
    (∀ x, s.takenA = some x → beatProblem .illFramedA s.params.maxLen 1 s.nA x.beat = none) →
    framingOk 1 s.nB y.beat = true → s.nB + y.cnt.toNat > m →
    exec .xorc s = .refused .operandTooLong

/-- 20_memory.md section 1 (the hold rule) and 70_reset_and_hazards.md section 1 (withdrawal after a reset): a breach at
the ports is refused by name at the next edge with `rst = 0` (log 7, log 8). -/
def Obligations.PortBreachesAreRefused : Prop :=
  (∀ s : State, s.pins.rst = false →
    ((∃ c, s.env.held.cmd = some c ∧ s.pins.offers.cmd ≠ some c) ∨
      (∃ a, s.env.held.a = some a ∧ s.pins.offers.a ≠ some a) ∨
      (∃ b, s.env.held.b = some b ∧ s.pins.offers.b ≠ some b)) →
    step s = .refused .offerNotHeld) ∧
  (∀ s : State, s.pins.rst = false → s.env.held = Offers.silent →
    ((∃ a, s.env.stale.a = some a ∧ s.pins.offers.a = some a) ∨
      (∃ b, s.env.stale.b = some b ∧ s.pins.offers.b = some b)) →
    step s = .refused .beatNotWithdrawn) ∧
  (∀ s t : State, s.pins.rst = false → step s = .next t → t.env.stale = Offers.silent ∧ t.env.held = s.untaken)

/-- 60_exceptions.md section 3 and 93_implementation_defined.md part 1: from a state of the invariant, bad content never
stops the machine: an edge is refused exactly for a breach by the environment, under its name, and otherwise goes on. -/
def Obligations.OnlyBreachesStop : Prop :=
  ∀ s : State, s.Inv →
    (∀ r, s.breach = some r → step s = .refused r) ∧ (s.breach = none → ∃ t, step s = .next t)

/-- 70_reset_and_hazards.md section 5 (progress): from a state of the invariant, when the environment supplies what the
block waits for, the edge takes it. -/
def Obligations.SuppliedEdgesTake : Prop :=
  ∀ s : State, s.Inv → s.pins.rst = false → s.supplied = true → s.takes = true

/-- 20_memory.md section 3 (atomicity): the block leaves `RUN` only at an edge that takes the `last` beat of every operand
that had not ended. -/
def Obligations.ResultOnlyAfterLastBeats : Prop :=
  ∀ s t : State, s.block.mode = .run → step s = .next t → s.pins.rst = false → t.block.mode ≠ .run →
    t.block.mode = .resp ∧
    (aOpen s.block = true → ∃ x, s.takenA = some x ∧ x.last = true) ∧
    (bOpen s.block = true → ∃ y, s.takenB = some y ∧ y.last = true)

/-- 10_state.md section 4 (result delivery) and 20_memory.md sections 1 and 3 (the result stream, atomicity): result beats are
taken in `RESP` only, one at an edge; a result whose status is not `OK` (its sequence is empty: 10_state.md section 3) is one
null beat with the end mark, and the block is idle after it. -/
def Obligations.NoPartialResults : Prop :=
  ∀ s t : State, s.Inv → step s = .next t →
    t.env.taken = s.env.taken ∨
    (s.block.mode = .resp ∧ t.env.taken = s.env.taken ++ [s.resultBeat] ∧
      (s.block.res.status ≠ .ok →
        s.resultBeat.cnt = 0#1 ∧ s.resultBeat.last = true ∧ t.block.mode = .idle))

/-- 20_memory.md section 1 (lanes at and above `cnt` are ignored). Where `exec` answers a next state, it answers the same one,
but for the inputs themselves, when lane bits that a beat's count does not cover are changed. This clause is about `exec`
alone: the checks of `step` on held and stale offers do compare those bits (log 7, log 8). The other clause is about the
model's 16-bit field for `a_data` (log 15): under PIPELINED its 8 bits above the `LA` wires change nothing of a whole step,
those checks included. -/
def Obligations.UnusedLaneBitsAreIgnored : Prop :=
  (∀ (s : State) (p : PortIn) (x : ABeat) (d : BitVec 16) (rest : List PortIn),
    s.params.hexImpl = .pipelined → p.offers.a = some x → d.extractLsb' 0 8 = x.data.extractLsb' 0 8 →
    step { s with env := { s.env with inputs := p :: rest } } =
      step { s with env := { s.env with
        inputs := { p with offers := { p.offers with a := some { x with data := d } } } :: rest } }) ∧
  ∀ (i : Instr) (s t : State) (p p' : PortIn) (rest : List PortIn),
    s.env.inputs = p :: rest → p'.rst = p.rst → p'.rReady = p.rReady → p'.offers.cmd = p.offers.cmd →
    p'.offers.a.map ABeat.beat = p.offers.a.map ABeat.beat → p'.offers.b.map BBeat.beat = p.offers.b.map BBeat.beat →
    exec i s = .next t →
    exec i { s with env := { s.env with inputs := p' :: rest } } =
      .next { t with env := { t.env with inputs := p' :: rest } }

/-! ## Reset -/

/-- 70_reset_and_hazards.md R190: at an edge with `rst = 1`, whatever the mode and whatever is offered, no beat is taken on
any channel and every register gets its reset value. The rest of the state is in `ResetEdgeAndTheEnvironment`. -/
def Obligations.ResetEdge : Prop :=
  ∀ s : State, s.pins.rst = true →
    s.takenCmd = none ∧ s.takenA = none ∧ s.takenB = none ∧ s.takenR = none ∧
    ∃ t, step s = .next t ∧
      t.block.mode = .idle ∧ t.block.op = 0#2 ∧ t.block.ph = false ∧ t.block.hn = 0#4 ∧ t.block.acc = 0#24 ∧
      t.block.gc = 0#2 ∧ t.block.err = false ∧ t.block.out = [] ∧ t.block.adone = false ∧ t.block.bdone = false ∧
      t.block.res = ⟨.ok, []⟩ ∧ t.block.res.status.code = 0#2 ∧ t.block.rp = 0

/-- What a reset edge does beside the registers, read from 70_reset_and_hazards.md section 1 by inference: the element counts
return to 0 (log 13); what the environment has taken it keeps, nothing is held any more, and the index of free values and the
parameters are unchanged (log 24); an operand beat on offer becomes stale exactly when the abandoned transaction still reads
its stream, or the beat was stale before and is still on offer (log 8). -/
def Obligations.ResetEdgeAndTheEnvironment : Prop :=
  ∀ s : State, s.pins.rst = true →
    ∃ t, step s = .next t ∧
      t.nA = 0 ∧ t.nB = 0 ∧ t.free = s.free ∧ t.params = s.params ∧
      t.env.taken = s.env.taken ∧ t.env.inputs = s.env.inputs.tail ∧ t.env.held = Offers.silent ∧
      t.env.stale.cmd = none ∧
      (∀ x, t.env.stale.a = some x ↔ s.pins.offers.a = some x ∧ (aOpen s.block = true ∨ s.env.stale.a = some x)) ∧
      (∀ y, t.env.stale.b = some y ↔ s.pins.offers.b = some y ∧ (bOpen s.block = true ∨ s.env.stale.b = some y)) ∧
      (s.pins.offers.a = none → s.pins.offers.b = none → t.clean)

/-- 10_state.md section 5: the registers of the reset state, for any parameters. The parameters of `State.reset` and the
model's own fields are the model's choice (log 1, log 2). -/
def Obligations.ResetStateValues : Prop :=
  (∀ p : Params, (State.resetWith p).block = Block.reset ∧ (State.resetWith p).params = p) ∧
  Block.reset.mode.code = 0#2 ∧ Block.reset.op = 0#2 ∧ Block.reset.ph = false ∧ Block.reset.hn = 0#4 ∧
  Block.reset.acc = 0#24 ∧ Block.reset.gc = 0#2 ∧ Block.reset.err = false ∧ Block.reset.out = [] ∧
  Block.reset.adone = false ∧ Block.reset.bdone = false ∧ Block.reset.res.status.code = 0#2 ∧
  Block.reset.res.seq = [] ∧ Block.reset.rp = 0 ∧
  State.reset = State.resetWith ⟨.pipelined, none⟩

/-- 70_reset_and_hazards.md section 1: the outputs while the block is as reset left it, whatever is offered. -/
def Obligations.OutputsAfterReset : Prop :=
  ∀ s : State, s.block = Block.reset →
    s.portsOut.cmdReady = true ∧ s.portsOut.aReady = false ∧ s.portsOut.bReady = false ∧ s.portsOut.r = none

/-! ## The constant tables -/

/-- 30_encoding.md section 3: the hex digit code by ranges, the hardware's formula for a valid code, and that exactly 22 of
the 256 codes are valid. The formula is marked derived in the spec. -/
def Obligations.HexDigitCode : Prop :=
  (∀ c : Byte,
    (0x30#8 ≤ c ∧ c ≤ 0x39#8 → nib c = some ((c - 0x30#8).setWidth 4)) ∧
    (0x41#8 ≤ c ∧ c ≤ 0x46#8 → nib c = some ((c - 0x37#8).setWidth 4)) ∧
    (0x61#8 ≤ c ∧ c ≤ 0x66#8 → nib c = some ((c - 0x57#8).setWidth 4)) ∧
    (¬(0x30#8 ≤ c ∧ c ≤ 0x39#8) → ¬(0x41#8 ≤ c ∧ c ≤ 0x46#8) → ¬(0x61#8 ≤ c ∧ c ≤ 0x66#8) → nib c = none) ∧
    (∀ v, nib c = some v → v = c.setWidth 4 + 9#4 * (c.extractLsb' 6 1).setWidth 4)) ∧
  ((List.range 256).filter fun n => (nib (BitVec.ofNat 8 n)).isSome).length = 22

/-- 30_encoding.md section 4: the Base64 alphabet by ranges; it is injective, never the pad, and its codes have bit 7
clear. -/
def Obligations.Base64Alphabet : Prop :=
  ∀ i : Field,
    (i.toNat ≤ 25 → (alpha i).toNat = 0x41 + i.toNat) ∧
    (26 ≤ i.toNat ∧ i.toNat ≤ 51 → (alpha i).toNat = 0x47 + i.toNat) ∧
    (52 ≤ i.toNat ∧ i.toNat ≤ 61 → (alpha i).toNat = i.toNat - 4) ∧
    (i.toNat = 62 → alpha i = 0x2B#8) ∧ (i.toNat = 63 → alpha i = 0x2F#8) ∧
    (∀ j : Field, alpha i = alpha j → i = j) ∧ alpha i ≠ pad ∧ (alpha i).getLsbD 7 = false

/-! ## The transaction level -/

/-- 40_hexdec.md R102 and R103: a text of odd length, and a text with an invalid character anywhere, give
`(DECODE_ERROR, [])`. -/
def Obligations.HexErrors : Prop :=
  ∀ t : List Byte,
    (t.length % 2 = 1 → decodeHex t = ⟨.decodeError, []⟩) ∧
    ((∃ c ∈ t, nib c = none) → decodeHex t = ⟨.decodeError, []⟩)

/-- 40_hexdec.md section 1: success is exact: an even text of valid digits gives `OK`, half as many bytes, and byte `k` has
the digit at `2k` in bits 7:4 and the digit at `2k+1` in bits 3:0. -/
def Obligations.HexSuccessIsExact : Prop :=
  ∀ t : List Byte, t.length % 2 = 0 → (∀ c ∈ t, nib c ≠ none) →
    ∃ o, decodeHex t = ⟨.ok, o⟩ ∧ o.length = t.length / 2 ∧
      ∀ k (h : k < o.length),
        (t[2 * k]?).bind nib = some (o[k].extractLsb' 4 4) ∧
        (t[2 * k + 1]?).bind nib = some (o[k].extractLsb' 0 4)

/-- 40_hexdec.md section 4: decoding is the left inverse of hex encoding, in lower case and in any mix of cases. -/
def Obligations.HexRoundTrip : Prop :=
  (∀ b : List Byte, decodeHex (hexl b) = ⟨.ok, b⟩) ∧
  ∀ ps : List (Byte × Bool × Bool),
    decodeHex (ps.flatMap fun p => [hexDigit p.2.1 (p.1.extractLsb' 4 4), hexDigit p.2.2 (p.1.extractLsb' 0 4)]) =
      ⟨.ok, ps.map (·.1)⟩

/-- 41_b64enc.md section 1: the four characters of a group in terms of its bytes, for the three group sizes. -/
def Obligations.Base64GroupsFromBytes : Prop :=
  ∀ x y z : Byte,
    encGroup [x, y, z] = [alpha (x.extractLsb' 2 6), alpha (x.extractLsb' 0 2 ++ y.extractLsb' 4 4),
      alpha (y.extractLsb' 0 4 ++ z.extractLsb' 6 2), alpha (z.extractLsb' 0 6)] ∧
    encGroup [x, y] = [alpha (x.extractLsb' 2 6), alpha (x.extractLsb' 0 2 ++ y.extractLsb' 4 4),
      alpha (y.extractLsb' 0 4 ++ 0#2), 0x3D#8] ∧
    encGroup [x] = [alpha (x.extractLsb' 2 6), alpha (x.extractLsb' 0 2 ++ 0#4), 0x3D#8, 0x3D#8]

/-- 41_b64enc.md section 3, properties (a), (b), (c): the length, the number of pad characters at the end, and the
character set; a character before the pads is never the pad. -/
def Obligations.Base64LengthAndPadding : Prop :=
  ∀ b : List Byte,
    (encodeBase64 b).status = .ok ∧
    (encodeBase64 b).seq.length = 4 * ((b.length + 2) / 3) ∧
    ∃ data : List Field,
      (encodeBase64 b).seq = data.map alpha ++ List.replicate ((3 - b.length % 3) % 3) 0x3D#8

/-- 41_b64enc.md section 3, property (d), which the spec marks as derived: distinct byte sequences have distinct texts. -/
def Obligations.Base64IsInjective : Prop :=
  ∀ a b : List Byte, encodeBase64 a = encodeBase64 b → a = b

/-- 42_xorc.md section 1: an unequal pair of operands gives the error and no byte; an equal pair gives each byte from the
two bytes at its position alone, bit by bit. -/
def Obligations.XorContract : Prop :=
  ∀ a b : List Byte,
    (a.length ≠ b.length → xorCombine a b = ⟨.lengthMismatchError, []⟩) ∧
    (a.length = b.length → ∃ o, xorCombine a b = ⟨.ok, o⟩ ∧ o.length = a.length ∧
      ∀ (k : Nat) (x y : Byte), a[k]? = some x → b[k]? = some y →
        ∃ z, o[k]? = some z ∧ ∀ i, z.getLsbD i = xor (x.getLsbD i) (y.getLsbD i))

/-- 42_xorc.md section 1, the properties: involution, self-cancellation, commutativity, neutral element. -/
def Obligations.XorProperties : Prop :=
  ∀ a b : List Byte,
    (a.length = b.length → xorCombine (xorCombine a b).seq b = ⟨.ok, a⟩) ∧
    xorCombine a a = ⟨.ok, List.replicate a.length 0#8⟩ ∧
    xorCombine a b = xorCombine b a ∧
    xorCombine a (List.replicate a.length 0#8) = ⟨.ok, a⟩

/-- 60_exceptions.md section 1, the matrix, which the spec marks as derived: exactly when a transaction ends in which
status, and that a result whose status is not `OK` is empty. -/
def Obligations.StatusMatrix : Prop :=
  (∀ t, (decodeHex t).status = .ok ↔ t.length % 2 = 0 ∧ ∀ c ∈ t, nib c ≠ none) ∧
  (∀ t, (decodeHex t).status = .ok ∨ (decodeHex t).status = .decodeError) ∧
  (∀ b, (encodeBase64 b).status = .ok) ∧
  (∀ a b, (xorCombine a b).status = if a.length = b.length then .ok else .lengthMismatchError) ∧
  ∀ tx : Transaction, statusAllowed (encode tx.instr) tx.result.status = true ∧
    (tx.result.status ≠ .ok → tx.result.seq = [])

/-- 30_encoding.md section 2: what the two pseudo-operations bind: the pipeline's result, or the result of the first
transaction whose status is not `OK`. -/
def Obligations.PipelinesStopAtTheFirstError : Prop :=
  (∀ (rs : List Result) (t : List Byte), ∃ ts, (Line.hex2b64 t).issues rs = some ts ∧
    lastResult ts = some (if (decodeHex t).status = .ok then encodeBase64 (decodeHex t).seq else decodeHex t)) ∧
  (∀ (rs : List Result) (t u : List Byte), ∃ ts, (Line.hexxor t u).issues rs = some ts ∧
    lastResult ts = some
      (if (decodeHex t).status ≠ .ok then decodeHex t
      else if (decodeHex u).status ≠ .ok then decodeHex u
      else xorCombine (decodeHex t).seq (decodeHex u).seq))

/-! ## The two levels agree -/

/-- 40_hexdec.md section 3, the refinement, which the spec marks as derived: for both values of `HEX_IMPL`, the command and
the framed beats of any text, whatever the unused lane bits are, lead after exactly that many beat steps to `RESP` with the
result of `decode_hex`. -/
def Obligations.HexdecRefines : Prop :=
  ∀ (s : State) (t : List Byte) (xs : List ABeat) (rest : List PortIn),
    s.block.mode = .idle → s.clean → withinMax s.params.maxLen t.length = true →
    xs.map ABeat.beat = frame (laneWidth s.params.hexImpl 0#2) t →
    s.env.inputs = PortIn.command 0b00#2 :: (xs.map fun x => PortIn.operands (some x) none) ++ rest →
    (∀ k, 1 ≤ k → k ≤ xs.length → ∃ u, reaches k s u ∧ u.block.mode = .run) ∧
    ∃ u, reaches (1 + xs.length) s u ∧ u.block.mode = .resp ∧ u.block.op = 0b00#2 ∧
      u.block.res = decodeHex t ∧ u.block.rp = 0 ∧
      u.env.taken = s.env.taken ∧ u.env.inputs = rest ∧ u.clean ∧ u.params = s.params

/-- 41_b64enc.md section 3, the refinement, which the spec marks as derived. -/
def Obligations.B64encRefines : Prop :=
  ∀ (s : State) (b : List Byte) (xs : List ABeat) (rest : List PortIn),
    s.block.mode = .idle → s.clean → withinMax s.params.maxLen b.length = true →
    xs.map ABeat.beat = frame 1 b →
    s.env.inputs = PortIn.command 0b01#2 :: (xs.map fun x => PortIn.operands (some x) none) ++ rest →
    (∀ k, 1 ≤ k → k ≤ max 1 b.length → ∃ u, reaches k s u ∧ u.block.mode = .run) ∧
    ∃ u, reaches (1 + max 1 b.length) s u ∧ u.block.mode = .resp ∧ u.block.op = 0b01#2 ∧
      u.block.res = encodeBase64 b ∧ u.block.rp = 0 ∧
      u.env.taken = s.env.taken ∧ u.env.inputs = rest ∧ u.clean ∧ u.params = s.params

/-- 42_xorc.md section 3, the refinement, which the spec marks as derived, with its counts of joint and drain steps. -/
def Obligations.XorcRefines : Prop :=
  ∀ (s : State) (a b : List Byte) (xs : List ABeat) (ys : List BBeat) (rest : List PortIn),
    s.block.mode = .idle → s.clean →
    withinMax s.params.maxLen a.length = true → withinMax s.params.maxLen b.length = true →
    xs.map ABeat.beat = frame 1 a → ys.map BBeat.beat = frame 1 b →
    s.env.inputs = PortIn.command 0b10#2 :: lockStep xs ys ++ rest →
    let joints := max 1 (min a.length b.length)
    let drains := max a.length b.length - joints
    (∀ k, 1 ≤ k → k ≤ joints + drains → ∃ u, reaches k s u ∧ u.block.mode = .run) ∧
    ∃ u, reaches (1 + (joints + drains)) s u ∧ u.block.mode = .resp ∧ u.block.op = 0b10#2 ∧
      u.block.res = xorCombine a b ∧ u.block.rp = 0 ∧
      u.env.taken = s.env.taken ∧ u.env.inputs = rest ∧ u.clean ∧ u.params = s.params

/-- 10_state.md section 4, 20_memory.md section 1, 70_reset_and_hazards.md sections 4 and 5: a whole transaction, from any
idle state, with quiet edges between: with any number of edges at which the environment does nothing put between its edges,
the environment takes exactly the frame of the transaction-level result and the block is idle again. Offers made early and
held are in `RunsDeliverTheResultsOfWhatTheyTake`. -/
def Obligations.TransactionDeliversItsResult : Prop :=
  ∀ (s : State) (tx : Transaction) (ins rest : List PortIn),
    s.block.mode = .idle → s.clean → tx.fits s.params.maxLen = true →
    s.env.inputs = ins ++ rest → ins.filter (· ≠ PortIn.quiet) = tx.pins s.params.hexImpl →
    ∃ t, reaches ins.length s t ∧ t.block.mode = .idle ∧ t.block.op = encode tx.instr ∧
      t.env.taken.map RBeat.seen = s.env.taken.map RBeat.seen ++ resultFrame tx.result ∧
      t.env.inputs = rest ∧ t.clean ∧ t.params = s.params

/-- 70_reset_and_hazards.md sections 3 and 4 (sequencing needs no waiting; the environment may offer early and pause) and
20_memory.md section 4: at ANY pace. In every run without reset that begins and ends in `IDLE`, whatever the environment
offers early, holds or delays, the beats taken are the commands and the framed operands of some transactions, one after the
other, and the environment takes the frames of their results, in that order. -/
def Obligations.RunsDeliverTheResultsOfWhatTheyTake : Prop :=
  ∀ (s t : State) (k : Nat),
    s.block.mode = .idle → t.block.mode = .idle → (∀ p ∈ s.env.inputs.take k, p.rst = false) → reaches k s t →
    ∃ txs : List Transaction,
      (trafficOf k s).cmds = txs.map (fun tx => encode tx.instr) ∧
      (trafficOf k s).a = txs.flatMap (Transaction.framesA s.params.hexImpl) ∧
      (trafficOf k s).b = txs.flatMap Transaction.framesB ∧
      t.env.taken.map RBeat.seen = s.env.taken.map RBeat.seen ++ txs.flatMap (fun tx => resultFrame tx.result) ∧
      ∀ tx ∈ txs, tx.fits s.params.maxLen = true

/-- 10_state.md section 6 (statelessness, which the spec marks as derived) and 00_scope.md section 5: two instances with
any histories, any values of `HEX_IMPL` and any quiet edges between show the same beats for the same transaction. -/
def Obligations.ResultsIgnoreHistoryVariantAndPace : Prop :=
  ∀ (s s' : State) (tx : Transaction) (ins ins' rest rest' : List PortIn),
    s.block.mode = .idle → s.clean → s'.block.mode = .idle → s'.clean →
    tx.fits s.params.maxLen = true → tx.fits s'.params.maxLen = true →
    s.env.inputs = ins ++ rest → ins.filter (· ≠ PortIn.quiet) = tx.pins s.params.hexImpl →
    s'.env.inputs = ins' ++ rest' → ins'.filter (· ≠ PortIn.quiet) = tx.pins s'.params.hexImpl →
    ∃ t t' seen, reaches ins.length s t ∧ reaches ins'.length s' t' ∧
      t.env.taken.map RBeat.seen = s.env.taken.map RBeat.seen ++ seen ∧
      t'.env.taken.map RBeat.seen = s'.env.taken.map RBeat.seen ++ seen

/-- 30_encoding.md section 2 and 70_reset_and_hazards.md section 3 (composition by the environment): the transactions a
well-formed script issues, driven one after the other on one instance, deliver their results in order. That there is exactly
one bound result for each line, so that intermediate results of a pseudo-operation are not bound, is the model's choice
(log 21). -/
def Obligations.ScriptsRunOnTheBlock : Prop :=
  ∀ (s : State) (ls : List Line) (txs : List Transaction) (results : List Result) (rest : List PortIn),
    scriptFrom [] ls = some (txs, results) →
    s.block.mode = .idle → s.clean → (∀ tx ∈ txs, tx.fits s.params.maxLen = true) →
    s.env.inputs = (txs.flatMap fun tx => tx.pins s.params.hexImpl) ++ rest →
    ∃ t, reaches (txs.flatMap fun tx => tx.pins s.params.hexImpl).length s t ∧ t.block.mode = .idle ∧
      t.env.taken.map RBeat.seen =
        s.env.taken.map RBeat.seen ++ txs.flatMap (fun tx => resultFrame tx.result) ∧
      t.env.inputs = rest ∧ results.length = ls.length ∧ results.Sublist (txs.map Transaction.result)

/-! ## Invariants -/

/-- 10_state.md section 6 (the reachable-state invariants, which the spec marks as derived): every step keeps them. -/
def Obligations.InvariantIsKept : Prop :=
  ∀ s t : State, s.Inv → step s = .next t → t.Inv

/-- The invariant holds at reset, whatever the parameters; and R44 (a): the mode's code is never 3. -/
def Obligations.InvariantAtReset : Prop :=
  (∀ p : Params, (State.resetWith p).Inv) ∧ State.reset.Inv ∧ ∀ m : Mode, m.code ≠ 3#2

/-- 70_reset_and_hazards.md section 3 (the length bound) and 20_memory.md section 3 (the output lengths): every step keeps
the result buffer in proportion to the elements taken, and the result within the capacity of its operation. -/
def Obligations.LengthInvariantIsKept : Prop :=
  ∀ s t : State, s.LengthInv → step s = .next t → t.LengthInv

/-- The length invariant holds at reset, whatever the parameters. -/
def Obligations.LengthInvariantAtReset : Prop :=
  (∀ p : Params, (State.resetWith p).LengthInv) ∧ State.reset.LengthInv

/-- 00_scope.md section 3: no step writes the parameters of an instance. -/
def Obligations.ParametersAreFixed : Prop :=
  ∀ s t : State, step s = .next t → t.params = s.params

/-! ## Instances -/

/-- 20_memory.md section 4 (instances): edges of two different instances commute. -/
def Obligations.InstancesCommute : Prop :=
  ∀ (sys sys1 sys2 : List State) (j k : Nat), j ≠ k →
    stepInstance sys j = .next sys1 → stepInstance sys1 k = .next sys2 →
    ∃ sys3, stepInstance sys k = .next sys3 ∧ stepInstance sys3 j = .next sys2

/-- 20_memory.md section 4 (instances): in any interleaving each instance runs exactly as it does alone. -/
def Obligations.InterleavingGivesEachInstanceItsOwnRun : Prop :=
  ∀ (sys sys' : List State) (schedule : List Nat) (k : Nat) (s : State),
    runInstances sys schedule = .next sys' → sys[k]? = some s →
    ∃ t, sys'[k]? = some t ∧ reaches (schedule.count k) s t
end

