-- ==== Sys2Proof/Laws/State.lean ====
section
/-! SUPPORT. One lemma per field per update of the registers and of the state, so that no later proof unfolds an update. -/

namespace Sys2Proof.Machine

/-! ## `Append` -/
@[simp] theorem Block.append_mode (b : Block) (vs : List Byte) : (b.append vs).mode = b.mode := rfl
@[simp] theorem Block.append_op (b : Block) (vs : List Byte) : (b.append vs).op = b.op := rfl
@[simp] theorem Block.append_ph (b : Block) (vs : List Byte) : (b.append vs).ph = b.ph := rfl
@[simp] theorem Block.append_hn (b : Block) (vs : List Byte) : (b.append vs).hn = b.hn := rfl
@[simp] theorem Block.append_acc (b : Block) (vs : List Byte) : (b.append vs).acc = b.acc := rfl
@[simp] theorem Block.append_gc (b : Block) (vs : List Byte) : (b.append vs).gc = b.gc := rfl
@[simp] theorem Block.append_err (b : Block) (vs : List Byte) : (b.append vs).err = b.err := rfl
@[simp] theorem Block.append_out (b : Block) (vs : List Byte) : (b.append vs).out = b.out ++ vs := rfl
@[simp] theorem Block.append_adone (b : Block) (vs : List Byte) : (b.append vs).adone = b.adone := rfl
@[simp] theorem Block.append_bdone (b : Block) (vs : List Byte) : (b.append vs).bdone = b.bdone := rfl
@[simp] theorem Block.append_res (b : Block) (vs : List Byte) : (b.append vs).res = b.res := rfl
@[simp] theorem Block.append_rp (b : Block) (vs : List Byte) : (b.append vs).rp = b.rp := rfl

/-! ## `Finish` -/

@[simp] theorem Block.finish_mode (b : Block) (st : Status) : (b.finish st).mode = .resp := rfl
@[simp] theorem Block.finish_op (b : Block) (st : Status) : (b.finish st).op = b.op := rfl
@[simp] theorem Block.finish_ph (b : Block) (st : Status) : (b.finish st).ph = b.ph := rfl
@[simp] theorem Block.finish_hn (b : Block) (st : Status) : (b.finish st).hn = b.hn := rfl
@[simp] theorem Block.finish_acc (b : Block) (st : Status) : (b.finish st).acc = b.acc := rfl
@[simp] theorem Block.finish_gc (b : Block) (st : Status) : (b.finish st).gc = b.gc := rfl
@[simp] theorem Block.finish_err (b : Block) (st : Status) : (b.finish st).err = b.err := rfl
@[simp] theorem Block.finish_out (b : Block) (st : Status) : (b.finish st).out = b.out := rfl
@[simp] theorem Block.finish_adone (b : Block) (st : Status) : (b.finish st).adone = b.adone := rfl
@[simp] theorem Block.finish_bdone (b : Block) (st : Status) : (b.finish st).bdone = b.bdone := rfl
@[simp] theorem Block.finish_res (b : Block) (st : Status) : (b.finish st).res = ⟨st, if st = .ok then b.out else []⟩ := rfl
@[simp] theorem Block.finish_rp (b : Block) (st : Status) : (b.finish st).rp = 0 := rfl

/-! ## Command acceptance -/

@[simp] theorem Block.accept_mode (b : Block) (c : Code) :
    (b.accept c).mode = if c = 3#2 then .resp else .run := by
  unfold Block.accept; split <;> rfl

@[simp] theorem Block.accept_op (b : Block) (c : Code) :
    (b.accept c).op = c := by
  unfold Block.accept; split <;> rfl

@[simp] theorem Block.accept_ph (b : Block) (c : Code) :
    (b.accept c).ph = false := by
  unfold Block.accept; split <;> rfl

@[simp] theorem Block.accept_hn (b : Block) (c : Code) :
    (b.accept c).hn = b.hn := by
  unfold Block.accept; split <;> rfl

@[simp] theorem Block.accept_acc (b : Block) (c : Code) :
    (b.accept c).acc = 0#24 := by
  unfold Block.accept; split <;> rfl

@[simp] theorem Block.accept_gc (b : Block) (c : Code) :
    (b.accept c).gc = 0#2 := by
  unfold Block.accept; split <;> rfl

@[simp] theorem Block.accept_err (b : Block) (c : Code) :
    (b.accept c).err = false := by
  unfold Block.accept; split <;> rfl

@[simp] theorem Block.accept_out (b : Block) (c : Code) :
    (b.accept c).out = [] := by
  unfold Block.accept; split <;> rfl

@[simp] theorem Block.accept_adone (b : Block) (c : Code) :
    (b.accept c).adone = false := by
  unfold Block.accept; split <;> rfl

@[simp] theorem Block.accept_bdone (b : Block) (c : Code) :
    (b.accept c).bdone = false := by
  unfold Block.accept; split <;> rfl

@[simp] theorem Block.accept_res (b : Block) (c : Code) :
    (b.accept c).res = if c = 3#2 then ⟨.illegalOp, []⟩ else b.res := by
  unfold Block.accept; split <;> rfl

@[simp] theorem Block.accept_rp (b : Block) (c : Code) :
    (b.accept c).rp = if c = 3#2 then 0 else b.rp := by
  unfold Block.accept; split <;> rfl

@[simp] theorem State.accept_block (s : State) (c : Code) : (s.accept c).block = s.block.accept c := rfl
@[simp] theorem State.accept_env (s : State) (c : Code) : (s.accept c).env = s.env := rfl
@[simp] theorem State.accept_nA (s : State) (c : Code) : (s.accept c).nA = 0 := rfl
@[simp] theorem State.accept_nB (s : State) (c : Code) : (s.accept c).nB = 0 := rfl
@[simp] theorem State.accept_free (s : State) (c : Code) : (s.accept c).free = s.free := rfl
@[simp] theorem State.accept_params (s : State) (c : Code) : (s.accept c).params = s.params := rfl

/-! ## Reset -/

@[simp] theorem Block.reset_mode : Block.reset.mode = .idle := rfl
@[simp] theorem Block.reset_op : Block.reset.op = 0#2 := rfl
@[simp] theorem Block.reset_ph : Block.reset.ph = false := rfl
@[simp] theorem Block.reset_hn : Block.reset.hn = 0#4 := rfl
@[simp] theorem Block.reset_acc : Block.reset.acc = 0#24 := rfl
@[simp] theorem Block.reset_gc : Block.reset.gc = 0#2 := rfl
@[simp] theorem Block.reset_err : Block.reset.err = false := rfl
@[simp] theorem Block.reset_out : Block.reset.out = [] := rfl
@[simp] theorem Block.reset_adone : Block.reset.adone = false := rfl
@[simp] theorem Block.reset_bdone : Block.reset.bdone = false := rfl
@[simp] theorem Block.reset_res : Block.reset.res = ⟨.ok, []⟩ := rfl
@[simp] theorem Block.reset_rp : Block.reset.rp = 0 := rfl

@[simp] theorem resetEdge_block (s : State) : (resetEdge s).block = Block.reset := rfl
@[simp] theorem resetEdge_nA (s : State) : (resetEdge s).nA = 0 := rfl
@[simp] theorem resetEdge_nB (s : State) : (resetEdge s).nB = 0 := rfl
@[simp] theorem resetEdge_free (s : State) : (resetEdge s).free = s.free := rfl
@[simp] theorem resetEdge_params (s : State) : (resetEdge s).params = s.params := rfl
@[simp] theorem resetEdge_inputs (s : State) : (resetEdge s).env.inputs = s.env.inputs.tail := rfl
@[simp] theorem resetEdge_held (s : State) : (resetEdge s).env.held = Offers.silent := rfl
@[simp] theorem resetEdge_stale (s : State) : (resetEdge s).env.stale = s.staleOffers := rfl
@[simp] theorem resetEdge_taken (s : State) : (resetEdge s).env.taken = s.env.taken := rfl
@[simp] theorem State.resetWith_block (p : Params) : (State.resetWith p).block = Block.reset := rfl
@[simp] theorem State.resetWith_params (p : Params) : (State.resetWith p).params = p := rfl
@[simp] theorem State.resetWith_nA (p : Params) : (State.resetWith p).nA = 0 := rfl
@[simp] theorem State.resetWith_nB (p : Params) : (State.resetWith p).nB = 0 := rfl

/-! ## Wires -/

@[simp] theorem ABeat.wired_cnt (h : HexImpl) (b : ABeat) : (b.wired h).cnt = b.cnt := rfl
@[simp] theorem ABeat.wired_last (h : HexImpl) (b : ABeat) : (b.wired h).last = b.last := rfl
@[simp] theorem Offers.wired_cmd (h : HexImpl) (o : Offers) : (o.wired h).cmd = o.cmd := rfl
@[simp] theorem Offers.wired_a (h : HexImpl) (o : Offers) : (o.wired h).a = o.a.map (ABeat.wired h) := rfl
@[simp] theorem Offers.wired_b (h : HexImpl) (o : Offers) : (o.wired h).b = o.b := rfl
@[simp] theorem Offers.wired_silent (h : HexImpl) : Offers.silent.wired h = Offers.silent := rfl

/-! ## The end of an edge -/

@[simp] theorem finishEdge_block (s t : State) : (finishEdge s t).block = t.block := rfl
@[simp] theorem finishEdge_nA (s t : State) : (finishEdge s t).nA = t.nA := rfl
@[simp] theorem finishEdge_nB (s t : State) : (finishEdge s t).nB = t.nB := rfl
@[simp] theorem finishEdge_free (s t : State) : (finishEdge s t).free = t.free := rfl
@[simp] theorem finishEdge_params (s t : State) : (finishEdge s t).params = t.params := rfl
@[simp] theorem finishEdge_inputs (s t : State) : (finishEdge s t).env.inputs = s.env.inputs.tail := rfl
@[simp] theorem finishEdge_held (s t : State) : (finishEdge s t).env.held = s.untaken := rfl
@[simp] theorem finishEdge_stale (s t : State) : (finishEdge s t).env.stale = Offers.silent := rfl
@[simp] theorem finishEdge_taken (s t : State) : (finishEdge s t).env.taken = t.env.taken := rfl

end Sys2Proof.Machine
end

