-- ==== Sys2Proof/Laws/Ops.lean ====
section
/-! SUPPORT. What each shared operation can do, said once. -/

namespace Sys2Proof.Machine

/-! ## Ports -/

theorem pins_cons {s : State} {p : PortIn} {ps : List PortIn} (h : s.env.inputs = p :: ps) :
    s.pins = { p with offers := p.offers.wired s.params.hexImpl } := by
  simp [State.pins, Env.drive, h]

/-- The ports look only at the environment and at the variant. -/
theorem pins_congr {s t : State} (h : t.env = s.env) (hp : t.params = s.params) : t.pins = s.pins := by
  simp [State.pins, h, hp]

theorem takenA_congr {s t : State} (he : t.env = s.env) (hp : t.params = s.params) (hb : t.block = s.block) :
    t.takenA = s.takenA := by
  simp [State.takenA, pins_congr he hp, hb]

theorem takenB_congr {s t : State} (he : t.env = s.env) (hp : t.params = s.params) (hb : t.block = s.block) :
    t.takenB = s.takenB := by
  simp [State.takenB, pins_congr he hp, hb]

/-! ## Wires (20_memory.md R54) -/

/-- Under PARALLEL every bit of `a_data` is a wire. -/
@[simp] theorem ABeat.wired_parallel (b : ABeat) : b.wired .parallel = b := by
  simp [ABeat.wired, dataWidthA, lanesA]

/-- Under PIPELINED the lower lane is what it was and the upper one reads 0. -/
@[simp] theorem ABeat.wired_lane0 (h : HexImpl) (b : ABeat) : (b.wired h).lane0 = b.lane0 := by
  cases h
  · simp
  · simp only [ABeat.wired, ABeat.lane0, dataWidthA, lanesA]
    apply BitVec.eq_of_getLsbD_eq
    intro i hi
    simp [hi]
    omega

@[simp] theorem ABeat.wired_lane1_pipelined (b : ABeat) : (b.wired .pipelined).lane1 = 0#8 := by
  simp only [ABeat.wired, ABeat.lane1, dataWidthA, lanesA]
  apply BitVec.eq_of_getLsbD_eq
  intro i hi
  simp

/-- A beat within the lanes of the variant loses nothing on its wires. -/
theorem ABeat.wired_beat {h : HexImpl} {b : ABeat} (hc : countFits h b.cnt.toNat = true) :
    (b.wired h).beat = b.beat := by
  cases h with
  | parallel => simp
  | pipelined =>
    have hc' : b.cnt.toNat ≤ 1 := of_decide_eq_true hc
    rcases Nat.le_one_iff_eq_zero_or_eq_one.mp hc' with h | h <;> simp [ABeat.beat, h]

/-- The wired beat depends only on what the rules see of the beat. -/
theorem ABeat.wired_beat_congr (h : HexImpl) {a b : ABeat} (hb : a.beat = b.beat) :
    (a.wired h).beat = (b.wired h).beat := by
  cases h with
  | parallel => simpa using hb
  | pipelined =>
    simp only [ABeat.beat, Beat.mk.injEq] at hb ⊢
    obtain ⟨hc, hl, ht⟩ := hb
    refine ⟨hc, ?_, ht⟩
    simp only [wired_cnt, wired_lane0, wired_lane1_pipelined, hc] at hl ⊢
    generalize b.cnt.toNat = n at hl
    match n with
    | 0 => rfl
    | 1 => simpa using hl
    | k + 2 => simpa using (List.cons.inj hl).1

/-- Wiring twice is wiring once. -/
@[simp] theorem ABeat.wired_wired (h : HexImpl) (b : ABeat) : (b.wired h).wired h = b.wired h := by
  cases h
  · simp
  · simp [ABeat.wired, dataWidthA, lanesA]

@[simp] theorem Offers.wired_wired (h : HexImpl) (o : Offers) : (o.wired h).wired h = o.wired h := by
  cases o with
  | mk c a b => cases a <;> simp [Offers.wired]

/-- What is on the ports has only bits the ports have. -/
@[simp] theorem pins_wired (s : State) : s.pins.offers.wired s.params.hexImpl = s.pins.offers := by
  simp [State.pins]

theorem pins_wired_a (s : State) : s.pins.offers.a.map (ABeat.wired s.params.hexImpl) = s.pins.offers.a :=
  congrArg Offers.a (pins_wired s)

/-- What an edge leaves held has only bits the ports have. -/
@[simp] theorem untaken_wired (s : State) : s.untaken.wired s.params.hexImpl = s.untaken := by
  simp only [Offers.wired, State.untaken, Offers.mk.injEq, true_and, and_true]
  split <;> simp [pins_wired_a]

/-- What a reset edge leaves stale has only bits the ports have. -/
@[simp] theorem staleOffers_wired (s : State) : s.staleOffers.wired s.params.hexImpl = s.staleOffers := by
  simp only [Offers.wired, State.staleOffers, Offers.mk.injEq, true_and, and_true]
  split <;> simp [pins_wired_a]

/-! ## Which channels an edge can take from -/

theorem takenCmd_ne_none {s : State} (h : s.takenCmd ≠ none) : s.block.mode = .idle := by
  simp only [State.takenCmd, cmdReady] at h
  by_contra hm
  simp [hm] at h

theorem takenR_ne_none {s : State} (h : s.takenR ≠ none) : s.block.mode = .resp := by
  simp only [State.takenR, rValid] at h
  by_contra hm
  simp [hm] at h

theorem takenA_eq_none_of_mode {s : State} (h : s.block.mode ≠ .run) : s.takenA = none := by
  simp [State.takenA, aReady, solo, joint, runXorc, h]

theorem takenB_eq_none_of_mode {s : State} (h : s.block.mode ≠ .run) : s.takenB = none := by
  simp [State.takenB, bReady, joint, runXorc, h]

/-- HEXDEC and B64ENC take whatever is offered on stream A (20_memory.md R55). -/
theorem takenA_solo {s : State} (hr : s.pins.rst = false) (h : solo s.block = true) : s.takenA = s.pins.offers.a := by
  simp [State.takenA, aReady, h, hr]

/-- HEXDEC and B64ENC never take from stream B (R55). -/
theorem takenB_solo {s : State} (h : solo s.block = true) : s.takenB = none := by
  simp only [solo, Bool.and_eq_true, beq_iff_eq, Bool.or_eq_true] at h
  rcases h with ⟨-, h | h⟩ <;> simp [State.takenB, bReady, joint, runXorc, h]

theorem solo_of_op {b : Block} (hm : b.mode = .run) (h : b.op = 0#2 ∨ b.op = 1#2) : solo b = true := by
  rcases h with h | h <;> simp [solo, hm, h]

/-- In the joint phase both streams are taken or neither (R55, lock step). -/
theorem taken_joint {s : State} (hr : s.pins.rst = false) (h : joint s.block = true) :
    s.takenA = (if s.pins.offers.b.isSome then s.pins.offers.a else none) ∧
    s.takenB = (if s.pins.offers.a.isSome then s.pins.offers.b else none) := by
  simp only [joint, Bool.and_eq_true, Bool.not_eq_true', runXorc, beq_iff_eq] at h
  obtain ⟨⟨⟨hm, ho⟩, ha⟩, hb⟩ := h
  simp [State.takenA, State.takenB, aReady, bReady, solo, joint, runXorc, hr, hm, ho, ha, hb]

/-- At a reset edge nothing is taken on any channel (R53). -/
theorem taken_reset {s : State} (hr : s.pins.rst = true) :
    s.takenCmd = none ∧ s.takenA = none ∧ s.takenB = none ∧ s.takenR = none := by
  simp [State.takenCmd, State.takenA, State.takenB, State.takenR, hr]

/-- In the drain of stream A that stream is taken alone (R55, 42_xorc.md R147). -/
theorem taken_drainA {s : State} (hr : s.pins.rst = false) (hm : s.block.mode = .run) (ho : s.block.op = 2#2) (ha : s.block.adone = false)
    (hb : s.block.bdone = true) : s.takenA = s.pins.offers.a ∧ s.takenB = none := by
  simp [State.takenA, State.takenB, aReady, bReady, solo, joint, runXorc, hr, hm, ho, ha, hb]

/-- In the drain of stream B that stream is taken alone. -/
theorem taken_drainB {s : State} (hr : s.pins.rst = false) (hm : s.block.mode = .run) (ho : s.block.op = 2#2) (ha : s.block.adone = true)
    (hb : s.block.bdone = false) : s.takenA = none ∧ s.takenB = s.pins.offers.b := by
  simp [State.takenA, State.takenB, aReady, bReady, solo, joint, runXorc, hr, hm, ho, ha, hb]

/-! ## Taking operand beats -/

theorem takeA_none {w : Nat} {s : State} {k : Beat → State → Answer} (h : s.takenA = none) : takeA w s k = .next s := by
  simp [takeA, h]

theorem takeA_some {w : Nat} {s : State} {k : Beat → State → Answer} {a : ABeat} (h : s.takenA = some a)
    (hp : beatProblem .illFramedA s.params.maxLen w s.nA a.beat = none) :
    takeA w s k = k a.beat { s with nA := s.nA + a.beat.cnt } := by
  simp [takeA, h, hp]

theorem takeA_problem {w : Nat} {s : State} {k : Beat → State → Answer} {a : ABeat} {r : Refusal}
    (h : s.takenA = some a) (hp : beatProblem .illFramedA s.params.maxLen w s.nA a.beat = some r) :
    takeA w s k = .refused r := by
  simp [takeA, h, hp]

theorem takeB_none {s : State} {k : Beat → State → Answer} (h : s.takenB = none) : takeB s k = .next s := by
  simp [takeB, h]

theorem takeB_some {s : State} {k : Beat → State → Answer} {b : BBeat} (h : s.takenB = some b)
    (hp : beatProblem .illFramedB s.params.maxLen 1 s.nB b.beat = none) :
    takeB s k = k b.beat { s with nB := s.nB + b.beat.cnt } := by
  simp [takeB, h, hp]

theorem takeB_problem {s : State} {k : Beat → State → Answer} {b : BBeat} {r : Refusal}
    (h : s.takenB = some b) (hp : beatProblem .illFramedB s.params.maxLen 1 s.nB b.beat = some r) :
    takeB s k = .refused r := by
  simp [takeB, h, hp]

/-- Everything `takeA` can answer as a next state. -/
theorem takeA_next {w : Nat} {s t : State} {k : Beat → State → Answer} (h : takeA w s k = .next t) :
    (s.takenA = none ∧ t = s) ∨
    ∃ a, s.takenA = some a ∧ beatProblem .illFramedA s.params.maxLen w s.nA a.beat = none ∧
      k a.beat { s with nA := s.nA + a.beat.cnt } = .next t := by
  unfold takeA at h
  split at h
  · exact .inl ⟨‹_›, by simpa using h.symm⟩
  · split at h
    · cases h
    · exact .inr ⟨_, ‹_›, ‹_›, h⟩

/-- Everything `takeB` can answer as a next state. -/
theorem takeB_next {s t : State} {k : Beat → State → Answer} (h : takeB s k = .next t) :
    (s.takenB = none ∧ t = s) ∨
    ∃ b, s.takenB = some b ∧ beatProblem .illFramedB s.params.maxLen 1 s.nB b.beat = none ∧
      k b.beat { s with nB := s.nB + b.beat.cnt } = .next t := by
  unfold takeB at h
  split at h
  · exact .inl ⟨‹_›, by simpa using h.symm⟩
  · split at h
    · cases h
    · exact .inr ⟨_, ‹_›, ‹_›, h⟩

/-- When a beat may be taken, in the words of the rules (70_reset_and_hazards.md R196, R199). -/
theorem beatProblem_eq_none {ill : Refusal} {m : Option Nat} {w n : Nat} {b : Beat} :
    beatProblem ill m w n b = none ↔ framingOk w n b = true ∧ withinMax m (n + b.cnt) = true := by
  unfold beatProblem
  split <;> [simp_all; (split <;> simp_all)]

theorem framingOk_iff {w n : Nat} {b : Beat} :
    framingOk w n b = true ↔
      b.cnt ≤ w ∧ (b.cnt = 0 → b.last = true ∧ n = 0) ∧ (b.last = false → b.cnt = w) := by
  by_cases h0 : b.cnt = 0 <;> by_cases hl : b.last <;> simp [framingOk, h0, hl]

/-! ## Beats -/

@[simp] theorem ABeat.beat_cnt (a : ABeat) : a.beat.cnt = a.cnt.toNat := rfl
@[simp] theorem ABeat.beat_last (a : ABeat) : a.beat.last = a.last := rfl
@[simp] theorem BBeat.beat_cnt (b : BBeat) : b.beat.cnt = b.cnt.toNat := rfl
@[simp] theorem BBeat.beat_last (b : BBeat) : b.beat.last = b.last := rfl

theorem ABeat.beat_lane_zero {a : ABeat} (h : a.cnt = 0#2) : a.beat.lane = [] := by simp [ABeat.beat, h]
theorem ABeat.beat_lane_one {a : ABeat} (h : a.cnt = 1#2) : a.beat.lane = [a.lane0] := by simp [ABeat.beat, h]
theorem ABeat.beat_lane_two {a : ABeat} (h : a.cnt = 2#2) : a.beat.lane = [a.lane0, a.lane1] := by simp [ABeat.beat, h]
theorem BBeat.beat_lane_zero {b : BBeat} (h : b.cnt = 0#1) : b.beat.lane = [] := by simp [BBeat.beat, h]
theorem BBeat.beat_lane_one {b : BBeat} (h : b.cnt = 1#1) : b.beat.lane = [b.data] := by simp [BBeat.beat, h]

/-! ## The phases -/

theorem runOperation_idle {c : Code} {f : State → Answer} {s : State} (h : s.block.mode = .idle) :
    runOperation c f s = .next (s.accept c) := by
  simp [runOperation, h]

theorem runOperation_run {c : Code} {f : State → Answer} {s : State} (h : s.block.mode = .run) :
    runOperation c f s = if s.block.op = c then f s else .next s := by
  simp [runOperation, h]

theorem runOperation_resp {c : Code} {f : State → Answer} {s : State} (h : s.block.mode = .resp) :
    runOperation c f s = .next s.deliver := by
  simp [runOperation, h]

/-- Every command is accepted in `IDLE` (10_state.md R34). -/
theorem exec_idle (i : Instr) {s : State} (h : s.block.mode = .idle) : exec i s = .next (s.accept (encode i)) := by
  cases i <;> simp only [exec, execHexdec, execB64enc, execXorc, execIllegal, encode, runOperation_idle h]

/-- In `RESP` every operation delivers its result (10_state.md R36). -/
theorem exec_resp (i : Instr) {s : State} (h : s.block.mode = .resp) : exec i s = .next s.deliver := by
  cases i <;> simp only [exec, execHexdec, execB64enc, execXorc, execIllegal, runOperation_resp h]

theorem exec_hexdec_run {s : State} (hm : s.block.mode = .run) (ho : s.block.op = 0#2) :
    exec .hexdec s =
      takeA (laneWidth s.params.hexImpl 0#2) s fun beat t => .next (hexdecStep beat t) := by
  simp only [exec, execHexdec]
  rw [runOperation_run hm, if_pos ho]

theorem exec_b64enc_run {s : State} (hm : s.block.mode = .run) (ho : s.block.op = 1#2) :
    exec .b64enc s = takeA (laneWidth s.params.hexImpl 1#2) s b64encStep := by
  simp only [exec, execB64enc]
  rw [runOperation_run hm, if_pos ho]

theorem exec_xorc_run {s : State} (hm : s.block.mode = .run) (ho : s.block.op = 2#2) :
    exec .xorc s = xorcStep s := by
  simp only [exec, execXorc]
  rw [runOperation_run hm, if_pos ho]

theorem exec_illegal_run {s : State} (hm : s.block.mode = .run) : exec .illegal s = .next s := by
  simp only [exec, execIllegal]
  rw [runOperation_run hm]; split <;> rfl

/-- In `RUN` an edge that takes no operand beat leaves every operation where it is (20_memory.md R53). -/
theorem exec_waits (i : Instr) {s : State} (hm : s.block.mode = .run) (hA : s.takenA = none) (hB : s.takenB = none) :
    exec i s = .next s := by
  cases i with
  | hexdec =>
    simp only [exec, execHexdec, runOperation_run hm]
    split
    · exact takeA_none hA
    · rfl
  | b64enc =>
    simp only [exec, execB64enc, runOperation_run hm]
    split
    · exact takeA_none hA
    · rfl
  | xorc =>
    simp only [exec, execXorc, runOperation_run hm]
    split
    · unfold xorcStep
      split
      · simp [xorcJointStep, hB]
      · exact takeA_none hA
      · exact takeB_none hB
      · rfl
    · rfl
  | illegal => exact exec_illegal_run hm

/-! ## Lanes -/

@[simp] theorem laneWidth_b64enc (h : HexImpl) : laneWidth h 1#2 = 1 := by cases h <;> rfl
@[simp] theorem laneWidth_xorc (h : HexImpl) : laneWidth h 2#2 = 1 := by cases h <;> rfl
@[simp] theorem laneWidth_pipelined (op : Code) : laneWidth .pipelined op = 1 := rfl
@[simp] theorem laneWidth_parallel_hexdec : laneWidth .parallel 0#2 = 2 := rfl

/-! ## Delivery -/

theorem deliver_not_taken {s : State} (h : s.takenR = none) : s.deliver = s := by simp [State.deliver, h]

theorem deliver_taken {s : State} {r : RBeat} (h : s.takenR = some r) :
    s.deliver = { s with
      block := if r.last then { s.block with mode := .idle } else { s.block with rp := s.block.rp + 1 }
      env := { s.env with taken := s.env.taken ++ [r] }
      free := if s.block.rp < s.block.res.seq.length then s.free else s.free + 1 } := by
  simp [State.deliver, h]

theorem takenR_resp {s : State} (hr : s.pins.rst = false) (h : s.block.mode = .resp) :
    s.takenR = if s.pins.rReady then some s.resultBeat else none := by
  simp [State.takenR, rValid, hr, h]

/-! ## The edge -/

@[simp] theorem closeEdge_next (s t : State) : closeEdge s (.next t) = .next (finishEdge s t) := rfl
@[simp] theorem closeEdge_fault (s : State) (f : Fault) : closeEdge s (.fault f) = .fault f := rfl
@[simp] theorem closeEdge_refused (s : State) (r : Refusal) : closeEdge s (.refused r) = .refused r := rfl

theorem closeEdge_eq_next {s t : State} {x : Answer} (h : closeEdge s x = .next t) :
    ∃ u, x = .next u ∧ t = finishEdge s u := by
  cases x with
  | next u => exact ⟨u, rfl, by simpa using h.symm⟩
  | fault f => cases h
  | refused r => cases h

/-- Everything a step can answer as a next state: a reset edge, an edge on which nothing is due, or the edge of the
instruction that is due. -/
theorem step_next {s t : State} (h : step s = .next t) :
    s.portProblem = none ∧
    ((s.pins.rst = true ∧ t = resetEdge s) ∨
     (s.pins.rst = false ∧ s.dueCommand = none ∧ t = finishEdge s s) ∨
     ∃ c u, s.pins.rst = false ∧ s.dueCommand = some c ∧ exec (decode c) s = .next u ∧ t = finishEdge s u) := by
  unfold step at h
  split at h
  · cases h
  · refine ⟨‹_›, ?_⟩
    split at h
    · exact .inl ⟨‹_›, by simpa using h.symm⟩
    · have hr : s.pins.rst = false := by simpa using ‹¬ s.pins.rst = true›
      split at h
      · exact .inr (.inl ⟨hr, ‹_›, by simpa using h.symm⟩)
      · obtain ⟨u, hu, ht⟩ := closeEdge_eq_next h
        exact .inr (.inr ⟨_, u, hr, ‹_›, hu, ht⟩)

/-- In `RUN` and `RESP` the instruction that is due is the one of the open transaction (10_state.md R25). -/
theorem dueCommand_open {s : State} (h : s.block.mode ≠ .idle) : s.dueCommand = some s.block.op := by
  unfold State.dueCommand
  cases hm : s.block.mode <;> simp_all

theorem dueCommand_idle {s : State} (hr : s.pins.rst = false) (h : s.block.mode = .idle) : s.dueCommand = s.pins.offers.cmd := by
  simp [State.dueCommand, hr, h, State.takenCmd, cmdReady]

theorem decode_encode (i : Instr) : decode (encode i) = i := by cases i <;> rfl

theorem encode_decode (c : Code) : encode (decode c) = c := by revert c; decide

/-! ## Runs -/

theorem reaches_zero (s : State) : reaches 0 s s := rfl

theorem reaches_succ {k : Nat} {s t u : State} (h : step s = .next t) (h' : reaches k t u) : reaches (k + 1) s u := by
  simp only [reaches, runSteps, h]
  exact h'

theorem reaches_succ_inv {k : Nat} {s u : State} (h : reaches (k + 1) s u) : ∃ t, step s = .next t ∧ reaches k t u := by
  simp only [reaches, runSteps] at h
  split at h
  · exact ⟨_, ‹_›, h⟩
  · cases h
  · cases h

/-- `runSteps` is the host's run of the machine. -/
theorem core_run_eq_runSteps (k : Nat) (s : State) : Sys2Proof.core.run k s = runSteps k s := by
  have hz (M : Host.Core) (s : M.State) : M.run 0 s = .next s := rfl
  have hn (M : Host.Core) (k : Nat) {s t : M.State} (h : M.step s = .next t) : M.run (k + 1) s = M.run k t := by
    simp [Host.Core.run, h]
  have hf (M : Host.Core) (k : Nat) {s : M.State} {f : M.Fault} (h : M.step s = .fault f) :
      M.run (k + 1) s = .fault f := by simp [Host.Core.run, h]
  have hr (M : Host.Core) (k : Nat) {s : M.State} {r : M.Refusal} (h : M.step s = .refused r) :
      M.run (k + 1) s = .refused r := by simp [Host.Core.run, h]
  induction k generalizing s with
  | zero => exact hz Sys2Proof.core s
  | succ k ih =>
    cases hs : step s with
    | next t =>
      simp only [runSteps, hs]
      exact (hn Sys2Proof.core k hs).trans (ih t)
    | fault f =>
      simp only [runSteps, hs]
      exact hf Sys2Proof.core k hs
    | refused r =>
      simp only [runSteps, hs]
      exact hr Sys2Proof.core k hs

theorem reaches_add {j k : Nat} {s t u : State} (h : reaches j s t) (h' : reaches k t u) : reaches (j + k) s u := by
  induction j generalizing s with
  | zero =>
    cases h
    simpa using h'
  | succ j ih =>
    obtain ⟨v, hv, hr⟩ := reaches_succ_inv h
    rw [Nat.add_right_comm]
    exact reaches_succ hv (ih hr)

end Sys2Proof.Machine
end

