-- ==== Sys2Proof/Laws/Framing.lean ====
section
/-! SUPPORT. Framing (20_memory.md R52) beat by beat, and beats on the ports. -/

namespace Sys2Proof.Machine

@[simp] theorem frame_nil (w : Nat) : frame w [] = [⟨0, [], true⟩] := rfl

/-- A sequence that fills one beat and goes on: the beat, then the frame of the rest. -/
theorem frame_append {w : Nat} (hw : 0 < w) {s t : List Byte} (hs : s.length = w) (ht : t ≠ []) :
    frame w (s ++ t) = ⟨w, s, false⟩ :: frame w t := by
  have htl : 0 < t.length := List.length_pos_iff.mpr ht
  have hk : (w + t.length + w - 1) / w = (t.length + w - 1) / w + 1 := by
    rw [show w + t.length + w - 1 = (t.length + w - 1) + w by omega, Nat.add_div_right _ hw]
  have hk0 : 0 < (t.length + w - 1) / w := Nat.div_pos (by omega) hw
  have hne : ¬ (w + t.length = 0) := by omega
  have hne' : ¬ (t.length = 0) := by omega
  simp only [frame, List.length_append, hs, hne, hne', if_false, hk, List.range_succ_eq_map, List.map_cons, List.map_map]
  congr 1
  · simp only [Nat.zero_mul, List.drop_zero, List.take_left' hs, hs]
    congr 1
    simp only [beq_eq_false_iff_ne, ne_eq]
    omega
  · apply List.map_congr_left
    intro j _
    simp only [Function.comp, Nat.succ_mul, Nat.succ_eq_add_one]
    have hd : (s ++ t).drop (j * w + w) = t.drop (j * w) := by
      rw [show j * w + w = s.length + j * w by omega, ← List.drop_drop]
      simp
    rw [hd]
    congr 1
    rw [Bool.eq_iff_iff]
    simp

/-- A sequence that fits in one beat. -/
theorem frame_one_beat {w : Nat} {s : List Byte} (h0 : s ≠ []) (hs : s.length ≤ w) :
    frame w s = [⟨s.length, s, true⟩] := by
  have hl : 0 < s.length := List.length_pos_iff.mpr h0
  have hk : (s.length + w - 1) / w = 1 := by
    apply Nat.div_eq_of_lt_le <;> omega
  have hne : ¬ (s.length = 0) := by omega
  simp [frame, hne, hk, List.range_succ_eq_map, List.take_of_length_le hs, hs]

theorem frame_one_last (x : Byte) : frame 1 [x] = [⟨1, [x], true⟩] := frame_one_beat (by simp) (by simp)

theorem frame_one_more (x y : Byte) (r : List Byte) : frame 1 (x :: y :: r) = ⟨1, [x], false⟩ :: frame 1 (y :: r) :=
  frame_append (s := [x]) (t := y :: r) (by omega) rfl (by simp)

theorem frame_two_half (x : Byte) : frame 2 [x] = [⟨1, [x], true⟩] := frame_one_beat (by simp) (by simp)

theorem frame_two_last (x y : Byte) : frame 2 [x, y] = [⟨2, [x, y], true⟩] := frame_one_beat (by simp) (by simp)

theorem frame_two_more (x y z : Byte) (r : List Byte) :
    frame 2 (x :: y :: z :: r) = ⟨2, [x, y], false⟩ :: frame 2 (z :: r) :=
  frame_append (s := [x, y]) (t := z :: r) (by omega) rfl (by simp)

theorem frame_one_length (s : List Byte) : (frame 1 s).length = max 1 s.length := by
  cases s with
  | nil => rfl
  | cons x r => simp [frame]

theorem extract_low (y x : Byte) : (y ++ x).extractLsb' 0 8 = x := by
  apply BitVec.eq_of_getLsbD_eq
  intro i hi
  rw [BitVec.getLsbD_extractLsb', BitVec.getLsbD_append]
  simp [hi]

theorem extract_high (y x : Byte) : (y ++ x).extractLsb' 8 8 = y := by
  apply BitVec.eq_of_getLsbD_eq
  intro i hi
  rw [BitVec.getLsbD_extractLsb', BitVec.getLsbD_append]
  simp [hi]

/-- A beat of at most two elements survives the ports of stream A, whatever the unused lane bits are (R51, R89). -/
theorem beat_onA_nil (l : Bool) (junk : BitVec 16) : (Beat.onA ⟨0, [], l⟩ junk).beat = ⟨0, [], l⟩ := by
  simp [Beat.onA, ABeat.beat]

theorem beat_onA_one (x : Byte) (l : Bool) (junk : BitVec 16) : (Beat.onA ⟨1, [x], l⟩ junk).beat = ⟨1, [x], l⟩ := by
  simp [Beat.onA, ABeat.beat, ABeat.lane0, extract_low]

theorem beat_onA_two (x y : Byte) (l : Bool) (junk : BitVec 16) :
    (Beat.onA ⟨2, [x, y], l⟩ junk).beat = ⟨2, [x, y], l⟩ := by
  simp [Beat.onA, ABeat.beat, ABeat.lane0, ABeat.lane1, extract_low, extract_high]

theorem beat_onB_nil (l : Bool) (junk : Byte) : (Beat.onB ⟨0, [], l⟩ junk).beat = ⟨0, [], l⟩ := by
  simp [Beat.onB, BBeat.beat]

theorem beat_onB_one (x : Byte) (l : Bool) (junk : Byte) : (Beat.onB ⟨1, [x], l⟩ junk).beat = ⟨1, [x], l⟩ := by
  simp [Beat.onB, BBeat.beat]

end Sys2Proof.Machine
end

