-- ==== Sys2Proof/Laws/Beats.lean ====
section
/-! SUPPORT. Everything a step of each operation can do in `RUN`, said once per operation; and everything a step can do to
the registers. -/

namespace Sys2Proof.Machine

theorem takenB_withA (s : State) (n : Nat) : ({ s with nA := n } : State).takenB = s.takenB := rfl

theorem command_cases (c : Code) : c = 0#2 ∨ c = 1#2 ∨ c = 2#2 ∨ c = 3#2 := by revert c; decide

theorem count_cases (c : BitVec 1) : c = 0#1 ∨ c = 1#1 := by revert c; decide

/-- HEXDEC in `RUN` (40_hexdec.md R106, R107): it waits, or it takes a beat that may be taken. -/
theorem execHexdec_run_next {s t : State} (hm : s.block.mode = .run) (h : exec .hexdec s = .next t) :
    t = s ∨
    ∃ a, s.block.op = 0#2 ∧ s.takenA = some a ∧
      beatProblem .illFramedA s.params.maxLen (laneWidth s.params.hexImpl 0#2) s.nA a.beat = none ∧
      t = hexdecStep a.beat { s with nA := s.nA + a.cnt.toNat } := by
  by_cases ho : s.block.op = 0#2
  · rw [exec_hexdec_run hm ho] at h
    rcases takeA_next h with ⟨-, rfl⟩ | ⟨a, ha, hp, hk⟩
    · exact .inl rfl
    · exact .inr ⟨a, ho, ha, hp, by simpa using hk.symm⟩
  · simp only [exec, execHexdec, runOperation_run hm, if_neg ho, Host.Outcome.next.injEq] at h
    exact .inl h.symm

/-- B64ENC in `RUN` (41_b64enc.md R127): it waits, or it takes a beat that may be taken. -/
theorem execB64enc_run_next {s t : State} (hm : s.block.mode = .run) (h : exec .b64enc s = .next t) :
    t = s ∨
    ∃ a, s.block.op = 1#2 ∧ s.takenA = some a ∧
      beatProblem .illFramedA s.params.maxLen 1 s.nA a.beat = none ∧
      ¬(s.block.gc = 3#2 ∧ a.beat.lane ≠ []) ∧
      t = { s with nA := s.nA + a.cnt.toNat, block := s.block.b64enc a.beat } := by
  by_cases ho : s.block.op = 1#2
  · rw [exec_b64enc_run hm ho, laneWidth_b64enc] at h
    rcases takeA_next h with ⟨-, rfl⟩ | ⟨a, ha, hp, hk⟩
    · exact .inl rfl
    · unfold b64encStep at hk
      split at hk
      · cases hk
      · exact .inr ⟨a, ho, ha, hp, ‹_›, by simpa using hk.symm⟩
  · simp only [exec, execB64enc, runOperation_run hm, if_neg ho, Host.Outcome.next.injEq] at h
    exact .inl h.symm

/-- The beat step of XORC (42_xorc.md R146, R147): it waits, joins two beats, or drains one stream. -/
theorem xorcStep_next {s t : State} (h : xorcStep s = .next t) :
    t = s ∨
    (∃ x y, s.block.adone = false ∧ s.block.bdone = false ∧ s.takenA = some x ∧ s.takenB = some y ∧
      beatProblem .illFramedA s.params.maxLen 1 s.nA x.beat = none ∧
      beatProblem .illFramedB s.params.maxLen 1 s.nB y.beat = none ∧
      t = { s with
        nA := s.nA + x.cnt.toNat, nB := s.nB + y.cnt.toNat, block := s.block.xorcJoint x.beat y.beat }) ∨
    (∃ x, s.block.adone = false ∧ s.block.bdone = true ∧ s.takenA = some x ∧
      beatProblem .illFramedA s.params.maxLen 1 s.nA x.beat = none ∧
      t = { s with nA := s.nA + x.cnt.toNat, block := s.block.xorcDrain x.beat }) ∨
    (∃ y, s.block.adone = true ∧ s.block.bdone = false ∧ s.takenB = some y ∧
      beatProblem .illFramedB s.params.maxLen 1 s.nB y.beat = none ∧
      t = { s with nB := s.nB + y.cnt.toNat, block := s.block.xorcDrain y.beat }) := by
  unfold xorcStep at h
  split at h
  · rename_i ha hb
    unfold xorcJointStep at h
    split at h
    · exact .inl (by simpa using h.symm)
    · rw [laneWidth_xorc] at h
      rcases takeA_next h with ⟨-, rfl⟩ | ⟨x, hx, hpx, hk⟩
      · exact .inl rfl
      · rcases takeB_next hk with ⟨hn, -⟩ | ⟨y, hy, hpy, hk'⟩
        · rw [takenB_withA] at hn
          simp_all
        · exact .inr (.inl ⟨x, y, ha, hb, hx, hy, hpx, hpy, by simpa using hk'.symm⟩)
  · rename_i ha hb
    unfold xorcDrainA at h
    rw [laneWidth_xorc] at h
    rcases takeA_next h with ⟨-, rfl⟩ | ⟨x, hx, hpx, hk⟩
    · exact .inl rfl
    · exact .inr (.inr (.inl ⟨x, ha, hb, hx, hpx, by simpa using hk.symm⟩))
  · rename_i ha hb
    unfold xorcDrainB at h
    rcases takeB_next h with ⟨-, rfl⟩ | ⟨y, hy, hpy, hk⟩
    · exact .inl rfl
    · exact .inr (.inr (.inr ⟨y, ha, hb, hy, hpy, by simpa using hk.symm⟩))
  · exact .inl (by simpa using h.symm)

/-- XORC in `RUN`: with another operation open it waits; else its beat step. -/
theorem execXorc_run_next {s t : State} (hm : s.block.mode = .run) (h : exec .xorc s = .next t) :
    t = s ∨ (s.block.op = 2#2 ∧ xorcStep s = .next t) := by
  by_cases ho : s.block.op = 2#2
  · rw [exec_xorc_run hm ho] at h
    exact .inr ⟨ho, h⟩
  · simp only [exec, execXorc, runOperation_run hm, if_neg ho, Host.Outcome.next.injEq] at h
    exact .inl h.symm

/-- Everything a step can do: a reset edge, an edge that changes no register, the acceptance of a command, a beat step of
the open operation, or a result edge. What remains of the edge is `finishEdge`, which changes no register. -/
theorem step_cases {s t : State} (h : step s = .next t) :
    (s.pins.rst = true ∧ t = resetEdge s) ∨
    (s.pins.rst = false ∧ ∃ u, t = finishEdge s u ∧
      (u = s ∨
       (s.block.mode = .idle ∧ ∃ c, s.pins.offers.cmd = some c ∧ u = s.accept c) ∨
       (s.block.mode = .run ∧ exec (decode s.block.op) s = .next u) ∨
       (s.block.mode = .resp ∧ u = s.deliver))) := by
  obtain ⟨-, h | ⟨hr, -, ht⟩ | ⟨c, u, hr, hc, he, ht⟩⟩ := step_next h
  · exact .inl h
  · exact .inr ⟨hr, s, ht, .inl rfl⟩
  · refine .inr ⟨hr, u, ht, ?_⟩
    cases hm : s.block.mode with
    | idle =>
      rw [dueCommand_idle hr hm] at hc
      rw [exec_idle _ hm, encode_decode] at he
      exact .inr (.inl ⟨rfl, c, hc, by simpa using he.symm⟩)
    | run =>
      rw [dueCommand_open (by simp [hm])] at hc
      cases hc
      exact .inr (.inr (.inl ⟨rfl, he⟩))
    | resp =>
      rw [exec_resp _ hm] at he
      exact .inr (.inr (.inr ⟨rfl, by simpa using he.symm⟩))

end Sys2Proof.Machine
end

