-- ==== Sys2Proof/Laws/PerInstr.lean ====
section
/-! SUPPORT. The statement made of every instruction: it is well formed and the decoder reads it back from its command
word (30_encoding.md R71, R72). -/

namespace Sys2Proof.Laws.EncodeDecode

/-- An instruction is well formed, and its command word decodes to it. -/
def Statement (i : Instr) : Prop := i.wf = true ∧ decode (encode i) = i

theorem hexdec : Statement .hexdec := ⟨rfl, rfl⟩
theorem b64enc : Statement .b64enc := ⟨rfl, rfl⟩
theorem xorc : Statement .xorc := ⟨rfl, rfl⟩
theorem illegal : Statement .illegal := ⟨rfl, rfl⟩

end Sys2Proof.Laws.EncodeDecode
end

