-- ==== Sys2Proof/Tests/Slice0.lean ====
section
/-! SUPPORT. The model's own tests. Expected values come from spec/95_test_vectors.md and the encoding tables of
30_encoding.md. Part 4 shows, for every obligation with hypotheses, a state and operands that meet them. -/

namespace Sys2Proof.Tests
open Sys2Proof.Machine

/-! ## Helpers -/

/-- An idle instance with one edge of inputs. -/
def idleWith (h : HexImpl) (p : PortIn) : State :=
  { State.resetWith ⟨h, none⟩ with env := ⟨[p], Offers.silent, Offers.silent, []⟩ }

/-- The registers right after operation `c` was accepted. -/
def opened (c : Code) : Block := { Block.reset with op := c, mode := .run }

/-- An instance with registers `b` and one edge of inputs. -/
def blockWith (h : HexImpl) (b : Block) (p : PortIn) : State := { idleWith h p with block := b }

/-- The registers when result `r` is on offer for operation `c`. -/
def offering (c : Code) (r : Result) (rp : Nat) : Block := { Block.reset with op := c, mode := .resp, res := r, rp := rp }

/-- A beat of one element on stream A, one of two, a null one. -/
def one (x : Byte) (last : Bool) : ABeat := ⟨1#2, x.setWidth 16, last⟩
def two (x y : Byte) (last : Bool) : ABeat := ⟨2#2, y ++ x, last⟩
def null : ABeat := ⟨0#2, 0#16, true⟩

/-- Operand edges. -/
def giveA (x : ABeat) : PortIn := PortIn.operands (some x) none
def giveB (y : BBeat) : PortIn := PortIn.operands none (some y)
def giveAB (x : ABeat) (y : BBeat) : PortIn := PortIn.operands (some x) (some y)

/-- The registers after an answer that is a next state. -/
def blockOf : Answer → Option Block
  | .next t => some t.block
  | .fault _ => none
  | .refused _ => none

/-! ## 1. What is ill formed is refused -/

theorem test_wf_every_instruction :
    Instr.wf .hexdec = true ∧ Instr.wf .b64enc = true ∧ Instr.wf .xorc = true ∧ Instr.wf .illegal = true := by decide

/-- R70: the command word has two bits. -/
theorem test_wf_command_word : commandWordFits 3 = true ∧ commandWordFits 4 = false := by decide

/-- R51, R77: 3 is no count; 2 is none on one lane. -/
theorem test_wf_count :
    countFits .parallel 2 = true ∧ countFits .parallel 3 = false ∧
    countFits .pipelined 1 = true ∧ countFits .pipelined 2 = false := by decide

theorem test_wf_instances : instancesFit 1 = true ∧ instancesFit 0 = false := by decide

/-- R52: the frames of "abc" on two lanes and of the empty text; a short beat that is not the last, a missing `last`, an
early `last` and a null beat after an element are no frames. -/
theorem test_wf_frame :
    frame 2 [0x61#8, 0x62#8, 0x63#8] = [⟨2, [0x61#8, 0x62#8], false⟩, ⟨1, [0x63#8], true⟩] ∧
    frame 2 [] = [⟨0, [], true⟩] ∧
    wellFramed 2 [⟨1, [0x61#8], false⟩, ⟨2, [0x62#8, 0x63#8], true⟩] = false ∧
    wellFramed 1 [⟨1, [0x61#8], false⟩] = false ∧
    wellFramed 1 [⟨1, [0x61#8], true⟩, ⟨1, [0x62#8], true⟩] = false ∧
    wellFramed 1 [⟨1, [0x61#8], false⟩, ⟨0, [], true⟩] = false := by decide

/-- R79: a line that names a result with an error status, or a later one, is ill formed. -/
theorem test_wf_script_line :
    scriptFrom [] [.hexdec [0x61#8], .b64enc (.named 0)] = none ∧ scriptFrom [] [.b64enc (.named 0)] = none ∧
    (scriptFrom [] [.hexdec [0x34#8, 0x31#8], .b64enc (.named 0)]).isSome = true := by decide

/-! ## 2. Decoding -/

/-- R71: HEXDEC is `op[1:0] = 0 0`, B64ENC `0 1`, XORC `1 0`, ILLEGAL `1 1`. -/
theorem test_decode_hexdec : decodeTableWord 2 0b00 = some .hexdec := by decide
theorem test_decode_b64enc : decodeTableWord 2 0b01 = some .b64enc := by decide
theorem test_decode_xorc : decodeTableWord 2 0b10 = some .xorc := by decide
theorem test_decode_illegal : decodeTableWord 2 0b11 = some .illegal := by decide

/-- The first step after reset accepts the placed command. -/
theorem test_placed_xorc :
    blockOf (step (State.reset.withFetchWord 2 0b10)) = some { Block.reset with op := 0b10#2, mode := .run } := by decide

/-! ## 3. Steps and vectors of 95_test_vectors.md -/

/-- V-H24 step 2: `(1, [61], 0)` with `ph = 1`, `hn = 4` gives `ph = 0`, `out = [4A]`. -/
theorem test_hexdec_pipelined_low_digit :
    blockOf (exec .hexdec (blockWith .pipelined { opened 0b00#2 with ph := true, hn := 4#4 } (giveA (one 0x61#8 false)))) =
      some { opened 0b00#2 with hn := 4#4, out := [0x4A#8] } := by decide

/-- V-H25 step 2: `a_data = 0x4636` with `last` after `out = [4A]`. -/
theorem test_hexdec_parallel_last :
    blockOf (exec .hexdec (blockWith .parallel { opened 0b00#2 with out := [0x4A#8] } (giveA ⟨2#2, 0x4636#16, true⟩))) =
      some { opened 0b00#2 with out := [0x4A#8, 0x6F#8], mode := .resp, res := ⟨.ok, [0x4A#8, 0x6F#8]⟩ } := by decide

/-- V-B19 step 3: the third byte completes the group `TWFu`. -/
theorem test_b64enc_third_byte :
    blockOf (exec .b64enc (blockWith .pipelined { opened 0b01#2 with acc := 0x4D6100#24, gc := 2#2 }
      (giveA (one 0x6E#8 false)))) =
      some { opened 0b01#2 with out := [0x54#8, 0x57#8, 0x46#8, 0x75#8] } := by decide

/-- V-B21 step 2: the last byte with one before it: `+/A=`; `acc` and `gc` keep their old contents. -/
theorem test_b64enc_short_group :
    blockOf (exec .b64enc (blockWith .parallel { opened 0b01#2 with acc := 0xFB0000#24, gc := 1#2 }
      (giveA (one 0xF0#8 true)))) =
      some { opened 0b01#2 with
        acc := 0xFB0000#24, gc := 1#2, out := [0x2B#8, 0x2F#8, 0x41#8, 0x3D#8], mode := .resp
        res := ⟨.ok, [0x2B#8, 0x2F#8, 0x41#8, 0x3D#8]⟩ } := by decide

/-- V-X15 step 3: the last joint step. -/
theorem test_xorc_joint_last :
    blockOf (exec .xorc (blockWith .pipelined { opened 0b10#2 with out := [0x74#8, 0x68#8] }
      (giveAB (one 0x11#8 true) ⟨1#1, 0x74#8, true⟩))) =
      some { opened 0b10#2 with
        out := [0x74#8, 0x68#8, 0x65#8], mode := .resp, res := ⟨.ok, [0x74#8, 0x68#8, 0x65#8]⟩ } := by decide

/-- V-X16 step 1: the byte is appended and the mismatch noted. -/
theorem test_xorc_mismatch :
    blockOf (exec .xorc (blockWith .pipelined (opened 0b10#2) (giveAB (one 0x01#8 false) ⟨1#1, 0x01#8, true⟩))) =
      some { opened 0b10#2 with out := [0x00#8], err := true, bdone := true } := by decide

/-- V-C1: the reserved code answers status 3 with a null beat. -/
theorem test_illegal_accept :
    blockOf (exec .illegal (idleWith .pipelined PortIn.quiet)) = some (offering 0b11#2 ⟨.illegalOp, []⟩ 0) := by decide
theorem test_illegal_beat :
    (State.resultBeat (blockWith .pipelined (offering 0b11#2 ⟨.illegalOp, []⟩ 0) PortIn.ready)).seen =
      (3#2, [], true) := by rfl

/-- V-R1: reset in `RUN` of B64ENC after `4D 61`. -/
theorem test_reset_in_run :
    blockOf (step (blockWith .pipelined { opened 0b01#2 with acc := 0x4D6100#24, gc := 2#2 }
      ⟨true, Offers.silent, false⟩)) = some Block.reset := by decide

/-- S6, V-H3, V-H5. -/
theorem test_decodeHex :
    decodeHex [0x61#8, 0x62#8, 0x63#8] = ⟨.decodeError, []⟩ ∧ decodeHex [0x66#8, 0x66#8] = ⟨.ok, [0xFF#8]⟩ ∧
    decodeHex [0x66#8, 0x46#8] = ⟨.ok, [0xFF#8]⟩ := by decide

/-- R81: `nib` at the boundaries of its ranges. -/
theorem test_nib_boundaries :
    nib 0x2F#8 = none ∧ nib 0x30#8 = some 0#4 ∧ nib 0x39#8 = some 9#4 ∧ nib 0x3A#8 = none ∧ nib 0x40#8 = none ∧
    nib 0x41#8 = some 10#4 ∧ nib 0x46#8 = some 15#4 ∧ nib 0x47#8 = none ∧ nib 0x60#8 = none ∧
    nib 0x61#8 = some 10#4 ∧ nib 0x66#8 = some 15#4 ∧ nib 0x67#8 = none := by decide

/-- S2: "Hello World". -/
theorem test_encodeBase64_hello :
    encodeBase64 [0x48#8, 0x65#8, 0x6C#8, 0x6C#8, 0x6F#8, 0x20#8, 0x57#8, 0x6F#8, 0x72#8, 0x6C#8, 0x64#8] =
      ⟨.ok, [0x53#8, 0x47#8, 0x56#8, 0x73#8, 0x62#8, 0x47#8, 0x38#8, 0x67#8, 0x56#8, 0x32#8, 0x39#8, 0x79#8,
        0x62#8, 0x47#8, 0x51#8, 0x3D#8]⟩ := by decide

/-- R85 at the boundaries of its ranges: A, Z, a, z, 0, 9, +, /. -/
theorem test_alpha_boundaries :
    alpha 0#6 = 0x41#8 ∧ alpha 25#6 = 0x5A#8 ∧ alpha 26#6 = 0x61#8 ∧ alpha 51#6 = 0x7A#8 ∧ alpha 52#6 = 0x30#8 ∧
    alpha 61#6 = 0x39#8 ∧ alpha 62#6 = 0x2B#8 ∧ alpha 63#6 = 0x2F#8 := by decide

/-- S7, V-X7. -/
theorem test_xorCombine :
    xorCombine [1#8, 2#8] [1#8] = ⟨.lengthMismatchError, []⟩ ∧
    xorCombine [0xDE#8, 0xAD#8, 0xBE#8, 0xEF#8] [1#8, 2#8, 3#8, 4#8] =
      ⟨.ok, [0xDF#8, 0xAF#8, 0xBD#8, 0xEB#8]⟩ := by decide

/-! ## 4. The hypotheses of the obligations can be met -/

theorem test_hyp_TableWordReadByItsTwoLowBits : 2 ≤ 2 ∧ 2 ≤ 8 ∧ 7 % 4 = (encode .illegal).toNat := by decide

/-- An idle edge with a command, a `RUN` edge, an idle edge without one. -/
theorem test_hyp_StepRunsTheDueInstruction :
    (let s := idleWith .parallel (PortIn.command 0b10#2)
     s.portProblem = none ∧ s.pins.rst = false ∧ s.block.mode = .idle ∧ s.pins.offers.cmd = some 0b10#2) ∧
    (let s := blockWith .parallel (opened 0b01#2) (giveA (one 0#8 false))
     s.portProblem = none ∧ s.pins.rst = false ∧ s.block.mode ≠ .idle) ∧
    (let s := idleWith .parallel PortIn.quiet
     s.portProblem = none ∧ s.pins.rst = false ∧ s.block.mode = .idle ∧ s.pins.offers.cmd = none) := by decide

theorem test_hyp_PlacedCommandRunsNext : decodeTableWord 2 3 = some .illegal ∧ decodeTableWord 2 0 = some .hexdec := by
  decide

theorem test_hyp_CommandAcceptance : State.reset.block.mode = .idle := rfl

/-- Also the inner clause: the environment is ready. -/
theorem test_hyp_ReservedCodeAnswersIllegalOp :
    (idleWith .pipelined PortIn.ready).block.mode = .idle ∧
    ((idleWith .pipelined PortIn.ready).accept 0b11#2).pins.rReady = true ∧
    ((idleWith .pipelined PortIn.ready).accept 0b11#2).pins.rst = false := by decide

/-- Not ready; ready with an empty result; ready at the first and at the last of two elements. -/
theorem test_hyp_ResultDelivery :
    (let s := blockWith .pipelined (offering 0b00#2 ⟨.ok, []⟩ 0) PortIn.quiet
     s.block.mode = .resp ∧ s.pins.rReady = false) ∧
    (let s := blockWith .pipelined (offering 0b00#2 ⟨.decodeError, []⟩ 0) PortIn.ready
     s.block.mode = .resp ∧ s.pins.rReady = true ∧ s.pins.rst = false ∧ s.block.res.seq = []) ∧
    (let s := blockWith .pipelined (offering 0b00#2 ⟨.ok, [1#8, 2#8]⟩ 0) PortIn.ready
     s.pins.rReady = true ∧ s.pins.rst = false ∧ s.block.res.seq[s.block.rp]? = some 1#8 ∧ s.block.rp ≠ s.block.res.seq.length - 1) ∧
    (let s := blockWith .pipelined (offering 0b00#2 ⟨.ok, [1#8, 2#8]⟩ 1) PortIn.ready
     s.pins.rReady = true ∧ s.pins.rst = false ∧ s.block.res.seq[s.block.rp]? = some 2#8 ∧ s.block.rp = s.block.res.seq.length - 1) := by
  decide

/-- A valid high digit, an invalid high digit, a low digit with `last`, the null beat. -/
theorem test_hyp_HexdecPipelinedBeat :
    (∀ x ∈ [one 0x61#8 false, one 0x67#8 false, one 0x61#8 true, null],
      let s := blockWith .pipelined (opened 0b00#2) (giveA x)
      s.block.mode = .run ∧ s.block.op = 0#2 ∧ s.params.hexImpl = .pipelined ∧ s.pins.rst = false ∧
      s.pins.offers.a = some x ∧ framingOk 1 s.nA x.beat = true ∧ withinMax s.params.maxLen (s.nA + x.beat.cnt) = true) ∧
    (let s := { blockWith .pipelined { opened 0b00#2 with ph := true } (giveA (one 0x61#8 true)) with nA := 1 }
     s.block.ph = true ∧ framingOk 1 s.nA (one 0x61#8 true).beat = true) := by decide

/-- A full beat, a last full beat, a last half beat, the null beat. -/
theorem test_hyp_HexdecParallelBeat :
    ∀ x ∈ [two 0x34#8 0x61#8 false, two 0x34#8 0x67#8 true, one 0x63#8 true, null],
      let s := blockWith .parallel (opened 0b00#2) (giveA x)
      s.block.mode = .run ∧ s.block.op = 0#2 ∧ s.params.hexImpl = .parallel ∧ s.pins.rst = false ∧
      s.pins.offers.a = some x ∧ framingOk 2 s.nA x.beat = true ∧ withinMax s.params.maxLen (s.nA + x.beat.cnt) = true := by decide

/-- `gc` at 0 and at 2, a byte, a last byte, the null beat. -/
theorem test_hyp_B64encBeat :
    ∀ g ∈ [0#2, 2#2], ∀ x ∈ [one 0x61#8 false, one 0x61#8 true, null],
      let s := blockWith .pipelined { opened 0b01#2 with gc := g } (giveA x)
      s.block.mode = .run ∧ s.block.op = 1#2 ∧ s.block.gc.toNat ≤ 2 ∧ s.pins.rst = false ∧
      s.pins.offers.a = some x ∧ framingOk 1 s.nA x.beat = true ∧ withinMax s.params.maxLen (s.nA + x.beat.cnt) = true := by decide

theorem test_hyp_GroupCountThreeStops :
    let s := blockWith .pipelined { opened 0b01#2 with gc := 3#2 } (giveA (one 0x61#8 false))
    s.block.mode = .run ∧ s.block.op = 1#2 ∧ s.block.gc = 3#2 ∧ s.pins.rst = false ∧ s.pins.offers.a = some (one 0x61#8 false) ∧
    (one 0x61#8 false).cnt = 1#2 ∧ withinMax s.params.maxLen (s.nA + 1) = true := by decide

/-- Both go on, one ends, both end, two null beats, a null beat against a byte. -/
theorem test_hyp_XorcJointStep :
    ∀ p ∈ [(one 1#8 false, ⟨1#1, 2#8, false⟩), (one 1#8 true, ⟨1#1, 2#8, false⟩), (one 1#8 true, ⟨1#1, 2#8, true⟩),
        (null, ⟨0#1, 0#8, true⟩), (null, (⟨1#1, 2#8, false⟩ : BBeat))],
      let s := blockWith .pipelined (opened 0b10#2) (giveAB p.1 p.2)
      s.block.mode = .run ∧ s.block.op = 2#2 ∧ s.block.adone = false ∧ s.block.bdone = false ∧
      s.pins.rst = false ∧ s.pins.offers.a = some p.1 ∧ s.pins.offers.b = some p.2 ∧
      framingOk 1 s.nA p.1.beat = true ∧ framingOk 1 s.nB p.2.beat = true ∧
      withinMax s.params.maxLen (s.nA + p.1.beat.cnt) = true ∧
      withinMax s.params.maxLen (s.nB + p.2.beat.cnt) = true := by decide

theorem test_hyp_XorcDrainStep :
    (∀ l ∈ [false, true],
      let s := { blockWith .pipelined { opened 0b10#2 with err := true, bdone := true } (giveA (one 1#8 l)) with nA := 1 }
      s.block.mode = .run ∧ s.block.op = 2#2 ∧ s.block.adone = false ∧ s.block.bdone = true ∧
      s.pins.rst = false ∧ s.pins.offers.a = some (one 1#8 l) ∧ framingOk 1 s.nA (one 1#8 l).beat = true ∧
      withinMax s.params.maxLen (s.nA + (one 1#8 l).beat.cnt) = true) ∧
    (∀ l ∈ [false, true],
      let s := { blockWith .pipelined { opened 0b10#2 with err := true, adone := true } (giveB ⟨1#1, 2#8, l⟩) with nB := 1 }
      s.block.mode = .run ∧ s.block.op = 2#2 ∧ s.block.adone = true ∧ s.block.bdone = false ∧
      s.pins.rst = false ∧ s.pins.offers.b = some ⟨1#1, 2#8, l⟩ ∧ framingOk 1 s.nB (BBeat.beat ⟨1#1, 2#8, l⟩) = true ∧
      withinMax s.params.maxLen (s.nB + (BBeat.beat ⟨1#1, 2#8, l⟩).cnt) = true) := by decide

/-- In both variants, with and without `last`: the step stays in `RUN`, or leaves it. -/
theorem test_hyp_HexdecFrame :
    (blockWith .pipelined (opened 0b00#2) (giveA (one 0x61#8 false))).block.mode = .run ∧
    (∃ t, exec .hexdec (blockWith .pipelined (opened 0b00#2) (giveA (one 0x61#8 false))) = .next t ∧ t.block.mode = .run) ∧
    (∃ t, exec .hexdec (blockWith .parallel (opened 0b00#2) (giveA (one 0x61#8 true))) = .next t ∧ t.block.mode ≠ .run) :=
  ⟨rfl, ⟨_, rfl, by decide⟩, ⟨_, rfl, by decide⟩⟩

theorem test_hyp_B64encFrame :
    (∃ t, exec .b64enc (blockWith .pipelined (opened 0b01#2) (giveA (one 0x61#8 false))) = .next t ∧ t.block.mode = .run) ∧
    (∃ t, exec .b64enc (blockWith .pipelined (opened 0b01#2) (giveA (one 0x61#8 true))) = .next t ∧ t.block.mode ≠ .run) :=
  ⟨⟨_, rfl, by decide⟩, ⟨_, rfl, by decide⟩⟩

theorem test_hyp_XorcAndReservedFrame :
    (∃ t, exec .xorc (blockWith .pipelined (opened 0b10#2) (giveAB (one 1#8 false) ⟨1#1, 2#8, true⟩)) = .next t ∧
      t.block.mode = .run) ∧
    (∃ t, exec .xorc (blockWith .pipelined (opened 0b10#2) (giveAB (one 1#8 true) ⟨1#1, 2#8, true⟩)) = .next t ∧
      t.block.mode ≠ .run) ∧
    (blockWith .pipelined (opened 0b11#2) PortIn.quiet).block.mode = .run :=
  ⟨⟨_, rfl, by decide⟩, ⟨_, rfl, by decide⟩, rfl⟩

/-- Every case of R55, one register file each. -/
theorem test_hyp_OperandReadies :
    (opened 0b00#2).mode = .run ∧ (opened 0b00#2).op = 0#2 ∧ (opened 0b01#2).op = 1#2 ∧ (opened 0b10#2).op = 2#2 ∧
    (opened 0b10#2).adone = false ∧ (opened 0b10#2).bdone = false ∧ Block.reset.mode ≠ .run ∧ (opened 0b11#2).op = 3#2 := by
  decide

theorem test_hyp_ChannelsTakeTurns :
    (idleWith .pipelined (PortIn.command 0b11#2)).takenCmd ≠ none ∧
    (blockWith .pipelined (opened 0b01#2) (giveA null)).takenA ≠ none ∧
    (blockWith .pipelined { opened 0b10#2 with adone := true } (giveB ⟨1#1, 0#8, true⟩)).takenB ≠ none ∧
    joint (opened 0b10#2) = true ∧
    (blockWith .pipelined (offering 0b11#2 ⟨.illegalOp, []⟩ 0) PortIn.ready).takenR.isSome = true :=
  ⟨by decide, by decide, by decide, by decide, rfl⟩

/-- One waiting state per clause. -/
theorem test_hyp_WaitingChangesNothing :
    (let s := blockWith .pipelined (opened 0b00#2) PortIn.quiet
     s.portProblem = none ∧ s.pins.rst = false ∧ s.takes = false ∧ s.block.mode = .run ∧
     s.pins.offers.a = none ∧ s.pins.offers.b = none) ∧
    (let s := blockWith .pipelined (opened 0b01#2) (giveB ⟨1#1, 0#8, true⟩)
     s.block.mode = .run ∧ s.block.op ≠ 2#2 ∧ s.pins.offers.a = none) ∧
    (let s := blockWith .pipelined (opened 0b10#2) (giveB ⟨1#1, 0#8, true⟩)
     joint s.block = true ∧ s.pins.offers.a = none) ∧
    (let s := blockWith .pipelined (offering 0b01#2 ⟨.ok, [1#8]⟩ 0) PortIn.quiet
     s.block.mode = .resp ∧ s.pins.rReady = false) ∧
    (let s := idleWith .pipelined (giveA null)
     s.block.mode = .idle ∧ s.pins.offers.cmd = none) := by decide

/-- A count one above the lanes, in both variants; a null beat without `last`; a null beat after an element; a short beat. -/
theorem test_hyp_IllFramedBeatsAreRefused :
    (let s := blockWith .pipelined (opened 0b00#2) (giveA (two 0x34#8 0#8 true))
     s.block.mode = .run ∧ s.block.op = encode .hexdec ∧ s.takenA = some (two 0x34#8 0#8 true) ∧
     (two 0x34#8 0#8 true).cnt.toNat > laneWidth s.params.hexImpl s.block.op) ∧
    (let s := blockWith .parallel (opened 0b00#2) (giveA ⟨3#2, 0#16, true⟩)
     s.takenA = some ⟨3#2, 0#16, true⟩ ∧ (3#2).toNat > laneWidth s.params.hexImpl s.block.op) ∧
    (let s := blockWith .parallel (opened 0b01#2) (giveA ⟨0#2, 0#16, false⟩)
     s.block.op = encode .b64enc ∧ s.takenA = some ⟨0#2, 0#16, false⟩) ∧
    (let s := { blockWith .parallel (opened 0b01#2) (giveA null) with nA := 1 }
     s.takenA = some null ∧ null.cnt = 0#2 ∧ s.nA ≠ 0) ∧
    (let s := blockWith .parallel (opened 0b00#2) (giveA (one 0x34#8 false))
     s.takenA = some (one 0x34#8 false) ∧ (one 0x34#8 false).last = false ∧
     (one 0x34#8 false).cnt.toNat ≠ laneWidth s.params.hexImpl s.block.op) := by decide

theorem test_hyp_IllFramedBeatsAreRefused_B :
    let s := { blockWith .parallel { opened 0b10#2 with adone := true } (giveB ⟨0#1, 0#8, true⟩) with nB := 1 }
    s.block.mode = .run ∧ s.block.op = 2#2 ∧ s.takenB = some ⟨0#1, 0#8, true⟩ ∧ s.takenA = none ∧ s.nB ≠ 0 := by decide

/-- The first element past the bound, on A and on B. -/
theorem test_hyp_OverlongOperandsAreRefused :
    (let s := { blockWith .pipelined (opened 0b01#2) (giveA (one 7#8 true)) with params := ⟨.pipelined, some 1⟩, nA := 1 }
     s.block.mode = .run ∧ s.block.op = encode .b64enc ∧ s.params.maxLen = some 1 ∧ s.takenA = some (one 7#8 true) ∧
     framingOk (laneWidth s.params.hexImpl s.block.op) s.nA (one 7#8 true).beat = true ∧
     s.nA + (one 7#8 true).cnt.toNat > 1) ∧
    (let s := { blockWith .pipelined { opened 0b10#2 with adone := true } (giveB ⟨1#1, 7#8, true⟩) with
       params := ⟨.pipelined, some 1⟩, nB := 1 }
     s.block.mode = .run ∧ s.block.op = 2#2 ∧ s.params.maxLen = some 1 ∧ s.takenB = some ⟨1#1, 7#8, true⟩ ∧
     s.takenA = none ∧ framingOk 1 s.nB (BBeat.beat ⟨1#1, 7#8, true⟩) = true ∧ s.nB + (1#1).toNat > 1) := by decide

/-- An offer dropped or changed on each channel; a stale beat still there on each operand stream; a good edge. -/
theorem test_hyp_PortBreachesAreRefused :
    (let s := { idleWith .pipelined PortIn.quiet with
       env := ⟨[PortIn.quiet], ⟨some 0#2, some null, some ⟨0#1, 0#8, true⟩⟩, Offers.silent, []⟩ }
     s.pins.rst = false ∧ s.env.held.cmd = some 0#2 ∧ s.pins.offers.cmd ≠ some 0#2 ∧
     s.env.held.a = some null ∧ s.pins.offers.a ≠ some null ∧
     s.env.held.b = some ⟨0#1, 0#8, true⟩ ∧ s.pins.offers.b ≠ some ⟨0#1, 0#8, true⟩) ∧
    (let s := { idleWith .pipelined PortIn.quiet with
       env := ⟨[giveAB null ⟨0#1, 0#8, true⟩], Offers.silent, ⟨none, some null, some ⟨0#1, 0#8, true⟩⟩, []⟩ }
     s.pins.rst = false ∧ s.env.held = Offers.silent ∧ s.env.stale.a = some null ∧ s.pins.offers.a = some null ∧
     s.env.stale.b = some ⟨0#1, 0#8, true⟩ ∧ s.pins.offers.b = some ⟨0#1, 0#8, true⟩) := by decide

theorem test_hyp_PortBreachesAreRefused_next : ∃ t, step (idleWith .pipelined (giveA null)) = .next t ∧
    t.env.held = ⟨none, some null, none⟩ := ⟨_, rfl, rfl⟩

/-- The invariant holds at reset; an edge without a breach and one with a breach. -/
theorem test_reset_invariant (h : HexImpl) (p : PortIn) : (idleWith h p).Inv := by
  simp [State.Inv, hexdecInv, b64encInv, xorcInv, respInv, runOpInv, matrixInv, parallelInv, wiresInv, idleWith, State.resetWith,
    Block.reset]

theorem test_hyp_OnlyBreachesStop :
    (idleWith .pipelined PortIn.quiet).Inv ∧ (idleWith .pipelined PortIn.quiet).breach = none ∧
    (blockWith .pipelined (opened 0b00#2) (giveA ⟨0#2, 0#16, false⟩)).Inv ∧
    (blockWith .pipelined (opened 0b00#2) (giveA ⟨0#2, 0#16, false⟩)).breach = some .illFramedA :=
  ⟨test_reset_invariant _ _, by decide,
    by simp [State.Inv, hexdecInv, b64encInv, xorcInv, respInv, runOpInv, matrixInv, parallelInv, wiresInv, blockWith, opened,
      idleWith, State.resetWith, Block.reset], by decide⟩

theorem test_hyp_SuppliedEdgesTake :
    (idleWith .pipelined (PortIn.command 0b01#2)).Inv ∧ (idleWith .pipelined (PortIn.command 0b01#2)).pins.rst = false ∧
    (idleWith .pipelined (PortIn.command 0b01#2)).supplied = true := ⟨test_reset_invariant _ _, by decide, by decide⟩

theorem test_hyp_ResultOnlyAfterLastBeats :
    ∃ t, step (blockWith .pipelined (opened 0b01#2) (giveA null)) = .next t ∧ t.block.mode ≠ .run ∧
      aOpen (opened 0b01#2) = true := ⟨_, rfl, by decide, by decide⟩

/-- A result beat with an error status is taken. -/
theorem test_hyp_NoPartialResults :
    (blockWith .pipelined (offering 0b11#2 ⟨.illegalOp, []⟩ 0) PortIn.ready).Inv ∧
    ∃ t, step (blockWith .pipelined (offering 0b11#2 ⟨.illegalOp, []⟩ 0) PortIn.ready) = .next t ∧
      t.block.mode = .idle :=
  ⟨by simp [State.Inv, hexdecInv, b64encInv, xorcInv, respInv, runOpInv, matrixInv, statusAllowed, decode, parallelInv, wiresInv,
    blockWith, offering, idleWith, State.resetWith, Block.reset], _, rfl, rfl⟩

/-- Two beats that differ only in the unused lane. -/
theorem test_hyp_UnusedLaneBitsAreIgnored :
    (idleWith .parallel (giveA (one 0x61#8 true))).env.inputs = giveA (one 0x61#8 true) :: [] ∧
    giveA ⟨1#2, 0xFF61#16, true⟩ ≠ giveA (one 0x61#8 true) ∧
    (giveA ⟨1#2, 0xFF61#16, true⟩).offers.a.map ABeat.beat = (giveA (one 0x61#8 true)).offers.a.map ABeat.beat ∧
    ∃ t, exec .hexdec (blockWith .parallel (opened 0b00#2) (giveA (one 0x61#8 true))) = .next t :=
  ⟨rfl, by decide, by decide, _, rfl⟩

/-- Under PIPELINED: two beats that differ above the wires of `a_data` only. -/
theorem test_hyp_UnusedLaneBitsAreIgnored_wires :
    (idleWith .pipelined PortIn.quiet).params.hexImpl = .pipelined ∧
    (giveA (one 0x61#8 true)).offers.a = some (one 0x61#8 true) ∧
    (0xFF61#16).extractLsb' 0 8 = (one 0x61#8 true).data.extractLsb' 0 8 := by decide

/-- R54: a held beat whose bits above the wires of PIPELINED change is still held. -/
theorem test_hold_ignores_missing_wires :
    (let s := { idleWith .pipelined (giveA ⟨1#2, 0xFF61#16, true⟩) with
       env := ⟨[giveA ⟨1#2, 0xFF61#16, true⟩], ⟨none, some (one 0x61#8 true), none⟩, Offers.silent, []⟩ }
     s.portProblem = none) ∧
    (let s := { idleWith .parallel (giveA ⟨1#2, 0xFF61#16, true⟩) with
       env := ⟨[giveA ⟨1#2, 0xFF61#16, true⟩], ⟨none, some (one 0x61#8 true), none⟩, Offers.silent, []⟩ }
     s.portProblem = some .offerNotHeld) := by decide

/-- One answer per clause: acceptance, a beat, an operation that is not open, delivery. -/
theorem test_hyp_ModelFieldsFollowTheBeats :
    (∃ t, exec .xorc (idleWith .parallel PortIn.quiet) = .next t) ∧
    (∃ t, exec .b64enc (blockWith .parallel (opened 0b01#2) (giveA null)) = .next t) ∧
    (opened 0b01#2).op = encode .b64enc ∧
    (∃ t, exec .xorc (blockWith .parallel (opened 0b01#2) (giveA null)) = .next t) ∧ (opened 0b01#2).op ≠ encode .xorc ∧
    (∃ t, exec .illegal (blockWith .parallel (offering 0b11#2 ⟨.illegalOp, []⟩ 0) PortIn.ready) = .next t) :=
  ⟨⟨_, rfl⟩, ⟨_, rfl⟩, rfl, ⟨_, rfl⟩, by decide, ⟨_, rfl⟩⟩

/-- Every way a beat is stale after a reset edge or is not: its stream still read; stale before and still there; neither. -/
theorem test_hyp_ResetEdgeAndTheEnvironment :
    (let s := blockWith .pipelined (opened 0b01#2) ⟨true, ⟨none, some null, none⟩, false⟩
     s.pins.rst = true ∧ s.pins.offers.a = some null ∧ aOpen s.block = true) ∧
    (let s := { idleWith .pipelined PortIn.quiet with
       env := ⟨[⟨true, ⟨none, some null, none⟩, false⟩], Offers.silent, ⟨none, some null, none⟩, []⟩ }
     s.pins.rst = true ∧ s.pins.offers.a = s.env.stale.a ∧ aOpen s.block = false) ∧
    (let s := idleWith .pipelined ⟨true, ⟨none, some null, none⟩, false⟩
     s.pins.rst = true ∧ s.pins.offers.a = some null ∧ aOpen s.block = false ∧ s.env.stale.a = none) ∧
    (let s := idleWith .pipelined ⟨true, Offers.silent, false⟩
     s.pins.rst = true ∧ s.pins.offers.a = none ∧ s.pins.offers.b = none) := by decide

/-- R197: the command and the first beat offered at the same edge; the beat is held until it is taken. -/
theorem test_hyp_RunsDeliverTheResultsOfWhatTheyTake :
    let s := { idleWith .pipelined PortIn.quiet with
      env := ⟨[⟨false, ⟨some 0b01#2, some null, none⟩, true⟩, giveA null, PortIn.ready], Offers.silent, Offers.silent, []⟩ }
    s.block.mode = .idle ∧ (∀ p ∈ s.env.inputs.take 3, p.rst = false) ∧
    (∃ t, reaches 3 s t ∧ t.block.mode = .idle) ∧
    trafficOf 3 s = ⟨[0b01#2], [⟨0, [], true⟩], []⟩ := ⟨rfl, by decide, ⟨_, rfl, rfl⟩, rfl⟩

theorem test_hyp_ResetEdge : (blockWith .pipelined (opened 0b10#2) ⟨true, Offers.silent, true⟩).pins.rst = true := rfl
theorem test_hyp_OutputsAfterReset : (idleWith .parallel (giveA null)).block = Block.reset := rfl

theorem test_hyp_HexErrors :
    [0x61#8].length % 2 = 1 ∧ (∃ c ∈ [0x30#8, 0x67#8], nib c = none) ∧ [0x30#8, 0x67#8].length % 2 = 0 :=
  ⟨by decide, ⟨0x67#8, by decide, by decide⟩, by decide⟩

theorem test_hyp_HexSuccessIsExact :
    [0x66#8, 0x46#8].length % 2 = 0 ∧ ∀ c ∈ [0x66#8, 0x46#8], nib c ≠ none := by decide

theorem test_hyp_Base64IsInjective : encodeBase64 [0x4D#8] = encodeBase64 [0x4D#8] := rfl

theorem test_hyp_XorContract :
    [1#8, 2#8].length ≠ [1#8].length ∧ [1#8, 2#8].length = [3#8, 4#8].length ∧
    [1#8, 2#8][1]? = some 2#8 ∧ [3#8, 4#8][1]? = some 4#8 := by decide

theorem test_hyp_StatusMatrix : (Transaction.result (.xorc [1#8] [])).status ≠ .ok := by decide

/-- Both variants, a text of three characters with junk in the unused lane. -/
theorem test_hyp_HexdecRefines :
    (let s := idleWith .parallel (PortIn.command 0b00#2)
     s.block.mode = .idle ∧ s.clean ∧ withinMax s.params.maxLen 3 = true ∧
     [two 0x61#8 0x62#8 false, ⟨1#2, 0xFF63#16, true⟩].map ABeat.beat =
       frame (laneWidth s.params.hexImpl 0#2) [0x61#8, 0x62#8, 0x63#8]) ∧
    (let s := { idleWith .pipelined PortIn.quiet with
       env := ⟨[PortIn.command 0b00#2, giveA null, PortIn.ready], Offers.silent, Offers.silent, []⟩ }
     s.clean ∧ [null].map ABeat.beat = frame (laneWidth s.params.hexImpl 0#2) [] ∧
     s.env.inputs = PortIn.command 0b00#2 :: ([null].map fun x => PortIn.operands (some x) none) ++ [PortIn.ready]) := by
  decide

theorem test_hyp_B64encRefines :
    let s := { idleWith .pipelined PortIn.quiet with
      env := ⟨[PortIn.command 0b01#2, giveA (one 5#8 false), giveA (one 6#8 true)], Offers.silent, Offers.silent, []⟩ }
    s.block.mode = .idle ∧ s.clean ∧ withinMax s.params.maxLen 2 = true ∧
    [one 5#8 false, one 6#8 true].map ABeat.beat = frame 1 [5#8, 6#8] ∧
    s.env.inputs = PortIn.command 0b01#2 ::
      ([one 5#8 false, one 6#8 true].map fun x => PortIn.operands (some x) none) ++ [] := by decide

/-- Operands of lengths 2 and 1. -/
theorem test_hyp_XorcRefines :
    let s := { idleWith .pipelined PortIn.quiet with
      env := ⟨[PortIn.command 0b10#2, giveAB (one 1#8 false) ⟨1#1, 1#8, true⟩, giveA (one 2#8 true)],
        Offers.silent, Offers.silent, []⟩ }
    s.block.mode = .idle ∧ s.clean ∧ withinMax s.params.maxLen 2 = true ∧
    [one 1#8 false, one 2#8 true].map ABeat.beat = frame 1 [1#8, 2#8] ∧
    [(⟨1#1, 1#8, true⟩ : BBeat)].map BBeat.beat = frame 1 [1#8] ∧
    s.env.inputs = PortIn.command 0b10#2 :: lockStep [one 1#8 false, one 2#8 true] [⟨1#1, 1#8, true⟩] ++ [] := by decide

/-- A transaction with quiet edges before, between and after its own; and the same one in the other variant. -/
theorem test_hyp_TransactionDeliversItsResult :
    ∀ h ∈ [HexImpl.pipelined, HexImpl.parallel],
      let tx := Transaction.hexdec [0x34#8, 0x61#8]
      let ins := PortIn.quiet :: (tx.pins h ++ [PortIn.quiet])
      let s := { idleWith h PortIn.quiet with env := ⟨ins, Offers.silent, Offers.silent, []⟩ }
      s.block.mode = .idle ∧ s.clean ∧ tx.fits s.params.maxLen = true ∧ s.env.inputs = ins ++ [] ∧
      ins.filter (· ≠ PortIn.quiet) = tx.pins s.params.hexImpl := by decide

/-- The same instances, side by side. -/
theorem test_hyp_ResultsIgnoreHistoryVariantAndPace :
    let tx := Transaction.hexdec [0x34#8]
    let s := { idleWith .pipelined PortIn.quiet with env := ⟨tx.pins .pipelined, Offers.silent, Offers.silent, []⟩ }
    let s' := { idleWith .parallel PortIn.quiet with
      env := ⟨PortIn.quiet :: tx.pins .parallel, Offers.silent, Offers.silent, []⟩, nA := 9 }
    s.block.mode = .idle ∧ s.clean ∧ s'.block.mode = .idle ∧ s'.clean ∧
    tx.fits s.params.maxLen = true ∧ tx.fits s'.params.maxLen = true ∧
    s.env.inputs.filter (· ≠ PortIn.quiet) = tx.pins s.params.hexImpl ∧
    s'.env.inputs.filter (· ≠ PortIn.quiet) = tx.pins s'.params.hexImpl := by decide

/-- The script `HEX2B64 "41"`. -/
theorem test_hyp_ScriptsRunOnTheBlock :
    let txs := [Transaction.hexdec [0x34#8, 0x31#8], Transaction.b64enc [0x41#8]]
    let s := { idleWith .pipelined PortIn.quiet with
      env := ⟨txs.flatMap (Transaction.pins .pipelined), Offers.silent, Offers.silent, []⟩ }
    scriptFrom [] [.hex2b64 [0x34#8, 0x31#8]] = some (txs, [encodeBase64 [0x41#8]]) ∧
    s.block.mode = .idle ∧ s.clean ∧ (∀ tx ∈ txs, tx.fits s.params.maxLen = true) ∧
    s.env.inputs = (txs.flatMap fun tx => tx.pins s.params.hexImpl) ++ [] := by decide

theorem test_hyp_InvariantIsKept :
    (idleWith .parallel (PortIn.command 0b10#2)).Inv ∧ ∃ t, step (idleWith .parallel (PortIn.command 0b10#2)) = .next t :=
  ⟨test_reset_invariant _ _, _, rfl⟩

/-- Also the hypotheses of `ParametersAreFixed`. -/
theorem test_hyp_LengthInvariantIsKept :
    (idleWith .parallel (PortIn.command 0b10#2)).LengthInv ∧
    ∃ t, step (idleWith .parallel (PortIn.command 0b10#2)) = .next t :=
  ⟨by simp [State.LengthInv, bufferInv, capacityInv, idleWith, State.resetWith, Block.reset], _, rfl⟩

theorem test_hyp_ParametersAreFixed : ∃ t, step (idleWith .parallel PortIn.quiet) = .next t := ⟨_, rfl⟩

theorem test_hyp_InstancesCommute :
    let sys := [idleWith .parallel (PortIn.command 0b10#2), idleWith .pipelined (PortIn.command 0b11#2)]
    (0 : Nat) ≠ 1 ∧ ∃ sys1 sys2, stepInstance sys 0 = .next sys1 ∧ stepInstance sys1 1 = .next sys2 ∧ sys2 ≠ sys1 :=
  ⟨by decide, _, _, rfl, rfl, by decide⟩

theorem test_hyp_InterleavingGivesEachInstanceItsOwnRun :
    let sys := [idleWith .parallel (PortIn.command 0b10#2), idleWith .pipelined (PortIn.command 0b11#2)]
    (∃ sys', runInstances sys [0, 1, 1] = .next sys') ∧ sys[1]? = some (idleWith .pipelined (PortIn.command 0b11#2)) :=
  ⟨⟨_, rfl⟩, rfl⟩

end Sys2Proof.Tests
end

section
/-! PROOFS. Acceptance, Finish and result delivery (10_state.md R34 to R36). -/

namespace Sys2Proof.Proofs
open Sys2Proof Sys2Proof.Machine

/-! ## The result beat on offer -/

/-- Every beat of a result carries its status (20_memory.md R57). -/
@[simp] theorem resultBeat_status (s : State) : s.resultBeat.status = s.block.res.status.code := rfl

/-- An empty result is offered as one null beat (20_memory.md R57). -/
theorem resultBeat_cnt_of_nil {s : State} (h : s.block.res.seq = []) : s.resultBeat.cnt = 0#1 := by
  simp [State.resultBeat, h]

theorem resultBeat_last_of_nil {s : State} (h : s.block.res.seq = []) : s.resultBeat.last = true := by
  simp [State.resultBeat, h]

theorem resultBeat_cnt_of_ne_nil {s : State} (h : s.block.res.seq ≠ []) : s.resultBeat.cnt = 1#1 := by
  simp [State.resultBeat, h]

theorem resultBeat_data_of_getElem? {s : State} {v : Byte} (h : s.block.res.seq[s.block.rp]? = some v) :
    s.resultBeat.data = v := by
  simp [State.resultBeat, h]

/-- The end mark of a nonempty result is on its last element and on no other position. -/
theorem resultBeat_last_iff {s : State} (h : s.block.res.seq ≠ []) :
    s.resultBeat.last = true ↔ s.block.rp = s.block.res.seq.length - 1 := by
  have hpos : 0 < s.block.res.seq.length := List.length_pos_iff.mpr h
  simp only [State.resultBeat, Bool.or_eq_true, beq_iff_eq]
  omega

/-! ## When a result beat is taken -/

/-- No result beat is taken while the environment is not ready, nor at a reset edge (20_memory.md R53). -/
theorem takenR_eq_none {s : State} (h : s.pins.rReady = false ∨ s.pins.rst = true) : s.takenR = none := by
  rcases h with h | h <;> simp [State.takenR, h]

theorem takenR_of_ready {s : State} (hm : s.block.mode = .resp) (hready : s.pins.rReady = true)
    (hrst : s.pins.rst = false) : s.takenR = some s.resultBeat := by
  rw [takenR_resp hrst hm, if_pos hready]

/-! ## The statements -/

/-- Settles O6: an idle block answers every command with `State.accept`, whose registers the laws of the state give; the
reserved code and the three operations differ in `res`, `rp` and the mode alone. -/
theorem commandAcceptance : Obligations.CommandAcceptance := by
  intro i s hidle
  refine ⟨s.accept (encode i), exec_idle i hidle, ?_⟩
  by_cases hreserved : encode i = 3#2
  · simp [hreserved]
  · simp [hreserved]

/-- Settles O9: one case for the status `OK` and one for all the others. -/
theorem finishWritesTheResult : Obligations.FinishWritesTheResult := by
  intro b st
  refine ⟨?_, rfl, rfl, rfl⟩
  by_cases hok : st = .ok
  · simp [hok]
  · simp [hok]

/-- Settles O10: in `RESP` every instruction delivers; a beat that is taken is the one on offer, `State.resultBeat`. -/
theorem resultDelivery : Obligations.ResultDelivery := by
  intro i s hresp
  have hexec : exec i s = .next s.deliver := exec_resp i hresp
  constructor
  · intro hwait
    rw [hexec, deliver_not_taken (takenR_eq_none hwait)]
  · intro hready hrst
    have hdeliver := deliver_taken (takenR_of_ready hresp hready hrst)
    exact ⟨s.deliver, s.resultBeat, hexec, by rw [hdeliver], resultBeat_status s,
      fun hnil => ⟨resultBeat_cnt_of_nil hnil, resultBeat_last_of_nil hnil⟩,
      fun hne => ⟨resultBeat_cnt_of_ne_nil hne, fun _ => resultBeat_data_of_getElem?, resultBeat_last_iff hne⟩,
      by rw [hdeliver]⟩

end Sys2Proof.Proofs
end

section
/-! PROOFS. The readies of the operand streams (20_memory.md R55). -/

namespace Sys2Proof.Proofs
open Sys2Proof Sys2Proof.Machine

/-! ## Which operation reads its operands -/

theorem solo_eq_false_of_mode {b : Block} (hm : b.mode ≠ .run) : solo b = false := by simp [solo, hm]

theorem runXorc_eq_false_of_mode {b : Block} (hm : b.mode ≠ .run) : runXorc b = false := by simp [runXorc, hm]

theorem solo_eq_false_of_op {b : Block} (h0 : b.op ≠ 0#2) (h1 : b.op ≠ 1#2) : solo b = false := by
  simp [solo, h0, h1]

theorem runXorc_eq_false_of_op {b : Block} (hop : b.op ≠ 2#2) : runXorc b = false := by simp [runXorc, hop]

theorem runXorc_of_op {b : Block} (hm : b.mode = .run) (hop : b.op = 2#2) : runXorc b = true := by
  simp [runXorc, hm, hop]

theorem runXorc_eq_false_of_solo {b : Block} (h : solo b = true) : runXorc b = false := by
  by_cases hop : b.op = 2#2
  · rw [solo_eq_false_of_op (by simp [hop]) (by simp [hop])] at h
    cases h
  · exact runXorc_eq_false_of_op hop

/-! ## The readies -/

/-- A block that reads no operand is ready for neither stream. -/
theorem readies_of_closed {b : Block} (hs : solo b = false) (hx : runXorc b = false) (av bv : Bool) :
    aReady b bv = false ∧ bReady b av = false := by
  simp [aReady, bReady, joint, hs, hx]

/-- HEXDEC and B64ENC are always ready for stream A, and never for stream B. -/
theorem readies_of_solo {b : Block} (hs : solo b = true) (av bv : Bool) :
    aReady b bv = true ∧ bReady b av = false := by
  simp [aReady, bReady, joint, hs, runXorc_eq_false_of_solo hs]

/-- XORC is ready for a stream that has not ended, once the other one has ended or offers a beat. -/
theorem readies_of_runXorc {b : Block} (hx : runXorc b = true) (av bv : Bool) :
    aReady b bv = (!b.adone && (b.bdone || bv)) ∧ bReady b av = (!b.bdone && (b.adone || av)) := by
  have hs : solo b = false := by
    by_contra h
    simp [runXorc_eq_false_of_solo (Bool.eq_true_of_not_eq_false h)] at hx
  simp only [aReady, bReady, joint, hs, hx]
  cases b.adone <;> cases b.bdone <;> simp

/-! ## The statement -/

/-- Settles O20: the block reads no operand, or stream A alone, or both as XORC does; for XORC the four phases are values of
the one rule. -/
theorem operandReadies : Obligations.OperandReadies := by
  intro b av bv
  refine ⟨fun hm => readies_of_closed (solo_eq_false_of_mode hm) (runXorc_eq_false_of_mode hm) av bv,
    fun hm => ⟨fun hop => readies_of_solo (solo_of_op hm hop) av bv, fun hop => ?xorc, fun hop => ?reserved⟩⟩
  case xorc =>
    obtain ⟨ha, hb⟩ := readies_of_runXorc (runXorc_of_op hm hop) av bv
    rw [ha, hb]
    refine ⟨?_, ?_, ?_, ?_⟩ <;> intro hadone hbdone <;> simp [hadone, hbdone]
  case reserved =>
    exact readies_of_closed (solo_eq_false_of_op (by simp [hop]) (by simp [hop]))
      (runXorc_eq_false_of_op (by simp [hop])) av bv

end Sys2Proof.Proofs
end

section
/-! PROOFS. The reserved code (30_encoding.md R76). -/

namespace Sys2Proof.Proofs
open Sys2Proof Sys2Proof.Machine

/-- An empty result is delivered by its one null beat: the block is idle as soon as that beat is taken (10_state.md R36). -/
theorem exec_empty_result_delivered (i : Instr) {s : State} (hresp : s.block.mode = .resp)
    (hempty : s.block.res.seq = []) (hrst : s.pins.rst = false) (hready : s.pins.rReady = true) :
    ∃ u, exec i s = .next u ∧ u.block.mode = .idle ∧ u.env.taken = s.env.taken ++ [s.resultBeat] := by
  have hdeliver := deliver_taken (takenR_of_ready hresp hready hrst)
  rw [if_pos (resultBeat_last_of_nil hempty)] at hdeliver
  exact ⟨s.deliver, exec_resp i hresp, by rw [hdeliver], by rw [hdeliver]⟩

/-- Settles O8: acceptance of the reserved code opens `RESP` with the empty result of status `ILLEGAL_OP`. Outside `RUN` no
operand beat is taken, and an empty result is offered and delivered as one null beat. -/
theorem reservedCodeAnswersIllegalOp : Obligations.ReservedCodeAnswersIllegalOp := by
  intro s hidle
  let t := s.accept (encode .illegal)
  have hresp : t.block.mode = .resp := by simp [t, encode]
  have hres : t.block.res = ⟨.illegalOp, []⟩ := by simp [t, encode]
  have hempty : t.block.res.seq = [] := by rw [hres]
  have hclosed : t.block.mode ≠ .run := by simp [hresp]
  have hstatus : t.resultBeat.status = 3#2 := by rw [resultBeat_status, hres]; rfl
  exact ⟨t, exec_idle .illegal hidle, hresp, hres, takenA_eq_none_of_mode hclosed, takenB_eq_none_of_mode hclosed,
    ⟨hstatus, resultBeat_cnt_of_nil hempty, resultBeat_last_of_nil hempty⟩,
    exec_empty_result_delivered .illegal hresp hempty⟩

end Sys2Proof.Proofs
end

section
/-! PROOFS. The beat steps of HEXDEC in both variants (40_hexdec.md R106, R107). -/

namespace Sys2Proof.Proofs
open Sys2Proof Sys2Proof.Machine

/-! ## A beat that is taken -/

/-- HEXDEC takes a beat on offer that the framing rules and `MAX_LEN` allow (20_memory.md R55). -/
theorem exec_hexdec_taken {s : State} {a : ABeat} (hm : s.block.mode = .run) (hop : s.block.op = 0#2)
    (hrst : s.pins.rst = false) (hoffer : s.pins.offers.a = some a)
    (hframed : framingOk (laneWidth s.params.hexImpl 0#2) s.nA a.beat = true)
    (hmax : withinMax s.params.maxLen (s.nA + a.beat.cnt) = true) :
    exec .hexdec s = .next (hexdecStep a.beat { s with nA := s.nA + a.beat.cnt }) := by
  have htaken : s.takenA = some a := (takenA_solo hrst (solo_of_op hm (.inl hop))).trans hoffer
  rw [exec_hexdec_run hm hop, takeA_some htaken (beatProblem_eq_none.mpr ⟨hframed, hmax⟩)]

theorem hexdecStep_block_pipelined {s : State} (hi : s.params.hexImpl = .pipelined) (beat : Beat) (n : Nat) :
    (hexdecStep beat { s with nA := n }).block = s.block.hexdecPipelined beat (Config.freeNibble s.free) := by
  simp [hexdecStep, hi]

theorem hexdecStep_block_parallel {s : State} (hi : s.params.hexImpl = .parallel) (beat : Beat) (n : Nat) :
    (hexdecStep beat { s with nA := n }).block = s.block.hexdecParallel beat := by
  simp [hexdecStep, hi]

/-- A framed beat of one lane is null or carries one element (20_memory.md R52). -/
theorem cnt_cases_of_framed_one {n : Nat} {a : ABeat} (h : framingOk 1 n a.beat = true) : a.cnt = 0#2 ∨ a.cnt = 1#2 := by
  have hle : a.cnt.toNat ≤ 1 := (framingOk_iff.mp h).1
  bv_omega

/-- A framed beat of two lanes is null, half or full (R52). -/
theorem cnt_cases_of_framed_two {n : Nat} {a : ABeat} (h : framingOk 2 n a.beat = true) :
    a.cnt = 0#2 ∨ a.cnt = 1#2 ∨ a.cnt = 2#2 := by
  have hle : a.cnt.toNat ≤ 2 := (framingOk_iff.mp h).1
  bv_omega

/-! ## The result buffer and the end of a step -/

/-- What both variants append goes to the result buffer, and only while no error was raised. -/
theorem append_unless (b : Block) (e : Bool) (vs : List Byte) :
    (if e then b else b.append vs) = { b with out := if !e then b.out ++ vs else b.out } := by
  cases e <;> rfl

/-- With the last mark a step writes the result and nothing else (10_state.md R35). -/
@[simp] theorem hexdecEnd_last (e : Bool) (b : Block) :
    hexdecEnd true e b =
      { b with rp := 0, mode := .resp, res := if e then ⟨.decodeError, []⟩ else ⟨.ok, b.out⟩ } := by
  cases e <;> rfl

@[simp] theorem hexdecEnd_more (e : Bool) (b : Block) : hexdecEnd false e b = { b with err := e } := rfl

/-! ## The step under PIPELINED, by what the beat brings -/

theorem hexdecPipelined_null {b : Block} {beat : Beat} (hlane : beat.lane = []) (junk : Nibble) :
    b.hexdecPipelined beat junk = hexdecEnd beat.last (b.err || (beat.last && b.ph)) b := by
  simp [Block.hexdecPipelined, raiseIf, hlane]

/-- A high digit is held; with the last mark it is a digit without its pair. -/
theorem hexdecPipelined_high {b : Block} {beat : Beat} {x : Byte} (hlane : beat.lane = [x]) (hph : b.ph = false)
    (junk : Nibble) :
    b.hexdecPipelined beat junk =
      if beat.last then hexdecEnd true true { b with hn := (nib x).getD junk }
      else hexdecEnd false (b.err || (nib x).isNone) { b with hn := (nib x).getD junk, ph := true } := by
  simp [Block.hexdecPipelined, hexdecChar, raiseIf, hlane, hph]

/-- A low digit completes a byte, which is appended unless an error was raised. -/
theorem hexdecPipelined_low {b : Block} {beat : Beat} {x : Byte} (hlane : beat.lane = [x]) (hph : b.ph = true)
    (junk : Nibble) :
    b.hexdecPipelined beat junk =
      let e := b.err || (nib x).isNone
      let out := if !e then b.out ++ [b.hn ++ (nib x).getD 0#4] else b.out
      if beat.last then hexdecEnd true e { b with out := out }
      else hexdecEnd false e { b with out := out, ph := false } := by
  simp only [Block.hexdecPipelined, hexdecChar, append_unless, pairByte, hlane, hph, if_true]
  simp only [raiseIf, Bool.or_false]
  rfl

/-- Settles O11: the framed beat is null, or a high digit, or a low digit. -/
theorem hexdecPipelinedBeat : Obligations.HexdecPipelinedBeat := by
  intro s a hm hop hi hrst hoffer hframed hmax b v one e p out
  refine ⟨_, exec_hexdec_taken hm hop hrst hoffer (by rwa [hi]) hmax, ?_⟩
  rw [hexdecStep_block_pipelined hi]
  rcases cnt_cases_of_framed_one hframed with hnull | hchar
  case inl =>
    rw [hexdecPipelined_null (ABeat.beat_lane_zero hnull)]
    cases hlast : a.last <;> simp [b, e, p, out, one, hnull, hlast]
  case inr =>
    have hlane := ABeat.beat_lane_one hchar
    cases hph : s.block.ph
    case false =>
      rw [hexdecPipelined_high hlane hph]
      cases hlast : a.last <;> simp +contextual [b, e, p, out, one, v, hchar, hlane, hlast, hph]
    case true =>
      rw [hexdecPipelined_low hlane hph]
      cases hlast : a.last <;> simp [b, e, p, out, one, v, hchar, hlane, hlast, hph]

/-! ## The step under PARALLEL, by what the beat brings -/

theorem hexdecParallel_null {b : Block} {beat : Beat} (hlane : beat.lane = []) :
    b.hexdecParallel beat = hexdecEnd beat.last b.err b := by
  simp [Block.hexdecParallel, hlane]

/-- A half beat is the end of a text of odd length. -/
theorem hexdecParallel_half {b : Block} {beat : Beat} {x : Byte} (hlane : beat.lane = [x]) :
    b.hexdecParallel beat = hexdecEnd beat.last true b := by
  simp [Block.hexdecParallel, raiseIf, hlane]

/-- A full beat with an invalid digit raises the error. -/
theorem hexdecParallel_full_invalid {b : Block} {beat : Beat} {x y : Byte} (hlane : beat.lane = [x, y])
    (hbad : nib x = none ∨ nib y = none) : b.hexdecParallel beat = hexdecEnd beat.last true b := by
  rcases hbad with hx | hy
  · simp [Block.hexdecParallel, raiseIf, hlane, hx]
  · cases hx : nib x <;> simp [Block.hexdecParallel, raiseIf, hlane, hx, hy]

/-- A full beat of two valid digits is a byte, which is appended unless an error was raised. -/
theorem hexdecParallel_full_valid {b : Block} {beat : Beat} {x y : Byte} {vx vy : Nibble} (hlane : beat.lane = [x, y])
    (hx : nib x = some vx) (hy : nib y = some vy) :
    b.hexdecParallel beat =
      hexdecEnd beat.last b.err { b with out := if !b.err then b.out ++ [vx ++ vy] else b.out } := by
  simp only [Block.hexdecParallel, hlane, hx, hy, append_unless, pairByte]

/-- Settles O12: the framed beat is null, half or full. -/
theorem hexdecParallelBeat : Obligations.HexdecParallelBeat := by
  intro s a hm hop hi hrst hoffer hframed hmax b h l two bad e out
  refine ⟨_, exec_hexdec_taken hm hop hrst hoffer (by rwa [hi]) hmax, ?_⟩
  rw [hexdecStep_block_parallel hi]
  rcases cnt_cases_of_framed_two hframed with hnull | hhalf | hfull
  · rw [hexdecParallel_null (ABeat.beat_lane_zero hnull)]
    cases hlast : a.last <;> simp [b, e, out, two, bad, hnull, hlast]
  · rw [hexdecParallel_half (ABeat.beat_lane_one hhalf)]
    cases hlast : a.last <;> simp [b, e, out, two, bad, hhalf, hlast]
  · have hlane : a.beat.lane = [a.data.extractLsb' 0 8, a.data.extractLsb' 8 8] := ABeat.beat_lane_two hfull
    rcases Option.eq_none_or_eq_some h with hx | ⟨vx, hx⟩
    · rw [hexdecParallel_full_invalid hlane (.inl hx)]
      cases hlast : a.last <;> simp [b, e, out, two, bad, hfull, hlast, hx]
    rcases Option.eq_none_or_eq_some l with hy | ⟨vy, hy⟩
    · rw [hexdecParallel_full_invalid hlane (.inr hy)]
      cases hlast : a.last <;> simp [b, e, out, two, bad, hfull, hlast, hy]
    · rw [hexdecParallel_full_valid hlane hx hy]
      cases hlast : a.last <;> simp [b, e, out, two, bad, hfull, hlast, hx, hy]

end Sys2Proof.Proofs
end

section
/-! PROOFS. The errors of `decode_hex` (40_hexdec.md R102, R103). -/

namespace Sys2Proof.Proofs
open Sys2Proof Sys2Proof.Machine

theorem decodeHex_of_odd {t : List Byte} (h : t.length % 2 = 1) : decodeHex t = ⟨.decodeError, []⟩ := by
  simp [decodeHex, h]

theorem decodeHex_of_hexPairs_none {t : List Byte} (h : hexPairs t = none) : decodeHex t = ⟨.decodeError, []⟩ := by
  simp [decodeHex, h]

/-- A pair fails the loop of R100 when one of its digits is invalid or the rest fails. -/
theorem hexPairs_cons_cons_eq_none {x y : Byte} {rest : List Byte} :
    hexPairs (x :: y :: rest) = none ↔ nib x = none ∨ nib y = none ∨ hexPairs rest = none := by
  cases hx : nib x <;> cases hy : nib y <;> cases hr : hexPairs rest <;> simp [hexPairs, hx, hy, hr]

/-- The loop of R100 over an even text fails at an invalid character, wherever it stands. -/
theorem hexPairs_eq_none_of_mem {t : List Byte} (heven : t.length % 2 = 0) {c : Byte} (hc : c ∈ t)
    (hinvalid : nib c = none) : hexPairs t = none := by
  induction t using List.twoStepInduction with
  | nil => cases hc
  | singleton x => simp at heven
  | cons_cons x y rest ih =>
    rw [hexPairs_cons_cons_eq_none]
    simp only [List.mem_cons] at hc
    rcases hc with rfl | rfl | hrest
    · exact .inl hinvalid
    · exact .inr (.inl hinvalid)
    · exact .inr (.inr (ih (by simp only [List.length_cons] at heven; omega) hrest))

/-- Settles O37: an odd length is tested before the loop; at an even length the loop meets the invalid character. -/
theorem hexErrors : Obligations.HexErrors := by
  intro t
  refine ⟨decodeHex_of_odd, fun ⟨c, hc, hinvalid⟩ => ?_⟩
  rcases Nat.mod_two_eq_zero_or_one t.length with heven | hodd
  · exact decodeHex_of_hexPairs_none (hexPairs_eq_none_of_mem heven hc hinvalid)
  · exact decodeHex_of_odd hodd

end Sys2Proof.Proofs
end

section
/-! PROOFS. The beat step of B64ENC (41_b64enc.md R127). -/

namespace Sys2Proof.Proofs
open Sys2Proof Sys2Proof.Machine

/-! ## A beat that is taken -/

/-- B64ENC takes a beat on offer that the framing rules and `MAX_LEN` allow (20_memory.md R55), while `gc` is a value that
is held between steps (10_state.md R29). -/
theorem exec_b64enc_taken {s : State} {x : ABeat} (hm : s.block.mode = .run) (hop : s.block.op = 1#2)
    (hgc : s.block.gc.toNat ≤ 2) (hrst : s.pins.rst = false) (hoffer : s.pins.offers.a = some x)
    (hframed : framingOk 1 s.nA x.beat = true) (hmax : withinMax s.params.maxLen (s.nA + x.beat.cnt) = true) :
    exec .b64enc s = .next { s with nA := s.nA + x.beat.cnt, block := s.block.b64enc x.beat } := by
  have htaken : s.takenA = some x := (takenA_solo hrst (solo_of_op hm (.inr hop))).trans hoffer
  have hheld : s.block.gc ≠ 3#2 := by bv_omega
  rw [exec_b64enc_run hm hop, laneWidth_b64enc, takeA_some htaken (beatProblem_eq_none.mpr ⟨hframed, hmax⟩)]
  exact if_neg fun hfault => hheld hfault.1

/-! ## The characters of a group and the end of a step -/

/-- `EmitGroup` position by position, with the field and the pad written out (41_b64enc.md R123). -/
theorem emitGroup_eq_map (a : Acc) (m : Nat) :
    emitGroup a m = (List.range 4).map fun i =>
      if 6 * i < 8 * m then alpha (a.extractLsb' (18 - 6 * i) 6) else 0x3D#8 := rfl

/-- With the last mark a step emits the group that is begun, if any, and writes the result; `acc` and `gc` stay. -/
@[simp] theorem b64encEnd_last (a : Acc) (g : Nat) (b : Block) :
    b64encEnd true a g b =
      let out := if g = 0 then b.out else b.out ++ emitGroup a g
      { b with out := out, rp := 0, mode := .resp, res := ⟨.ok, out⟩ } := by
  by_cases hg : g = 0
  · simp [b64encEnd, hg, Block.finish]
  · simp [b64encEnd, hg, Block.finish, Block.append]

@[simp] theorem b64encEnd_more (a : Acc) (g : Nat) (b : Block) :
    b64encEnd false a g b = { b with acc := a, gc := BitVec.ofNat 2 g } := rfl

/-! ## The step, by what the beat brings -/

theorem b64enc_null {b : Block} {beat : Beat} (hlane : beat.lane = []) :
    b.b64enc beat = b64encEnd beat.last b.acc b.gc.toNat b := by
  simp [Block.b64enc, hlane]

/-- The third byte of a group emits its four characters and clears the group. -/
theorem b64enc_third_byte {b : Block} {beat : Beat} {x : Byte} (hlane : beat.lane = [x]) (hthird : b.gc.toNat = 2) :
    b.b64enc beat = b64encEnd beat.last 0#24 0 (b.append (emitGroup (placeByte b.acc x b.gc.toNat) 3)) := by
  simp [Block.b64enc, hlane, hthird]

/-- A byte that does not complete its group is placed in the accumulator. -/
theorem b64enc_early_byte {b : Block} {beat : Beat} {x : Byte} (hlane : beat.lane = [x]) (hearly : b.gc.toNat ≠ 2) :
    b.b64enc beat = b64encEnd beat.last (placeByte b.acc x b.gc.toNat) (b.gc.toNat + 1) b := by
  simp [Block.b64enc, hlane, hearly]

/-- Settles O13: the framed beat is null, or the third byte of its group, or an earlier one. -/
theorem b64encBeat : Obligations.B64encBeat := by
  intro s x hm hop hgc hrst hoffer hframed hmax b emit one a1 g1 out1 a2 g2 out2
  refine ⟨_, exec_b64enc_taken hm hop hgc hrst hoffer hframed hmax, ?_⟩
  have hemit (a : Acc) (m : Nat) : emit a m = emitGroup a m := (emitGroup_eq_map a m).symm
  rcases cnt_cases_of_framed_one hframed with hnull | hbyte
  case inl =>
    rw [b64enc_null (ABeat.beat_lane_zero hnull)]
    cases hlast : x.last <;> simp [b, one, a1, g1, out1, a2, g2, out2, hemit, hnull, hlast]
  case inr =>
    have hlane := ABeat.beat_lane_one hbyte
    have hplace : a1 = placeByte s.block.acc x.lane0 s.block.gc.toNat := if_pos (by simp [one, hbyte])
    by_cases hthird : s.block.gc.toNat = 2
    case pos =>
      rw [b64enc_third_byte hlane hthird]
      cases hlast : x.last <;>
        simp [b, one, g1, out1, a2, g2, out2, hemit, hplace, hbyte, hlast, hthird, Block.append]
    case neg =>
      rw [b64enc_early_byte hlane hthird]
      cases hlast : x.last <;> simp [b, one, g1, out1, a2, g2, out2, hemit, hplace, hbyte, hlast, hthird]

end Sys2Proof.Proofs
end

section
/-! PROOFS. The beat steps of XORC: the joint step and the drain (42_xorc.md R146, R147). -/

namespace Sys2Proof.Proofs
open Sys2Proof Sys2Proof.Machine

/-! ## Beats that are taken -/

theorem joint_of_neither_done {b : Block} (hm : b.mode = .run) (hop : b.op = 2#2) (hadone : b.adone = false)
    (hbdone : b.bdone = false) : joint b = true := by
  simp [joint, runXorc_of_op hm hop, hadone, hbdone]

/-- In the joint phase XORC takes two beats on offer that the framing rules and `MAX_LEN` allow, at the same edge
(20_memory.md R55). -/
theorem exec_xorc_joint_taken {s : State} {x : ABeat} {y : BBeat} (hm : s.block.mode = .run) (hop : s.block.op = 2#2)
    (hadone : s.block.adone = false) (hbdone : s.block.bdone = false) (hrst : s.pins.rst = false)
    (hofferA : s.pins.offers.a = some x) (hofferB : s.pins.offers.b = some y)
    (hproblemA : beatProblem .illFramedA s.params.maxLen 1 s.nA x.beat = none)
    (hproblemB : beatProblem .illFramedB s.params.maxLen 1 s.nB y.beat = none) :
    exec .xorc s = .next { s with
      nA := s.nA + x.beat.cnt, nB := s.nB + y.beat.cnt, block := s.block.xorcJoint x.beat y.beat } := by
  obtain ⟨htakenA, htakenB⟩ := taken_joint hrst (joint_of_neither_done hm hop hadone hbdone)
  simp only [hofferA, hofferB, Option.isSome_some, if_true] at htakenA htakenB
  have hstep : xorcStep s = xorcJointStep s := by simp only [xorcStep, hadone, hbdone]
  have hboth : s.takenB.isNone = false := by rw [htakenB]; rfl
  have htakenB' := (takenB_withA s (s.nA + x.beat.cnt)).trans htakenB
  rw [exec_xorc_run hm hop, hstep, xorcJointStep, hboth, if_neg Bool.false_ne_true, laneWidth_xorc,
    takeA_some htakenA hproblemA, takeB_some htakenB' hproblemB]

/-- Once stream B has ended XORC takes a beat of stream A that the framing rules and `MAX_LEN` allow. -/
theorem exec_xorc_drainA_taken {s : State} {x : ABeat} (hm : s.block.mode = .run) (hop : s.block.op = 2#2)
    (hadone : s.block.adone = false) (hbdone : s.block.bdone = true) (htaken : s.takenA = some x)
    (hproblem : beatProblem .illFramedA s.params.maxLen 1 s.nA x.beat = none) :
    exec .xorc s = .next { s with nA := s.nA + x.beat.cnt, block := s.block.xorcDrain x.beat } := by
  have hstep : xorcStep s = xorcDrainA s := by simp only [xorcStep, hadone, hbdone]
  rw [exec_xorc_run hm hop, hstep, xorcDrainA, laneWidth_xorc, takeA_some htaken hproblem]

/-- Once stream A has ended XORC takes a beat of stream B that the framing rules and `MAX_LEN` allow. -/
theorem exec_xorc_drainB_taken {s : State} {y : BBeat} (hm : s.block.mode = .run) (hop : s.block.op = 2#2)
    (hadone : s.block.adone = true) (hbdone : s.block.bdone = false) (htaken : s.takenB = some y)
    (hproblem : beatProblem .illFramedB s.params.maxLen 1 s.nB y.beat = none) :
    exec .xorc s = .next { s with nB := s.nB + y.beat.cnt, block := s.block.xorcDrain y.beat } := by
  have hstep : xorcStep s = xorcDrainB s := by simp only [xorcStep, hadone, hbdone]
  rw [exec_xorc_run hm hop, hstep, xorcDrainB, takeB_some htaken hproblem]

/-! ## What the steps write -/

/-- Two lanes combine exactly when both beats carry an element. -/
theorem xorLanes_of_framed {n : Nat} {x : ABeat} (hframed : framingOk 1 n x.beat = true) (y : BBeat) :
    xorLanes x.beat.lane y.beat.lane =
      if x.cnt.toNat = 1 ∧ y.cnt.toNat = 1 then [x.data.extractLsb' 0 8 ^^^ y.data] else [] := by
  rcases cnt_cases_of_framed_one hframed with hx | hx
  · simp [ABeat.beat_lane_zero hx, xorLanes, hx]
  · rcases count_cases y.cnt with hy | hy
    · simp [ABeat.beat_lane_one hx, BBeat.beat_lane_zero hy, xorLanes, hy]
    · simp [ABeat.beat_lane_one hx, BBeat.beat_lane_one hy, xorLanes, hx, hy, ABeat.lane0]

/-- `Finish` at the end of a joint step (10_state.md R35): the error gives the empty result. -/
theorem finish_mismatch (e : Bool) (b : Block) :
    b.finish (endStatus .lengthMismatchError e) =
      { b with rp := 0, mode := .resp, res := if e then ⟨.lengthMismatchError, []⟩ else ⟨.ok, b.out⟩ } := by
  cases e <;> rfl

/-- The joint step register by register: with both last marks it writes the result, else the three flags. -/
theorem xorcJoint_eq (b : Block) (ba bb : Beat) :
    b.xorcJoint ba bb =
      let out := if !b.err then b.out ++ xorLanes ba.lane bb.lane else b.out
      let e := b.err || mismatch ba.cnt bb.cnt ba.last bb.last
      if ba.last && bb.last then
        { b with out := out, rp := 0, mode := .resp, res := if e then ⟨.lengthMismatchError, []⟩ else ⟨.ok, out⟩ }
      else { b with out := out, err := e, adone := ba.last, bdone := bb.last } := by
  simp only [Block.xorcJoint, append_unless, finish_mismatch, raiseIf]

/-- The drain step register by register: the last mark writes the error result, any other beat nothing. -/
theorem xorcDrain_eq (b : Block) (beat : Beat) :
    b.xorcDrain beat =
      if beat.last then { b with res := ⟨.lengthMismatchError, []⟩, rp := 0, mode := .resp } else b := rfl

/-! ## The statements -/

/-- Settles O15: both beats are taken, the lanes combine when both carry an element, and the rest is `xorcJoint_eq`. -/
theorem xorcJointStep : Obligations.XorcJointStep := by
  intro s x y hm hop hadone hbdone hrst hofferA hofferB hframedA hframedB hmaxA hmaxB b ca cb out e
  have hexec := exec_xorc_joint_taken hm hop hadone hbdone hrst hofferA hofferB
    (beatProblem_eq_none.mpr ⟨hframedA, hmaxA⟩) (beatProblem_eq_none.mpr ⟨hframedB, hmaxB⟩)
  refine ⟨_, hexec, ?_⟩
  have hout : (if !b.err then b.out ++ xorLanes x.beat.lane y.beat.lane else b.out) = out := by
    rw [xorLanes_of_framed hframedA]
    by_cases hboth : ca = 1 ∧ cb = 1
    · simp [out, ca, cb, hboth]
    · simp [out, ca, cb, hboth]
  have herr : (b.err || mismatch ca cb x.last y.last) = e := (Bool.or_assoc ..).symm
  rw [xorcJoint_eq, ← hout, ← herr]
  rfl

/-- Settles O16: one clause per stream; in its drain a stream is taken alone. -/
theorem xorcDrainStep : Obligations.XorcDrainStep := by
  constructor
  · intro s x hm hop hadone hbdone hrst hoffer hframed hmax
    obtain ⟨htakenA, htakenB⟩ := taken_drainA hrst hm hop hadone hbdone
    have htaken := htakenA.trans hoffer
    exact ⟨htaken, htakenB, _,
      exec_xorc_drainA_taken hm hop hadone hbdone htaken (beatProblem_eq_none.mpr ⟨hframed, hmax⟩),
      xorcDrain_eq s.block x.beat⟩
  · intro s y hm hop hadone hbdone hrst hoffer hframed hmax
    obtain ⟨htakenA, htakenB⟩ := taken_drainB hrst hm hop hadone hbdone
    have htaken := htakenB.trans hoffer
    exact ⟨htakenA, htaken, _,
      exec_xorc_drainB_taken hm hop hadone hbdone htaken (beatProblem_eq_none.mpr ⟨hframed, hmax⟩),
      xorcDrain_eq s.block y.beat⟩

end Sys2Proof.Proofs
end

section
/-! PROOFS. The contract of `xor_combine` (42_xorc.md R141, R142). -/

namespace Sys2Proof.Proofs
open Sys2Proof Sys2Proof.Machine

theorem xorCombine_of_length_ne {a b : List Byte} (h : a.length ≠ b.length) :
    xorCombine a b = ⟨.lengthMismatchError, []⟩ := if_pos h

theorem xorCombine_of_length_eq {a b : List Byte} (h : a.length = b.length) :
    xorCombine a b = ⟨.ok, List.zipWith (· ^^^ ·) a b⟩ := if_neg (not_not_intro h)

/-- Settles O43: at equal lengths each byte is the exclusive-or of the two bytes at its position, bit by bit. -/
theorem xorContract : Obligations.XorContract := by
  intro a b
  refine ⟨xorCombine_of_length_ne, fun hlength => ?_⟩
  refine ⟨List.zipWith (· ^^^ ·) a b, xorCombine_of_length_eq hlength, ?_, fun k x y hx hy => ?_⟩
  · rw [List.length_zipWith, ← hlength, min_self]
  · have hbyte : (List.zipWith (· ^^^ ·) a b)[k]? = some (x ^^^ y) := by simp [List.getElem?_zipWith, hx, hy]
    exact ⟨x ^^^ y, hbyte, fun _ => BitVec.getLsbD_xor⟩

end Sys2Proof.Proofs
end

section
/-! PROOFS. The reset edge (70_reset_and_hazards.md R190). -/

namespace Sys2Proof.Proofs
open Sys2Proof Sys2Proof.Machine

/-- The port rules are not checked at an edge with `rst = 1`, whatever is held or stale (log 7, log 8). -/
theorem portProblem_eq_none_of_reset {s : State} (hrst : s.pins.rst = true) : s.portProblem = none := if_pos hrst

/-- At an edge with `rst = 1` every state steps to its reset edge (60_exceptions.md R168). -/
theorem step_of_reset {s : State} (hrst : s.pins.rst = true) : step s = .next (resetEdge s) := by
  rw [step, portProblem_eq_none_of_reset hrst]
  exact if_pos hrst

/-- Settles O31: the step is the reset edge, whose registers are those of `Block.reset`. -/
theorem resetEdge : Obligations.ResetEdge := by
  intro s hrst
  obtain ⟨hcmd, ha, hb, hr⟩ := taken_reset hrst
  refine ⟨hcmd, ha, hb, hr, _, step_of_reset hrst, ?_⟩
  rw [resetEdge_block]
  simp [Status.code]

end Sys2Proof.Proofs
end

section
/-! PROOFS. Edges at which the environment is on time: every offer is taken at the edge at which it is made, so nothing is
held from one edge to the next. A path is a list of such edges, and quiet edges may be put anywhere between them. -/

namespace Sys2Proof.Proofs
open Sys2Proof Sys2Proof.Machine

/-! ## The inputs that are still to come -/

/-- `s` with the inputs `ps` still to come. -/
def withInputs (s : State) (ps : List PortIn) : State := { s with env := { s.env with inputs := ps } }

@[simp] theorem withInputs_block (s : State) (ps : List PortIn) : (withInputs s ps).block = s.block := rfl
@[simp] theorem withInputs_nA (s : State) (ps : List PortIn) : (withInputs s ps).nA = s.nA := rfl
@[simp] theorem withInputs_nB (s : State) (ps : List PortIn) : (withInputs s ps).nB = s.nB := rfl
@[simp] theorem withInputs_free (s : State) (ps : List PortIn) : (withInputs s ps).free = s.free := rfl
@[simp] theorem withInputs_params (s : State) (ps : List PortIn) : (withInputs s ps).params = s.params := rfl
@[simp] theorem withInputs_inputs (s : State) (ps : List PortIn) : (withInputs s ps).env.inputs = ps := rfl
@[simp] theorem withInputs_taken (s : State) (ps : List PortIn) : (withInputs s ps).env.taken = s.env.taken := rfl
@[simp] theorem withInputs_held (s : State) (ps : List PortIn) : (withInputs s ps).env.held = s.env.held := rfl
@[simp] theorem withInputs_stale (s : State) (ps : List PortIn) : (withInputs s ps).env.stale = s.env.stale := rfl

theorem withInputs_self {s : State} {ps : List PortIn} (h : s.env.inputs = ps) : withInputs s ps = s := by
  subst h; rfl

@[simp] theorem pins_withInputs (s : State) (p : PortIn) (rest : List PortIn) :
    (withInputs s (p :: rest)).pins = { p with offers := p.offers.wired s.params.hexImpl } := pins_cons rfl

/-! ## One step from a clean state -/

theorem portProblem_of_clean {s : State} (h : s.clean) : s.portProblem = none := by
  obtain ⟨hheld, hstale⟩ := h
  simp [State.portProblem, stillOffered, withdrawn, hheld, hstale, Offers.silent]

theorem step_of_due {s : State} {c : Code} (hport : s.portProblem = none) (hrst : s.pins.rst = false)
    (hdue : s.dueCommand = some c) : step s = closeEdge s (exec (decode c) s) := by
  simp [step, hport, hrst, hdue]

theorem step_of_none_due {s : State} (hport : s.portProblem = none) (hrst : s.pins.rst = false)
    (hdue : s.dueCommand = none) : step s = .next (finishEdge s s) := by
  simp [step, hport, hrst, hdue]

/-- At the end of an edge that took every offer nothing is held, and only the inputs have moved on. -/
theorem finishEdge_of_all_taken {s t : State} {p : PortIn} {rest : List PortIn} (hclean : t.clean)
    (htaken : (withInputs s (p :: rest)).untaken = Offers.silent) :
    finishEdge (withInputs s (p :: rest)) (withInputs t (p :: rest)) = withInputs t rest := by
  obtain ⟨block, ⟨inputs, held, stale, taken⟩, nA, nB, free, params⟩ := t
  obtain ⟨rfl, rfl⟩ : held = Offers.silent ∧ stale = Offers.silent := hclean
  rw [finishEdge, htaken]
  rfl

/-! ## Edges -/

/-- At the input `p` the step from `s` answers `t`, whatever inputs follow, and nothing is held after it. -/
def Edge (s : State) (p : PortIn) (t : State) : Prop :=
  t.clean ∧ ∀ rest, step (withInputs s (p :: rest)) = .next (withInputs t rest)

/-- An edge at which the instruction that is due takes every offer. -/
theorem edge_of_exec {s t : State} {p : PortIn} {c : Code} (hclean : s.clean) (htclean : t.clean) (hrst : p.rst = false)
    (hdue : ∀ rest, (withInputs s (p :: rest)).dueCommand = some c)
    (hexec : ∀ rest, exec (decode c) (withInputs s (p :: rest)) = .next (withInputs t (p :: rest)))
    (htaken : ∀ rest, (withInputs s (p :: rest)).untaken = Offers.silent) : Edge s p t := by
  refine ⟨htclean, fun rest => ?_⟩
  have hport : (withInputs s (p :: rest)).portProblem = none := portProblem_of_clean hclean
  rw [step_of_due hport (by simpa using hrst) (hdue rest), hexec rest, closeEdge_next,
    finishEdge_of_all_taken htclean (htaken rest)]

theorem dueCommand_of_open (s : State) (h : s.block.mode ≠ .idle) (ps : List PortIn) :
    (withInputs s ps).dueCommand = some s.block.op := dueCommand_open h

theorem edge_quiet {s : State} (hclean : s.clean) : Edge s PortIn.quiet s := by
  have htaken (rest : List PortIn) : (withInputs s (PortIn.quiet :: rest)).untaken = Offers.silent := by
    simp [State.untaken, PortIn.quiet, Offers.silent]
  cases hm : s.block.mode
  case idle =>
    refine ⟨hclean, fun rest => ?_⟩
    have hport : (withInputs s (PortIn.quiet :: rest)).portProblem = none := portProblem_of_clean hclean
    have hrst : (withInputs s (PortIn.quiet :: rest)).pins.rst = false := by simp [PortIn.quiet]
    have hdue : (withInputs s (PortIn.quiet :: rest)).dueCommand = none := by
      rw [dueCommand_idle hrst hm]
      simp [PortIn.quiet, Offers.silent]
    rw [step_of_none_due hport hrst hdue, finishEdge_of_all_taken hclean (htaken rest)]
  case run =>
    refine edge_of_exec hclean hclean rfl (fun _ => dueCommand_of_open s (by simp [hm]) _) (fun rest => ?_) htaken
    apply exec_waits (s := withInputs s (PortIn.quiet :: rest)) _ hm
    · simp [State.takenA, PortIn.quiet, Offers.silent]
    · simp [State.takenB, PortIn.quiet, Offers.silent]
  case resp =>
    refine edge_of_exec hclean hclean rfl (fun _ => dueCommand_of_open s (by simp [hm]) _) (fun rest => ?_) htaken
    rw [exec_resp (s := withInputs s (PortIn.quiet :: rest)) _ hm, deliver_not_taken]
    simp [State.takenR, PortIn.quiet]

theorem edge_command {s : State} (hidle : s.block.mode = .idle) (hclean : s.clean) (c : Code) :
    Edge s (PortIn.command c) (s.accept c) := by
  refine edge_of_exec (c := c) hclean hclean rfl (fun rest => ?_) (fun rest => ?_) (fun rest => ?_)
  case refine_1 =>
    rw [dueCommand_idle (s := withInputs s (PortIn.command c :: rest)) (by simp [PortIn.command]) hidle]
    simp [PortIn.command]
  case refine_2 =>
    rw [exec_idle (s := withInputs s (PortIn.command c :: rest)) _ hidle, encode_decode]
    rfl
  case refine_3 =>
    simp [State.untaken, cmdReady, PortIn.command, hidle, Offers.silent]

/-- An edge of `RUN` at which the open operation takes all the operand beats on offer. -/
theorem edge_operands {s t : State} {x : Option ABeat} {y : Option BBeat} (hrun : s.block.mode = .run)
    (hclean : s.clean) (henv : t.env = s.env)
    (hexec : ∀ rest, exec (decode s.block.op) (withInputs s (PortIn.operands x y :: rest)) =
      .next (withInputs t (PortIn.operands x y :: rest)))
    (hreadyA : x.isSome → aReady s.block y.isSome = true) (hreadyB : y.isSome → bReady s.block x.isSome = true) :
    Edge s (PortIn.operands x y) t := by
  have htclean : t.clean := by rw [State.clean, henv]; exact hclean
  refine edge_of_exec hclean htclean rfl (fun _ => dueCommand_of_open s (by simp [hrun]) _) hexec (fun rest => ?_)
  cases x <;> cases y <;> simp_all [State.untaken, PortIn.operands, Offers.silent]

/-- What is left of `s` when the environment has taken the result beat on offer (10_state.md R36). -/
def delivered (s : State) : State := { s with
  block := if s.resultBeat.last then { s.block with mode := .idle } else { s.block with rp := s.block.rp + 1 }
  env := { s.env with taken := s.env.taken ++ [s.resultBeat] }
  free := if s.block.rp < s.block.res.seq.length then s.free else s.free + 1 }

theorem edge_ready {s : State} (hresp : s.block.mode = .resp) (hclean : s.clean) :
    Edge s PortIn.ready (delivered s) := by
  refine edge_of_exec hclean hclean rfl (fun _ => dueCommand_of_open s (by simp [hresp]) _) (fun rest => ?_) (fun rest => ?_)
  · have htaken : (withInputs s (PortIn.ready :: rest)).takenR = some s.resultBeat :=
      takenR_of_ready hresp (by simp [PortIn.ready]) (by simp [PortIn.ready])
    rw [exec_resp (s := withInputs s (PortIn.ready :: rest)) _ hresp, deliver_taken htaken]
    rfl
  · simp [State.untaken, PortIn.ready, Offers.silent]

/-! ## Paths -/

/-- The edges of the inputs `ps` lead from `s` to `t`, and each of them begins in the mode `m`. -/
inductive Path (m : Mode) : State → List PortIn → State → Prop
  | stay (s : State) : Path m s [] s
  | edge {s t u : State} {p : PortIn} {ps : List PortIn} (hm : s.block.mode = m) (he : Edge s p t) (hp : Path m t ps u) :
      Path m s (p :: ps) u

theorem Path.single {m : Mode} {s t : State} {p : PortIn} (hm : s.block.mode = m) (he : Edge s p t) : Path m s [p] t :=
  .edge hm he (.stay t)

theorem Path.clean {m : Mode} {s t : State} {ps : List PortIn} (h : Path m s ps t) (hclean : s.clean) : t.clean := by
  induction h with
  | stay s => exact hclean
  | edge hm he hp ih => exact ih he.1

theorem Path.reaches {m : Mode} {s t : State} {ps : List PortIn} (h : Path m s ps t) (rest : List PortIn) :
    reaches ps.length (withInputs s (ps ++ rest)) (withInputs t rest) := by
  induction h with
  | stay s => exact reaches_zero _
  | edge hm he hp ih => exact reaches_succ (he.2 _) ih

/-- Before its last edge a path is in its mode. -/
theorem Path.reaches_mode {m : Mode} {s t : State} {ps : List PortIn} (h : Path m s ps t) (rest : List PortIn) {k : Nat}
    (hk : k < ps.length) : ∃ u, Machine.reaches k (withInputs s (ps ++ rest)) u ∧ u.block.mode = m := by
  induction h generalizing k with
  | stay s => exact absurd hk (Nat.not_lt_zero k)
  | edge hm he hp ih =>
    cases k with
    | zero => exact ⟨_, reaches_zero _, hm⟩
    | succ k =>
      obtain ⟨u, hu, hmode⟩ := ih (Nat.lt_of_succ_lt_succ hk)
      exact ⟨u, reaches_succ (he.2 _) hu, hmode⟩

/-- The command and the operand edges of a path in `RUN`: the block is in `RUN` after each of them but the last. -/
theorem Path.reaches_after_command {s t : State} {c : Code} {ps : List PortIn} (h : Path .run (s.accept c) ps t)
    (hidle : s.block.mode = .idle) (hclean : s.clean) (rest : List PortIn) :
    (∀ k, 1 ≤ k → k ≤ ps.length →
      ∃ u, Machine.reaches k (withInputs s (PortIn.command c :: ps ++ rest)) u ∧ u.block.mode = .run) ∧
    Machine.reaches (1 + ps.length) (withInputs s (PortIn.command c :: ps ++ rest)) (withInputs t rest) := by
  have hcommand := (edge_command hidle hclean c).2 (ps ++ rest)
  refine ⟨fun k hk hle => ?_, ?_⟩
  · obtain ⟨j, rfl⟩ : ∃ j, k = j + 1 := ⟨k - 1, by omega⟩
    obtain ⟨u, hu, hmode⟩ := h.reaches_mode rest (Nat.lt_of_succ_le hle)
    exact ⟨u, reaches_succ hcommand hu, hmode⟩
  · rw [Nat.add_comm]
    exact reaches_succ hcommand (h.reaches rest)

/-- Quiet edges before, between and after the edges of a path change nothing but the number of steps. -/
theorem Path.reaches_paced {m : Mode} {s t : State} {ps : List PortIn} (h : Path m s ps t) (hclean : s.clean)
    {ins : List PortIn} (hins : ins.filter (· ≠ PortIn.quiet) = ps) (rest : List PortIn) :
    Machine.reaches ins.length (withInputs s (ins ++ rest)) (withInputs t rest) := by
  induction ins generalizing s ps with
  | nil =>
    subst hins
    cases h
    exact reaches_zero _
  | cons p ins ih =>
    by_cases hquiet : p = PortIn.quiet
    · subst hquiet
      exact reaches_succ ((edge_quiet hclean).2 _) (ih h hclean (by simpa using hins))
    · rw [List.filter_cons_of_pos (by simpa using hquiet)] at hins
      subst hins
      cases h with
      | edge hm he hp => exact reaches_succ (he.2 _) (ih hp he.1 rfl)

end Sys2Proof.Proofs
end

section
/-! PROOFS. An operand as its beats come in (20_memory.md R52), and the operations that read stream A alone: what HEXDEC and
B64ENC have in common. -/

namespace Sys2Proof.Proofs
open Sys2Proof Sys2Proof.Machine

/-! ## Beats of an operand -/

/-- A frame is one last beat, or a full beat and the frame of the rest. -/
theorem frame_cases {w : Nat} (hw : 0 < w) (s : List Byte) :
    (s.length ≤ w ∧ frame w s = [⟨s.length, s, true⟩]) ∨
    ∃ l r, s = l ++ r ∧ l.length = w ∧ r ≠ [] ∧ frame w s = ⟨w, l, false⟩ :: frame w r := by
  by_cases hshort : s.length ≤ w
  · refine .inl ⟨hshort, ?_⟩
    by_cases hnil : s = []
    · subst hnil
      exact frame_nil w
    · exact frame_one_beat hnil hshort
  · right
    have hl : (s.take w).length = w := by simp; omega
    have hr : s.drop w ≠ [] := by simp; omega
    refine ⟨s.take w, s.drop w, (List.take_append_drop w s).symm, hl, hr, ?_⟩
    conv_lhs => rw [← List.take_append_drop w s]
    exact frame_append hw hl hr

/-- The beats `bs` carry `s`, and the operand goes on: with the frame of any rest they are the frame of the whole. -/
def Begun (w : Nat) (bs : List Beat) (s : List Byte) : Prop :=
  (s = [] → bs = []) ∧ ∀ t, t ≠ [] → bs ++ frame w t = frame w (s ++ t)

theorem Begun.nil (w : Nat) : Begun w [] [] := ⟨fun _ => rfl, fun _ _ => rfl⟩

/-- A beat that R196 allows is full unless it is the last one. -/
theorem cnt_of_framed_more {w n : Nat} {b : Beat} (h : framingOk w n b = true) (hlast : b.last = false) : b.cnt = w :=
  (framingOk_iff.mp h).2.2 hlast

/-- A null beat that R196 allows comes first. -/
theorem first_of_framed_null {w n : Nat} {b : Beat} (h : framingOk w n b = true) (hnull : b.cnt = 0) : n = 0 :=
  ((framingOk_iff.mp h).2.1 hnull).2

theorem Begun.more {w : Nat} {bs : List Beat} {s : List Byte} (h : Begun w bs s) (hw : 0 < w) {b : Beat}
    (hframed : framingOk w s.length b = true) (hlane : b.lane.length = b.cnt) (hlast : b.last = false) :
    Begun w (bs ++ [b]) (s ++ b.lane) := by
  have hfull : b.lane.length = w := hlane.trans (cnt_of_framed_more hframed hlast)
  have hb : b = ⟨w, b.lane, false⟩ := by rw [← hlast, ← hfull, hlane]
  have hne : b.lane ≠ [] := List.ne_nil_of_length_pos (hfull ▸ hw)
  refine ⟨fun hnil => absurd (List.append_eq_nil_iff.mp hnil).2 hne, fun t ht => ?_⟩
  calc (bs ++ [b]) ++ frame w t = bs ++ (⟨w, b.lane, false⟩ :: frame w t) := by rw [← hb]; simp
    _ = bs ++ frame w (b.lane ++ t) := by rw [frame_append hw hfull ht]
    _ = frame w (s ++ b.lane ++ t) := by rw [h.2 _ (by simp [hne]), List.append_assoc]

theorem Begun.last {w : Nat} {bs : List Beat} {s : List Byte} (h : Begun w bs s) {b : Beat}
    (hframed : framingOk w s.length b = true) (hlane : b.lane.length = b.cnt) (hlast : b.last = true) :
    bs ++ [b] = frame w (s ++ b.lane) := by
  have hb : b = ⟨b.lane.length, b.lane, true⟩ := by rw [← hlast, hlane]
  by_cases hne : b.lane = []
  · have hs : s = [] := List.eq_nil_of_length_eq_zero (first_of_framed_null hframed (by rw [← hlane, hne]; rfl))
    rw [hb, h.1 hs, hs, hne]
    rfl
  · rw [← h.2 _ hne, frame_one_beat hne (hlane ▸ (framingOk_iff.mp hframed).1), ← hb]

/-- The first beat of the frame of what is left of an operand, after `n` elements: it may be taken, and it is the last one or
the frame of the rest follows. -/
theorem frame_uncons {w n : Nat} (hw : 0 < w) {r : List Byte} {b : Beat} {bs : List Beat} (h : b :: bs = frame w r)
    (hfirst : r = [] → n = 0) :
    framingOk w n b = true ∧ b.lane.length = b.cnt ∧ b.cnt ≤ r.length ∧
      ((b.last = true ∧ bs = [] ∧ r = b.lane) ∨
       (b.last = false ∧ ∃ r', r' ≠ [] ∧ r = b.lane ++ r' ∧ bs = frame w r')) := by
  rw [framingOk_iff]
  rcases frame_cases hw r with ⟨hshort, hf⟩ | ⟨l, r', rfl, hl, hne, hf⟩
  · rw [hf, List.cons.injEq] at h
    obtain ⟨rfl, hbs⟩ := h
    exact ⟨⟨hshort, fun h0 => ⟨rfl, hfirst (List.eq_nil_of_length_eq_zero h0)⟩, fun h => Bool.noConfusion h⟩, rfl,
      le_refl _, .inl ⟨rfl, hbs, rfl⟩⟩
  · rw [hf, List.cons.injEq] at h
    obtain ⟨rfl, hbs⟩ := h
    exact ⟨⟨le_refl w, fun h0 => absurd h0 hw.ne', fun _ => rfl⟩, hl, by simp [hl],
      .inr ⟨rfl, r', hne, rfl, hbs⟩⟩

theorem withinMax_zero (m : Option Nat) : withinMax m 0 = true := by cases m <;> simp [withinMax]

theorem withinMax_of_le {m : Option Nat} {j k : Nat} (h : withinMax m k = true) (hle : j ≤ k) : withinMax m j = true := by
  cases m with
  | none => rfl
  | some m => simp only [withinMax, decide_eq_true_eq] at h ⊢; omega

/-- A beat on the ports of stream A has as many lanes as its count says, up to the two lanes there are. -/
theorem ABeat.lane_length {a : ABeat} (h : a.cnt.toNat ≤ 2) : a.beat.lane.length = a.beat.cnt := by
  simp only [ABeat.beat, List.length_take, List.length_cons, List.length_nil]
  omega

theorem BBeat.lane_length (b : BBeat) : b.beat.lane.length = b.beat.cnt := by
  have h : b.cnt.toNat ≤ 1 := Nat.le_of_lt_succ b.cnt.isLt
  simp only [BBeat.beat, List.length_take, List.length_cons, List.length_nil]
  omega

theorem laneWidth_pos (h : HexImpl) (op : Code) : 0 < laneWidth h op := by
  cases h with
  | parallel => unfold laneWidth; dsimp only; split <;> decide
  | pipelined => exact Nat.one_pos

theorem laneWidth_le_lanesA (h : HexImpl) (op : Code) : laneWidth h op ≤ lanesA h := by
  cases h with
  | parallel => unfold laneWidth; dsimp only; split <;> decide
  | pipelined => exact le_refl 1

theorem lanesA_le_two (h : HexImpl) : lanesA h ≤ 2 := by cases h <;> decide

/-- The wires of the variant carry a beat that R196 allows as it is (20_memory.md R54). -/
theorem ABeat.wired_beat_of_framed {h : HexImpl} {op : Code} {n : Nat} {a : ABeat}
    (hframed : framingOk (laneWidth h op) n a.beat = true) : (a.wired h).beat = a.beat :=
  ABeat.wired_beat (decide_eq_true ((framingOk_iff.mp hframed).1.trans (laneWidth_le_lanesA h op)))

theorem ABeat.lane_length_of_framed {h : HexImpl} {op : Code} {n : Nat} {a : ABeat}
    (hframed : framingOk (laneWidth h op) n a.beat = true) : a.beat.lane.length = a.beat.cnt :=
  ABeat.lane_length ((framingOk_iff.mp hframed).1.trans ((laneWidth_le_lanesA h op).trans (lanesA_le_two h)))

/-! ## Results -/

/-- The block offers the result `r` of an operation `c`, from its first element on (10_state.md R35). -/
structure Responds (b : Block) (c : Code) (r : Result) : Prop where
  mode : b.mode = .resp
  op : b.op = c
  res : b.res = r
  rp : b.rp = 0

/-- What the refinements say of a path in `RUN` that ends with a result. -/
theorem Path.refines {s t : State} {c : Code} {ps rest : List PortIn} {r : Result} (h : Path .run (s.accept c) ps t)
    (hidle : s.block.mode = .idle) (hclean : s.clean) (hinputs : s.env.inputs = PortIn.command c :: ps ++ rest)
    (hresponds : Responds t.block c r) (henv : t.env = s.env) (hparams : t.params = s.params) :
    (∀ k, 1 ≤ k → k ≤ ps.length → ∃ u, Machine.reaches k s u ∧ u.block.mode = .run) ∧
    ∃ u, Machine.reaches (1 + ps.length) s u ∧ Responds u.block c r ∧
      u.env.taken = s.env.taken ∧ u.env.inputs = rest ∧ u.clean ∧ u.params = s.params := by
  obtain ⟨hrun, hend⟩ := h.reaches_after_command hidle hclean rest
  rw [withInputs_self hinputs] at hrun hend
  exact ⟨hrun, withInputs t rest, hend, hresponds, by simp [henv], rfl, h.clean hclean, hparams⟩

/-! ## One stream, beat by beat -/

/-- In the states `F s t`, in which the elements `t` have been taken, an edge that offers a beat `a` takes it: then the
elements are `t` and the lanes of the beat, and the last beat ends with the result of the whole. -/
def FeedsStream {α : Type} (view : α → Beat) (pin : α → PortIn) (w : Nat) (p : Params) (c : Code)
    (result : List Byte → Result) (F : State → List Byte → Prop) : Prop :=
  ∀ (s : State) (t : List Byte) (a : α), F s t → s.params = p → s.clean →
    framingOk w t.length (view a) = true → (view a).lane.length = (view a).cnt →
    withinMax p.maxLen (t.length + (view a).cnt) = true →
    s.block.mode = .run ∧ ∃ u, Edge s (pin a) u ∧ u.env = s.env ∧ u.params = p ∧
      ((view a).last = true → Responds u.block c (result (t ++ (view a).lane))) ∧
      ((view a).last = false → F u (t ++ (view a).lane))

/-- What is left of an operand: its beats lead to the result of the whole. -/
theorem FeedsStream.path {α : Type} {view : α → Beat} {pin : α → PortIn} {w : Nat} {p : Params} {c : Code}
    {result : List Byte → Result} {F : State → List Byte → Prop} (hstream : FeedsStream view pin w p c result F)
    (hw : 0 < w) {s : State} {t r : List Byte} (hF : F s t) (hp : s.params = p) (hclean : s.clean) {as : List α}
    (hframe : as.map view = frame w r) (hfirst : r = [] → t = []) (hfits : withinMax p.maxLen (t ++ r).length = true) :
    ∃ u, Path .run s (as.map pin) u ∧ Responds u.block c (result (t ++ r)) ∧ u.env = s.env ∧ u.params = p := by
  induction as generalizing s t r with
  | nil => rcases frame_cases hw r with ⟨-, hf⟩ | ⟨_, _, -, -, -, hf⟩ <;> simp [hf] at hframe
  | cons a as ih =>
    obtain ⟨hframed, hlane, hle, hcases⟩ := frame_uncons (n := t.length) hw hframe fun hnil => by simp [hfirst hnil]
    have hmax : withinMax p.maxLen (t.length + (view a).cnt) = true :=
      withinMax_of_le hfits (by rw [List.length_append]; omega)
    obtain ⟨hrun, u, hedge, henv, hparams, hlast, hmore⟩ := hstream s t a hF hp hclean hframed hlane hmax
    rcases hcases with ⟨hl, has, rfl⟩ | ⟨hl, r', hne, rfl, hrest⟩
    · rw [List.map_eq_nil_iff.mp has]
      exact ⟨u, .single hrun hedge, hlast hl, henv, hparams⟩
    · rw [← List.append_assoc] at hfits ⊢
      obtain ⟨v, hpath, hresponds, henv', hparams'⟩ := ih (hmore hl) hparams hedge.1 hrest
        (fun hnil => absurd hnil hne) hfits
      exact ⟨v, .edge hrun hedge hpath, hresponds, henv'.trans henv, hparams'⟩

/-! ## The operations on stream A alone -/

/-- An operation with one operand, on stream A. -/
structure SoloOp where
  code : Code
  /-- The result, at the transaction level. -/
  result : List Byte → Result
  /-- What the registers hold when these elements have been taken and the operand goes on. -/
  fed : HexImpl → Block → List Byte → Prop
  /-- The beat step, the element count apart. -/
  act : Beat → State → State

/-- The state after a beat is taken. -/
abbrev SoloOp.next (o : SoloOp) (beat : Beat) (s : State) : State := o.act beat { s with nA := s.nA + beat.cnt }

/-- The operation is one of the model: it acts as `exec` does, and beat by beat it computes its result. -/
structure SoloOp.Sound (o : SoloOp) : Prop where
  solo : o.code = 0#2 ∨ o.code = 1#2
  exec_taken {s : State} {t : List Byte} {x : ABeat} (hmode : s.block.mode = .run) (hop : s.block.op = o.code)
    (hfed : o.fed s.params.hexImpl s.block t) (htaken : s.takenA = some x)
    (hproblem : beatProblem .illFramedA s.params.maxLen (laneWidth s.params.hexImpl o.code) s.nA x.beat = none) :
    exec (decode o.code) s = .next (o.next x.beat s)
  act_nA (beat : Beat) (s : State) : (o.act beat s).nA = s.nA
  act_env (beat : Beat) (s : State) : (o.act beat s).env = s.env
  act_params (beat : Beat) (s : State) : (o.act beat s).params = s.params
  act_withInputs (beat : Beat) (s : State) (ps : List PortIn) :
    o.act beat (withInputs s ps) = withInputs (o.act beat s) ps
  accept (h : HexImpl) (b : Block) : o.fed h (b.accept o.code) []
  more {s : State} {t : List Byte} {beat : Beat} (hfed : o.fed s.params.hexImpl s.block t)
    (hframed : framingOk (laneWidth s.params.hexImpl o.code) t.length beat = true) (hlane : beat.lane.length = beat.cnt)
    (hlast : beat.last = false) :
    (o.act beat s).block.mode = s.block.mode ∧ (o.act beat s).block.op = s.block.op ∧
      o.fed s.params.hexImpl (o.act beat s).block (t ++ beat.lane)
  last {s : State} {t : List Byte} {beat : Beat} (hfed : o.fed s.params.hexImpl s.block t)
    (hframed : framingOk (laneWidth s.params.hexImpl o.code) t.length beat = true) (hlane : beat.lane.length = beat.cnt)
    (hlast : beat.last = true) :
    Responds (o.act beat s).block s.block.op (o.result (t ++ beat.lane))

/-- The operation is open and has taken the elements `t`; more are to come. -/
structure SoloOp.Feeds (o : SoloOp) (s : State) (t : List Byte) : Prop where
  mode : s.block.mode = .run
  op : s.block.op = o.code
  count : s.nA = t.length
  fits : withinMax s.params.maxLen t.length = true
  fed : o.fed s.params.hexImpl s.block t

section
variable {o : SoloOp} (ho : o.Sound)
include ho

theorem SoloOp.Sound.code_ne_reserved : o.code ≠ 3#2 := by
  rcases ho.solo with h | h <;> simp [h]

theorem SoloOp.Sound.feeds_accept (s : State) : o.Feeds (s.accept o.code) [] where
  mode := by simp [ho.code_ne_reserved]
  op := by simp
  count := rfl
  fits := withinMax_zero _
  fed := ho.accept _ _

theorem SoloOp.Feeds.more {s : State} {t : List Byte} (h : o.Feeds s t) {beat : Beat}
    (hproblem : beatProblem .illFramedA s.params.maxLen (laneWidth s.params.hexImpl o.code) s.nA beat = none)
    (hlane : beat.lane.length = beat.cnt) (hlast : beat.last = false) : o.Feeds (o.next beat s) (t ++ beat.lane) := by
  obtain ⟨hframed, hmax⟩ := beatProblem_eq_none.mp hproblem
  rw [h.count] at hframed hmax
  obtain ⟨hmode, hop, hfed⟩ := ho.more (s := { s with nA := s.nA + beat.cnt }) h.fed hframed hlane hlast
  refine ⟨hmode.trans h.mode, hop.trans h.op, ?_, ?_, ?_⟩
  · rw [ho.act_nA, List.length_append, hlane, h.count]
  · rwa [ho.act_params, List.length_append, hlane]
  · rwa [ho.act_params]

theorem SoloOp.Feeds.last {s : State} {t : List Byte} (h : o.Feeds s t) {beat : Beat}
    (hproblem : beatProblem .illFramedA s.params.maxLen (laneWidth s.params.hexImpl o.code) s.nA beat = none)
    (hlane : beat.lane.length = beat.cnt) (hlast : beat.last = true) :
    Responds (o.next beat s).block o.code (o.result (t ++ beat.lane)) := by
  have hframed := (beatProblem_eq_none.mp hproblem).1
  rw [h.count] at hframed
  have hresponds := ho.last (s := { s with nA := s.nA + beat.cnt }) h.fed hframed hlane hlast
  rwa [h.op] at hresponds

/-- A beat that may be taken is taken at the edge at which it is offered. -/
theorem SoloOp.Feeds.edge {s : State} {t : List Byte} (h : o.Feeds s t) (hclean : s.clean) {x : ABeat}
    (hproblem : beatProblem .illFramedA s.params.maxLen (laneWidth s.params.hexImpl o.code) s.nA x.beat = none) :
    Edge s (PortIn.operands (some x) none) (o.next x.beat s) := by
  have hsolo : solo s.block = true := solo_of_op h.mode (by rw [h.op]; exact ho.solo)
  have hbeat : (x.wired s.params.hexImpl).beat = x.beat :=
    ABeat.wired_beat_of_framed (beatProblem_eq_none.mp hproblem).1
  refine edge_operands h.mode hclean (ho.act_env _ _) (fun rest => ?_)
    (fun _ => (readies_of_solo hsolo true false).1) (fun hb => Bool.noConfusion hb)
  have htaken : (withInputs s (PortIn.operands (some x) none :: rest)).takenA = some (x.wired s.params.hexImpl) := by
    rw [takenA_solo (s := withInputs s (PortIn.operands (some x) none :: rest)) (by simp [PortIn.operands]) hsolo]
    simp [PortIn.operands]
  have hexec := ho.exec_taken (s := withInputs s (PortIn.operands (some x) none :: rest)) h.mode h.op h.fed htaken
    (by rw [hbeat]; exact hproblem)
  rw [h.op, hexec, hbeat]
  exact congrArg _ (ho.act_withInputs x.beat { s with nA := s.nA + x.beat.cnt } _)

theorem SoloOp.Sound.feedsStream (p : Params) :
    FeedsStream ABeat.beat (fun x => PortIn.operands (some x) none) (laneWidth p.hexImpl o.code) p o.code o.result
      o.Feeds := by
  rintro s t x h rfl hclean hframed hlane hmax
  have hproblem : beatProblem .illFramedA s.params.maxLen (laneWidth s.params.hexImpl o.code) s.nA x.beat = none := by
    rw [beatProblem_eq_none, h.count]
    exact ⟨hframed, hmax⟩
  exact ⟨h.mode, _, h.edge ho hclean hproblem, ho.act_env _ _, ho.act_params _ _, h.last ho hproblem hlane,
    h.more ho hproblem hlane⟩

/-- The operand edges of a whole operand, from the acceptance of the command on. -/
theorem SoloOp.Sound.path {s : State} {t : List Byte} (hclean : s.clean)
    (hfits : withinMax s.params.maxLen t.length = true) {xs : List ABeat}
    (hframe : xs.map ABeat.beat = frame (laneWidth s.params.hexImpl o.code) t) :
    ∃ u, Path .run (s.accept o.code) (xs.map fun x => PortIn.operands (some x) none) u ∧
      Responds u.block o.code (o.result t) ∧ u.env = s.env ∧ u.params = s.params :=
  (ho.feedsStream s.params).path (laneWidth_pos _ _) (ho.feeds_accept s) rfl hclean hframe (fun _ => rfl) hfits

/-- The refinement of an operation on stream A alone: the command and the beats of a text lead, after exactly that many
steps, to its result, and before the last beat the block is in `RUN`. -/
theorem SoloOp.Sound.refines {s : State} {t : List Byte} (hidle : s.block.mode = .idle) (hclean : s.clean)
    (hfits : withinMax s.params.maxLen t.length = true) {xs : List ABeat}
    (hframe : xs.map ABeat.beat = frame (laneWidth s.params.hexImpl o.code) t) {rest : List PortIn}
    (hinputs : s.env.inputs = PortIn.command o.code :: (xs.map fun x => PortIn.operands (some x) none) ++ rest) :
    (∀ k, 1 ≤ k → k ≤ xs.length → ∃ u, reaches k s u ∧ u.block.mode = .run) ∧
    ∃ u, reaches (1 + xs.length) s u ∧ Responds u.block o.code (o.result t) ∧
      u.env.taken = s.env.taken ∧ u.env.inputs = rest ∧ u.clean ∧ u.params = s.params := by
  obtain ⟨u, hpath, hresponds, henv, hparams⟩ := ho.path hclean hfits hframe
  simpa using hpath.refines hidle hclean hinputs hresponds henv hparams

end

end Sys2Proof.Proofs
end

section
/-! PROOFS. HEXDEC computes `decode_hex` (40_hexdec.md section 3). -/

namespace Sys2Proof.Proofs
open Sys2Proof Sys2Proof.Machine

/-! ## `decode_hex` on a text that grows -/

/-- The text has an invalid character. -/
def hexBad (t : List Byte) : Bool := t.any fun c => (nib c).isNone

@[simp] theorem hexBad_nil : hexBad [] = false := rfl

@[simp] theorem hexBad_append (t u : List Byte) : hexBad (t ++ u) = (hexBad t || hexBad u) := List.any_append

@[simp] theorem hexBad_one (x : Byte) : hexBad [x] = (nib x).isNone := by simp [hexBad]

@[simp] theorem hexBad_two (x y : Byte) : hexBad [x, y] = ((nib x).isNone || (nib y).isNone) := by simp [hexBad]

theorem decodeHex_of_bad {t : List Byte} (h : hexBad t = true) : decodeHex t = ⟨.decodeError, []⟩ := by
  obtain ⟨c, hc, hinvalid⟩ := List.any_eq_true.mp h
  exact (hexErrors t).2 ⟨c, hc, Option.isNone_iff_eq_none.mp hinvalid⟩

theorem decodeHex_of_pairs {t o : List Byte} (heven : t.length % 2 = 0) (h : hexPairs t = some o) :
    decodeHex t = ⟨.ok, o⟩ := by
  simp [decodeHex, heven, h]

theorem hexPairs_cons_cons (x y : Byte) (rest : List Byte) :
    hexPairs (x :: y :: rest) =
      (nib x).bind fun vx => (nib y).bind fun vy => (hexPairs rest).map (pairByte vx vy :: ·) := by
  cases hx : nib x <;> cases hy : nib y <;> cases hr : hexPairs rest <;> simp [hexPairs, hx, hy, hr]

/-- The loop of R100 goes pair by pair: an even text may be cut off in front. -/
theorem hexPairs_append {t : List Byte} (heven : t.length % 2 = 0) (u : List Byte) :
    hexPairs (t ++ u) = (hexPairs t).bind fun a => (hexPairs u).map (a ++ ·) := by
  induction t using List.twoStepInduction with
  | nil => simp [hexPairs]
  | singleton x => simp at heven
  | cons_cons x y rest ih =>
    rw [List.cons_append, List.cons_append, hexPairs_cons_cons, hexPairs_cons_cons,
      ih (by simp only [List.length_cons] at heven; omega)]
    cases nib x <;> cases nib y <;> cases hexPairs rest <;> cases hexPairs u <;> simp

/-- One more pair of valid digits gives one more byte. -/
theorem hexPairs_append_pair {t o : List Byte} {x y : Byte} {vx vy : Nibble} (heven : t.length % 2 = 0)
    (h : hexPairs t = some o) (hx : nib x = some vx) (hy : nib y = some vy) :
    hexPairs (t ++ [x, y]) = some (o ++ [vx ++ vy]) := by
  simp [hexPairs_append heven, h, hx, hy, hexPairs, pairByte]

/-- A character without its pair gives no byte. -/
theorem hexPairs_append_one {t : List Byte} (heven : t.length % 2 = 0) (x : Byte) :
    hexPairs (t ++ [x]) = hexPairs t := by
  cases h : hexPairs t <;> simp [hexPairs_append heven, h, hexPairs]

/-! ## The registers while the text comes in -/

/-- PIPELINED: `ph` is the parity of the text, and `hn` the digit that waits for its pair (10_state.md R26, R27). -/
def HexHeld (b : Block) (t : List Byte) : Prop :=
  t.length % 2 = b.ph.toNat ∧
  (b.ph = true → b.err = false → ∃ r c, t = r ++ [c] ∧ nib c = some b.hn)

/-- `err` is raised by an invalid character, and until then `out` has the bytes of the complete pairs (10_state.md R30,
R31). -/
def HexFed (h : HexImpl) (b : Block) (t : List Byte) : Prop :=
  b.err = hexBad t ∧ (b.err = false → hexPairs t = some b.out) ∧
  match h with
  | .pipelined => HexHeld b t
  | .parallel => t.length % 2 = 0

/-- HEXDEC, seen as an operation on stream A alone. -/
def hexOp : SoloOp := ⟨0#2, decodeHex, HexFed, hexdecStep⟩

theorem hexFed_accept (h : HexImpl) (b : Block) : HexFed h (b.accept 0#2) [] := by
  cases h <;> simp [HexFed, HexHeld, hexPairs]

theorem hexdecEnd_responds (e : Bool) {b : Block} {t : List Byte} (he : e = true → decodeHex t = ⟨.decodeError, []⟩)
    (hok : e = false → decodeHex t = ⟨.ok, b.out⟩) : Responds (hexdecEnd true e b) b.op (decodeHex t) := by
  rw [hexdecEnd_last]
  refine ⟨rfl, rfl, ?_, rfl⟩
  cases e
  · exact (hok rfl).symm
  · exact (he rfl).symm

/-- The bytes of a text that has ended in front of a pair. -/
theorem hexFed_decodeHex {h : HexImpl} {b : Block} {t : List Byte} (hfed : HexFed h b t) (heven : t.length % 2 = 0) :
    (b.err = true → decodeHex t = ⟨.decodeError, []⟩) ∧ (b.err = false → decodeHex t = ⟨.ok, b.out⟩) := by
  obtain ⟨herr, hout, -⟩ := hfed
  exact ⟨fun h => decodeHex_of_bad (herr ▸ h), fun h => decodeHex_of_pairs heven (hout h)⟩

/-! ## The beat step under PIPELINED -/

theorem hexFed_high {b : Block} {t : List Byte} {x : Byte} (hfed : HexFed .pipelined b t) (hph : b.ph = false)
    (junk : Nibble) :
    HexFed .pipelined { b with hn := (nib x).getD junk, ph := true, err := b.err || (nib x).isNone } (t ++ [x]) := by
  obtain ⟨herr, hout, hparity, -⟩ := hfed
  have heven : t.length % 2 = 0 := by simpa [hph] using hparity
  refine ⟨by simp [herr], fun hok => ?_, by simp; omega, fun _ hok => ⟨t, x, rfl, ?_⟩⟩
  · rw [hexPairs_append_one heven]
    exact hout (Bool.or_eq_false_iff.mp hok).1
  · obtain ⟨v, hv⟩ := Option.isSome_iff_exists.mp (by simpa using (Bool.or_eq_false_iff.mp hok).2)
    simp [hv]

/-- A low digit completes the pair that `hn` waits for. -/
theorem hexFed_low {b : Block} {t : List Byte} {x : Byte} (hfed : HexFed .pipelined b t) (hph : b.ph = true) :
    let e := b.err || (nib x).isNone
    let out := if !e then b.out ++ [b.hn ++ (nib x).getD 0#4] else b.out
    HexFed .pipelined { b with out := out, ph := false, err := e } (t ++ [x]) := by
  intro e out
  obtain ⟨herr, hout, hparity, hheld⟩ := hfed
  have hodd : t.length % 2 = 1 := by simpa [hph] using hparity
  refine ⟨by simp [e, herr], fun hok => ?_, by simp; omega, fun h => Bool.noConfusion h⟩
  obtain ⟨herr', hsome⟩ := Bool.or_eq_false_iff.mp hok
  obtain ⟨vx, hvx⟩ := Option.isSome_iff_exists.mp (by simpa using hsome)
  obtain ⟨r, c, rfl, hc⟩ := hheld hph herr'
  have heven : r.length % 2 = 0 := by simp at hodd; omega
  have hpairs : hexPairs r = some b.out := (hexPairs_append_one heven c).symm.trans (hout herr')
  have hnew : out = b.out ++ [b.hn ++ vx] := by
    have he : e = false := hok
    simp [out, he, hvx]
  rw [List.append_assoc, hnew]
  exact hexPairs_append_pair heven hpairs hc hvx

theorem hexPipelined_more {b : Block} {t : List Byte} {beat : Beat} (hfed : HexFed .pipelined b t) (junk : Nibble)
    {x : Byte} (hlane : beat.lane = [x]) (hlast : beat.last = false) :
    (b.hexdecPipelined beat junk).mode = b.mode ∧ (b.hexdecPipelined beat junk).op = b.op ∧
      HexFed .pipelined (b.hexdecPipelined beat junk) (t ++ [x]) := by
  cases hph : b.ph
  · rw [hexdecPipelined_high hlane hph, hlast]
    exact ⟨rfl, rfl, hexFed_high hfed hph junk⟩
  · rw [hexdecPipelined_low hlane hph, hlast]
    exact ⟨rfl, rfl, hexFed_low hfed hph⟩

theorem hexPipelined_last {b : Block} {t : List Byte} {beat : Beat} (hfed : HexFed .pipelined b t) (junk : Nibble)
    (hlane : (beat.lane = [] ∧ t = []) ∨ ∃ x, beat.lane = [x]) (hlast : beat.last = true) :
    Responds (b.hexdecPipelined beat junk) b.op (decodeHex (t ++ beat.lane)) := by
  rcases hlane with ⟨hnull, rfl⟩ | ⟨x, hx⟩
  case inl =>
    obtain ⟨herr, -, hparity, -⟩ := id hfed
    have hph : b.ph = false := by cases hph : b.ph <;> simp [hph] at hparity ⊢
    obtain ⟨-, hok⟩ := hexFed_decodeHex hfed rfl
    rw [hexdecPipelined_null hnull, hlast, hnull, hph]
    exact hexdecEnd_responds _ (fun h => by simp [herr] at h) (fun h => hok herr)
  case inr =>
    rw [hx]
    cases hph : b.ph
    · have hodd : (t ++ [x]).length % 2 = 1 := by
        have := hfed.2.2.1
        simp [hph] at this ⊢
        omega
      rw [hexdecPipelined_high hx hph, hlast, if_pos rfl]
      exact hexdecEnd_responds (b := { b with hn := _ }) true (fun _ => decodeHex_of_odd hodd) (fun h => Bool.noConfusion h)
    · have hfed' := hexFed_low (x := x) hfed hph
      have heven : (t ++ [x]).length % 2 = 0 := hfed'.2.2.1
      obtain ⟨hbad, hok⟩ := hexFed_decodeHex hfed' heven
      rw [hexdecPipelined_low hx hph, hlast]
      exact hexdecEnd_responds (b := { b with out := _ }) _ hbad hok

/-! ## The beat step under PARALLEL -/

/-- A full beat with an invalid digit raises the error and writes nothing else. -/
theorem hexFed_pair_invalid {b : Block} {t : List Byte} {x y : Byte} (hfed : HexFed .parallel b t)
    (hbad : nib x = none ∨ nib y = none) : HexFed .parallel { b with err := true } (t ++ [x, y]) := by
  obtain ⟨herr, hout, heven⟩ := hfed
  refine ⟨?_, fun h => Bool.noConfusion h, by simpa using heven⟩
  rcases hbad with h | h <;> simp [h]

theorem hexFed_pair_valid {b : Block} {t : List Byte} {x y : Byte} {vx vy : Nibble} (hfed : HexFed .parallel b t)
    (hx : nib x = some vx) (hy : nib y = some vy) :
    HexFed .parallel { b with out := if !b.err then b.out ++ [vx ++ vy] else b.out } (t ++ [x, y]) := by
  obtain ⟨herr, hout, heven⟩ := hfed
  refine ⟨by simp [herr, hx, hy], fun hok => ?_, by simpa using heven⟩
  have hok' : b.err = false := hok
  simp only [hok', Bool.not_false, if_true]
  exact hexPairs_append_pair heven (hout hok) hx hy

/-- A full beat is an error or a byte, and with the last mark the end of the text. -/
theorem hexParallel_full {b : Block} {t : List Byte} {beat : Beat} {x y : Byte} (hfed : HexFed .parallel b t)
    (hlane : beat.lane = [x, y]) :
    ∃ e b', b.hexdecParallel beat = hexdecEnd beat.last e b' ∧ b'.mode = b.mode ∧ b'.op = b.op ∧
      HexFed .parallel { b' with err := e } (t ++ [x, y]) := by
  by_cases hbad : nib x = none ∨ nib y = none
  · exact ⟨_, _, hexdecParallel_full_invalid hlane hbad, rfl, rfl, hexFed_pair_invalid hfed hbad⟩
  · rw [not_or] at hbad
    obtain ⟨vx, hx⟩ := Option.ne_none_iff_exists'.mp hbad.1
    obtain ⟨vy, hy⟩ := Option.ne_none_iff_exists'.mp hbad.2
    exact ⟨_, _, hexdecParallel_full_valid hlane hx hy, rfl, rfl, hexFed_pair_valid hfed hx hy⟩

theorem hexParallel_last {b : Block} {t : List Byte} {beat : Beat} (hfed : HexFed .parallel b t)
    (hlane : (beat.lane = [] ∧ t = []) ∨ (∃ x, beat.lane = [x]) ∨ ∃ x y, beat.lane = [x, y]) (hlast : beat.last = true) :
    Responds (b.hexdecParallel beat) b.op (decodeHex (t ++ beat.lane)) := by
  have heven : t.length % 2 = 0 := hfed.2.2
  rcases hlane with ⟨hnull, rfl⟩ | ⟨x, hx⟩ | ⟨x, y, hxy⟩
  · obtain ⟨hbad, hok⟩ := hexFed_decodeHex hfed rfl
    rw [hexdecParallel_null hnull, hlast, hnull]
    exact hexdecEnd_responds _ hbad hok
  · have hodd : (t ++ [x]).length % 2 = 1 := by simp; omega
    rw [hexdecParallel_half hx, hlast, hx]
    exact hexdecEnd_responds _ (fun _ => decodeHex_of_odd hodd) (fun h => Bool.noConfusion h)
  · obtain ⟨e, b', hstep, -, hop, hfed'⟩ := hexParallel_full hfed hxy
    obtain ⟨hbad, hok⟩ := hexFed_decodeHex hfed' (by simpa using heven)
    rw [hstep, hlast, hxy, ← hop]
    exact hexdecEnd_responds _ hbad hok

/-! ## The lanes of a framed beat -/

/-- A framed beat is null and the first of its operand, or it has one element, or it fills two lanes (20_memory.md R52). -/
theorem lane_cases_of_framed {w n : Nat} {beat : Beat} (hw : w ≤ 2) (hframed : framingOk w n beat = true)
    (hlane : beat.lane.length = beat.cnt) :
    (beat.lane = [] ∧ n = 0 ∧ beat.last = true) ∨ (∃ x, beat.lane = [x] ∧ (beat.last = true ∨ w = 1)) ∨
      ∃ x y, beat.lane = [x, y] ∧ w = 2 := by
  obtain ⟨hle, hnull, hfull⟩ := framingOk_iff.mp hframed
  rw [← hlane] at hle hnull hfull
  match hl : beat.lane with
  | [] => exact .inl ⟨rfl, (hnull (by rw [hl]; rfl)).2, (hnull (by rw [hl]; rfl)).1⟩
  | [x] =>
    refine .inr (.inl ⟨x, rfl, ?_⟩)
    cases hlast : beat.last
    · exact .inr (by simpa [hl] using (hfull hlast).symm)
    · exact .inl rfl
  | [x, y] => exact .inr (.inr ⟨x, y, rfl, by simp [hl] at hle; omega⟩)
  | _ :: _ :: _ :: _ => simp [hl] at hle; omega

/-! ## The operation -/

theorem hexdecStep_act (beat : Beat) (s : State) :
    (hexdecStep beat s).nA = s.nA ∧ (hexdecStep beat s).nB = s.nB ∧ (hexdecStep beat s).env = s.env ∧
      (hexdecStep beat s).params = s.params := by
  unfold hexdecStep
  cases s.params.hexImpl <;> exact ⟨rfl, rfl, rfl, rfl⟩

theorem hexOp_sound : hexOp.Sound where
  solo := .inl rfl
  exec_taken hmode hop hfed htaken hproblem := (exec_hexdec_run hmode hop).trans (takeA_some htaken hproblem)
  act_nA beat s := (hexdecStep_act beat s).1
  act_env beat s := (hexdecStep_act beat s).2.2.1
  act_params beat s := (hexdecStep_act beat s).2.2.2
  act_withInputs beat s ps := by
    simp only [hexOp, hexdecStep, withInputs_params]
    cases s.params.hexImpl <;> rfl
  accept := hexFed_accept
  more {s t beat} hfed hframed hlane hlast := by
    have hfed : HexFed s.params.hexImpl s.block t := hfed
    cases hi : s.params.hexImpl with
    | pipelined =>
      rw [hi] at hfed hframed
      rcases lane_cases_of_framed (by decide) hframed hlane with ⟨-, -, h⟩ | ⟨x, hx, -⟩ | ⟨x, y, -, h⟩
      · simp [hlast] at h
      · rw [hx, hexOp, hexdecStep_block_pipelined (s := s) hi beat s.nA]
        exact hexPipelined_more hfed _ hx hlast
      · exact absurd h (by decide)
    | parallel =>
      rw [hi] at hfed hframed
      rcases lane_cases_of_framed (by decide) hframed hlane with ⟨-, -, h⟩ | ⟨x, -, h | h⟩ | ⟨x, y, hxy, -⟩
      · simp [hlast] at h
      · simp [hlast] at h
      · exact absurd h (by decide)
      · obtain ⟨e, b', hstep, hmode, hop, hfed'⟩ := hexParallel_full hfed hxy
        rw [hxy, hexOp, hexdecStep_block_parallel (s := s) hi beat s.nA, hstep, hlast]
        exact ⟨hmode, hop, hfed'⟩
  last {s t beat} hfed hframed hlane hlast := by
    have hfed : HexFed s.params.hexImpl s.block t := hfed
    cases hi : s.params.hexImpl with
    | pipelined =>
      rw [hi] at hfed hframed
      rw [hexOp, hexdecStep_block_pipelined (s := s) hi beat s.nA]
      refine hexPipelined_last hfed _ ?_ hlast
      rcases lane_cases_of_framed (by decide) hframed hlane with ⟨hnull, h, -⟩ | ⟨x, hx, -⟩ | ⟨x, y, -, h⟩
      · exact .inl ⟨hnull, List.eq_nil_of_length_eq_zero h⟩
      · exact .inr ⟨x, hx⟩
      · exact absurd h (by decide)
    | parallel =>
      rw [hi] at hfed hframed
      rw [hexOp, hexdecStep_block_parallel (s := s) hi beat s.nA]
      refine hexParallel_last hfed ?_ hlast
      rcases lane_cases_of_framed (by decide) hframed hlane with ⟨hnull, h, -⟩ | ⟨x, hx, -⟩ | ⟨x, y, hxy, -⟩
      · exact .inl ⟨hnull, List.eq_nil_of_length_eq_zero h⟩
      · exact .inr (.inl ⟨x, hx⟩)
      · exact .inr (.inr ⟨x, y, hxy⟩)

/-- Settles O47: the invariant `HexFed` is true at acceptance and kept by every beat, and the last beat turns it into the
result of `decode_hex`. -/
theorem hexdecRefines : Obligations.HexdecRefines := by
  intro s t xs rest hidle hclean hfits hframe hinputs
  obtain ⟨hrun, u, hreaches, hresponds, hrest⟩ := hexOp_sound.refines hidle hclean hfits hframe hinputs
  exact ⟨hrun, u, hreaches, hresponds.mode, hresponds.op, hresponds.res, hresponds.rp, hrest⟩

end Sys2Proof.Proofs
end

section
/-! PROOFS. B64ENC computes `encode_base64` (41_b64enc.md section 3). -/

namespace Sys2Proof.Proofs
open Sys2Proof Sys2Proof.Machine

/-! ## `encode_base64` on a sequence that grows -/

/-- Complete groups may be cut off in front (41_b64enc.md R121). -/
theorem encodeGroups_append {d : List Byte} (hd : d.length % 3 = 0) (g : List Byte) :
    encodeGroups (d ++ g) = encodeGroups d ++ encodeGroups g := by
  match d with
  | [] => rfl
  | [x] | [x, y] => simp at hd
  | x :: y :: z :: rest =>
    have hrest : rest.length % 3 = 0 := by simp only [List.length_cons] at hd; omega
    simp only [List.cons_append, encodeGroups, encodeGroups_append hrest g, List.append_assoc]

/-- At most three bytes are one group, or none. -/
theorem encodeGroups_of_group {g : List Byte} (h : g.length ≤ 3) :
    encodeGroups g = if g.length = 0 then [] else emitGroup (pack g) g.length := by
  match g with
  | [] => rfl
  | [x] | [x, y] => rfl
  | [x, y, z] => simp [encodeGroups, encGroup]
  | _ :: _ :: _ :: _ :: _ => simp only [List.length_cons] at h; omega

/-- The bit-packer puts a byte where `pack` has it (41_b64enc.md R122, R128). -/
theorem placeByte_pack {g : List Byte} (h : g.length ≤ 2) (x : Byte) :
    placeByte (pack g) x g.length = pack (g ++ [x]) := by
  match g with
  | [] => simp [placeByte, pack]
  | [a] => simp [placeByte, pack]
  | [a, b] => simp [placeByte, pack]
  | _ :: _ :: _ :: _ => simp at h

/-! ## The registers while the sequence comes in -/

/-- The bytes taken are complete groups, whose characters are in `out`, and the bytes of a group that is begun, which are in
`acc` (10_state.md R28, R29). -/
def B64Fed (_ : HexImpl) (b : Block) (t : List Byte) : Prop :=
  ∃ d g, t = d ++ g ∧ d.length % 3 = 0 ∧ g.length ≤ 2 ∧ b.gc.toNat = g.length ∧ b.acc = pack g ∧ b.out = encodeGroups d

/-- B64ENC, seen as an operation on stream A alone. -/
def b64Op : SoloOp := ⟨1#2, encodeBase64, B64Fed, fun beat s => { s with block := s.block.b64enc beat }⟩

theorem b64Op_act_block (beat : Beat) (s : State) : (b64Op.act beat s).block = s.block.b64enc beat := rfl

theorem b64Fed_accept (h : HexImpl) (b : Block) : B64Fed h (b.accept 1#2) [] :=
  ⟨[], [], rfl, rfl, by simp, by simp, by simp [pack], by simp [encodeGroups]⟩

/-- The last mark emits the group that is begun: then `out` has the text of the whole sequence. -/
theorem b64encEnd_responds {b : Block} {d g : List Byte} (hd : d.length % 3 = 0) (hg : g.length ≤ 3)
    (hout : b.out = encodeGroups d) :
    Responds (b64encEnd true (pack g) g.length b) b.op (encodeBase64 (d ++ g)) := by
  rw [b64encEnd_last, hout]
  refine ⟨rfl, rfl, ?_, rfl⟩
  rw [encodeBase64, encodeGroups_append hd, encodeGroups_of_group hg]
  by_cases h0 : g.length = 0
  · simp [h0]
  · simp [h0]

/-- A byte goes into its group; the third one sends the group to `out`. -/
theorem b64enc_byte {h : HexImpl} {b : Block} {t : List Byte} {beat : Beat} {x : Byte} (hfed : B64Fed h b t)
    (hlane : beat.lane = [x]) :
    ∃ d g b', t ++ [x] = d ++ g ∧ d.length % 3 = 0 ∧ g.length ≤ 2 ∧ b'.out = encodeGroups d ∧
      b'.mode = b.mode ∧ b'.op = b.op ∧ b.b64enc beat = b64encEnd beat.last (pack g) g.length b' := by
  obtain ⟨d, g, rfl, hd, hg, hgc, hacc, hout⟩ := hfed
  by_cases hthird : g.length = 2
  · refine ⟨d ++ (g ++ [x]), [], b.append (emitGroup (placeByte b.acc x b.gc.toNat) 3), by simp, by simp; omega, by simp, ?_,
      rfl, rfl, ?_⟩
    · have hgroup : encodeGroups (g ++ [x]) = emitGroup (pack (g ++ [x])) 3 := by
        simp [encodeGroups_of_group (g := g ++ [x]) (by simp; omega), hthird]
      rw [Block.append_out, hout, hacc, hgc, placeByte_pack hg, encodeGroups_append hd, hgroup]
    · rw [b64enc_third_byte hlane (hgc.trans hthird)]
      rfl
  · refine ⟨d, g ++ [x], b, by simp, hd, by simp; omega, hout, rfl, rfl, ?_⟩
    rw [b64enc_early_byte hlane (by omega), hgc, hacc, placeByte_pack hg]
    simp

/-! ## The operation -/

theorem b64Op_sound : b64Op.Sound where
  solo := .inr rfl
  exec_taken {s t x} hmode hop hfed htaken hproblem := by
    obtain ⟨d, g, -, -, hg, hgc, -, -⟩ := hfed
    have hheld : s.block.gc ≠ 3#2 := by bv_omega
    refine (exec_b64enc_run hmode hop).trans ((takeA_some htaken hproblem).trans ?_)
    exact if_neg fun hfault => hheld hfault.1
  act_nA _ _ := rfl
  act_env _ _ := rfl
  act_params _ _ := rfl
  act_withInputs _ _ _ := rfl
  accept := b64Fed_accept
  more {s t beat} hfed hframed hlane hlast := by
    rw [b64Op, laneWidth_b64enc] at hframed
    rcases lane_cases_of_framed (by decide) hframed hlane with ⟨-, -, h⟩ | ⟨x, hx, -⟩ | ⟨x, y, -, h⟩
    · simp [hlast] at h
    · obtain ⟨d, g, b', ht, hd, hg, hout, hmode, hop, hstep⟩ := b64enc_byte (h := s.params.hexImpl) hfed hx
      have hblock : (b64Op.act beat s).block = { b' with acc := pack g, gc := BitVec.ofNat 2 g.length } := by
        rw [b64Op_act_block, hstep, hlast, b64encEnd_more]
      rw [hblock, hx]
      refine ⟨hmode, hop, d, g, ht, hd, hg, ?_, rfl, hout⟩
      rw [BitVec.toNat_ofNat]
      omega
    · exact absurd h (by decide)
  last {s t beat} hfed hframed hlane hlast := by
    rw [b64Op, laneWidth_b64enc] at hframed
    rcases lane_cases_of_framed (by decide) hframed hlane with ⟨hnull, ht, -⟩ | ⟨x, hx, -⟩ | ⟨x, y, -, h⟩
    · obtain ⟨d, g, rfl, hd, hg, hgc, hacc, hout⟩ := hfed
      have hblock : (b64Op.act beat s).block = b64encEnd true (pack g) g.length s.block := by
        rw [b64Op_act_block, b64enc_null hnull, hlast, hacc, hgc]
      rw [hblock, hnull, List.append_nil]
      exact b64encEnd_responds hd (by omega) hout
    · obtain ⟨d, g, b', ht, hd, hg, hout, hmode, hop, hstep⟩ := b64enc_byte (h := s.params.hexImpl) hfed hx
      have hblock : (b64Op.act beat s).block = b64encEnd true (pack g) g.length b' := by rw [b64Op_act_block, hstep, hlast]
      rw [hblock, hx, ht, ← hop]
      exact b64encEnd_responds hd (by omega) hout
    · exact absurd h (by decide)

/-- Settles O48: the invariant `B64Fed` is true at acceptance and kept by every byte, and the last beat emits the group that
is begun; one lane makes as many beats as bytes, and one for the empty sequence. -/
theorem b64encRefines : Obligations.B64encRefines := by
  intro s b xs rest hidle hclean hfits hframe hinputs
  have hlength : xs.length = max 1 b.length := by
    rw [← frame_one_length, ← hframe, List.length_map]
  have hframe' : xs.map ABeat.beat = frame (laneWidth s.params.hexImpl b64Op.code) b := by
    rw [hframe, b64Op, laneWidth_b64enc]
  obtain ⟨hrun, u, hreaches, hresponds, hrest⟩ := b64Op_sound.refines hidle hclean hfits hframe' hinputs
  rw [hlength] at hrun hreaches
  exact ⟨hrun, u, hreaches, hresponds.mode, hresponds.op, hresponds.res, hresponds.rp, hrest⟩

end Sys2Proof.Proofs
end

section
/-! PROOFS. XORC computes `xor_combine` (42_xorc.md section 3). -/

namespace Sys2Proof.Proofs
open Sys2Proof Sys2Proof.Machine

/-! ## The registers while the sequences come in -/

/-- In the joint phase `out` has the combined elements. One stream ends before the other only when its sequence is shorter,
for what the other still brings has elements (42_xorc.md R146, R147). -/
def XorFed (b : Block) (x y : List Byte) : Prop :=
  match b.adone, b.bdone with
  | false, false => b.err = false ∧ x.length = y.length ∧ b.out = List.zipWith (· ^^^ ·) x y
  | false, true => x ≠ [] ∧ y.length ≤ x.length
  | true, false => y ≠ [] ∧ x.length ≤ y.length
  | true, true => False

theorem xorFed_joint_iff {b : Block} {x y : List Byte} (hadone : b.adone = false) (hbdone : b.bdone = false) :
    XorFed b x y ↔ b.err = false ∧ x.length = y.length ∧ b.out = List.zipWith (· ^^^ ·) x y := by
  simp only [XorFed, hadone, hbdone]

theorem xorFed_drainA_iff {b : Block} {x y : List Byte} (hadone : b.adone = false) (hbdone : b.bdone = true) :
    XorFed b x y ↔ x ≠ [] ∧ y.length ≤ x.length := by
  simp only [XorFed, hadone, hbdone]

theorem xorFed_drainB_iff {b : Block} {x y : List Byte} (hadone : b.adone = true) (hbdone : b.bdone = false) :
    XorFed b x y ↔ y ≠ [] ∧ x.length ≤ y.length := by
  simp only [XorFed, hadone, hbdone]

/-- XORC is open and has taken the elements `x` and `y`; more are to come. -/
structure XorFeeds (s : State) (x y : List Byte) : Prop where
  mode : s.block.mode = .run
  op : s.block.op = 2#2
  countA : s.nA = x.length
  countB : s.nB = y.length
  fitsA : withinMax s.params.maxLen x.length = true
  fitsB : withinMax s.params.maxLen y.length = true
  fed : XorFed s.block x y

theorem xorFeeds_accept (s : State) : XorFeeds (s.accept 2#2) [] [] where
  mode := by simp
  op := by simp
  countA := rfl
  countB := rfl
  fitsA := withinMax_zero _
  fitsB := withinMax_zero _
  fed := by simp [XorFed]

/-! ## The joint step -/

/-- The state after a joint step. -/
abbrev xorJoined (s : State) (ba bb : Beat) : State :=
  { s with nA := s.nA + ba.cnt, nB := s.nB + bb.cnt, block := s.block.xorcJoint ba bb }

/-- Two beats of one element each are combined; a null beat or a missing one combines with nothing. -/
theorem zipWith_append_xorLanes {x y la lb : List Byte} (h : x.length = y.length) (hl : la.length = lb.length)
    (hone : la.length ≤ 1) :
    List.zipWith (· ^^^ ·) (x ++ la) (y ++ lb) = List.zipWith (· ^^^ ·) x y ++ xorLanes la lb := by
  rw [List.zipWith_append h]
  match la, lb with
  | [], [] => rfl
  | [p], [q] => rfl
  | [], _ :: _ => simp at hl
  | _ :: _, [] => simp at hl
  | [_], _ :: _ :: _ => simp at hl
  | _ :: _ :: _, _ => simp at hone

theorem xorFed_joint {b : Block} {x y : List Byte} {ba bb : Beat} (hfed : XorFed b x y) (hadone : b.adone = false)
    (hbdone : b.bdone = false) (hframedA : framingOk 1 x.length ba = true) (hframedB : framingOk 1 y.length bb = true)
    (hlaneA : ba.lane.length = ba.cnt) (hlaneB : bb.lane.length = bb.cnt) :
    ((ba.last && bb.last) = true → Responds (b.xorcJoint ba bb) b.op (xorCombine (x ++ ba.lane) (y ++ bb.lane))) ∧
    ((ba.last && bb.last) = false → (b.xorcJoint ba bb).mode = b.mode ∧ (b.xorcJoint ba bb).op = b.op ∧
      (b.xorcJoint ba bb).adone = ba.last ∧ (b.xorcJoint ba bb).bdone = bb.last ∧
      XorFed (b.xorcJoint ba bb) (x ++ ba.lane) (y ++ bb.lane)) := by
  obtain ⟨herr, hlength, hout⟩ := (xorFed_joint_iff hadone hbdone).mp hfed
  have hzip (hc : ba.cnt = bb.cnt) :
      List.zipWith (· ^^^ ·) (x ++ ba.lane) (y ++ bb.lane) = b.out ++ xorLanes ba.lane bb.lane := by
    rw [hout, zipWith_append_xorLanes hlength (by omega) (hlaneA ▸ (framingOk_iff.mp hframedA).1)]
  rw [xorcJoint_eq, herr]
  refine ⟨fun hboth => ?_, fun hone => ?_⟩
  case refine_1 =>
    rw [if_pos hboth]
    refine ⟨rfl, rfl, ?_, rfl⟩
    obtain ⟨hla, hlb⟩ := Bool.and_eq_true_iff.mp hboth
    by_cases hc : ba.cnt = bb.cnt
    · rw [xorCombine_of_length_eq (by simp; omega), hzip hc]
      simp [mismatch, hc, hla, hlb]
    · rw [xorCombine_of_length_ne (by simp; omega)]
      simp [mismatch, hc]
  case refine_2 =>
    rw [hone, if_neg Bool.false_ne_true]
    refine ⟨rfl, rfl, rfl, rfl, ?_⟩
    have hleA := (framingOk_iff.mp hframedA).1
    have hleB := (framingOk_iff.mp hframedB).1
    cases hla : ba.last <;> cases hlb : bb.last
    · have hca := cnt_of_framed_more hframedA hla
      have hcb := cnt_of_framed_more hframedB hlb
      refine ⟨?_, by simp; omega, ?_⟩
      · simp [mismatch, hca, hcb]
      · simpa using (hzip (hca.trans hcb.symm)).symm
    · have hca := cnt_of_framed_more hframedA hla
      exact ⟨List.ne_nil_of_length_pos (by simp; omega), by simp; omega⟩
    · have hcb := cnt_of_framed_more hframedB hlb
      exact ⟨List.ne_nil_of_length_pos (by simp; omega), by simp; omega⟩
    · simp [hla, hlb] at hone

theorem XorFeeds.joint {s : State} {x y : List Byte} (h : XorFeeds s x y) (hadone : s.block.adone = false)
    (hbdone : s.block.bdone = false) {ba bb : Beat}
    (hproblemA : beatProblem .illFramedA s.params.maxLen 1 s.nA ba = none)
    (hproblemB : beatProblem .illFramedB s.params.maxLen 1 s.nB bb = none)
    (hlaneA : ba.lane.length = ba.cnt) (hlaneB : bb.lane.length = bb.cnt) :
    ((ba.last && bb.last) = true →
      Responds (xorJoined s ba bb).block 2#2 (xorCombine (x ++ ba.lane) (y ++ bb.lane))) ∧
    ((ba.last && bb.last) = false → XorFeeds (xorJoined s ba bb) (x ++ ba.lane) (y ++ bb.lane) ∧
      (xorJoined s ba bb).block.adone = ba.last ∧ (xorJoined s ba bb).block.bdone = bb.last) := by
  rw [h.countA] at hproblemA
  rw [h.countB] at hproblemB
  obtain ⟨hframedA, hmaxA⟩ := beatProblem_eq_none.mp hproblemA
  obtain ⟨hframedB, hmaxB⟩ := beatProblem_eq_none.mp hproblemB
  obtain ⟨hend, hmore⟩ := xorFed_joint h.fed hadone hbdone hframedA hframedB hlaneA hlaneB
  refine ⟨fun hboth => h.op ▸ hend hboth, fun hone => ?_⟩
  obtain ⟨hmode, hop, ha, hb, hfed⟩ := hmore hone
  exact ⟨⟨hmode.trans h.mode, hop.trans h.op, by simp [h.countA, hlaneA], by simp [h.countB, hlaneB],
    by simpa [hlaneA] using hmaxA, by simpa [hlaneB] using hmaxB, hfed⟩, ha, hb⟩

/-! ## The drain -/

abbrev xorDrainedA (s : State) (beat : Beat) : State :=
  { s with nA := s.nA + beat.cnt, block := s.block.xorcDrain beat }

abbrev xorDrainedB (s : State) (beat : Beat) : State :=
  { s with nB := s.nB + beat.cnt, block := s.block.xorcDrain beat }

theorem xorcDrain_last {b : Block} {beat : Beat} (h : beat.last = true) :
    Responds (b.xorcDrain beat) b.op ⟨.lengthMismatchError, []⟩ := by
  rw [xorcDrain_eq, if_pos h]
  exact ⟨rfl, rfl, rfl, rfl⟩

theorem xorcDrain_more {b : Block} {beat : Beat} (h : beat.last = false) : b.xorcDrain beat = b := by
  rw [xorcDrain_eq, h, if_neg Bool.false_ne_true]

/-- A stream that goes on after its first beats brings an element with each beat. -/
theorem cnt_pos_of_framed {w : Nat} {t : List Byte} (ht : t ≠ []) {beat : Beat} (h : framingOk w t.length beat = true) :
    0 < beat.cnt :=
  Nat.pos_of_ne_zero fun hnull => ht (List.eq_nil_of_length_eq_zero (first_of_framed_null h hnull))

theorem XorFeeds.drainA {s : State} {x y : List Byte} (h : XorFeeds s x y) (hadone : s.block.adone = false)
    (hbdone : s.block.bdone = true) {beat : Beat} (hproblem : beatProblem .illFramedA s.params.maxLen 1 s.nA beat = none)
    (hlane : beat.lane.length = beat.cnt) :
    (beat.last = true → Responds (xorDrainedA s beat).block 2#2 (xorCombine (x ++ beat.lane) y)) ∧
    (beat.last = false → XorFeeds (xorDrainedA s beat) (x ++ beat.lane) y ∧ (xorDrainedA s beat).block = s.block) := by
  rw [h.countA] at hproblem
  obtain ⟨hframed, hmax⟩ := beatProblem_eq_none.mp hproblem
  obtain ⟨hne, hle⟩ := (xorFed_drainA_iff hadone hbdone).mp h.fed
  have hpos := cnt_pos_of_framed hne hframed
  refine ⟨fun hlast => ?_, fun hlast => ?_⟩
  · rw [xorCombine_of_length_ne (by simp; omega), ← h.op]
    exact xorcDrain_last hlast
  · have hblock : (xorDrainedA s beat).block = s.block := xorcDrain_more hlast
    refine ⟨⟨hblock ▸ h.mode, hblock ▸ h.op, by simp [h.countA, hlane], h.countB, by simpa [hlane] using hmax, h.fitsB, ?_⟩,
      hblock⟩
    exact hblock.symm ▸ (xorFed_drainA_iff hadone hbdone).mpr ⟨by simp [hne], by simp; omega⟩

theorem XorFeeds.drainB {s : State} {x y : List Byte} (h : XorFeeds s x y) (hadone : s.block.adone = true)
    (hbdone : s.block.bdone = false) {beat : Beat} (hproblem : beatProblem .illFramedB s.params.maxLen 1 s.nB beat = none)
    (hlane : beat.lane.length = beat.cnt) :
    (beat.last = true → Responds (xorDrainedB s beat).block 2#2 (xorCombine x (y ++ beat.lane))) ∧
    (beat.last = false → XorFeeds (xorDrainedB s beat) x (y ++ beat.lane) ∧ (xorDrainedB s beat).block = s.block) := by
  rw [h.countB] at hproblem
  obtain ⟨hframed, hmax⟩ := beatProblem_eq_none.mp hproblem
  obtain ⟨hne, hle⟩ := (xorFed_drainB_iff hadone hbdone).mp h.fed
  have hpos := cnt_pos_of_framed hne hframed
  refine ⟨fun hlast => ?_, fun hlast => ?_⟩
  · rw [xorCombine_of_length_ne (by simp; omega), ← h.op]
    exact xorcDrain_last hlast
  · have hblock : (xorDrainedB s beat).block = s.block := xorcDrain_more hlast
    refine ⟨⟨hblock ▸ h.mode, hblock ▸ h.op, h.countA, by simp [h.countB, hlane], h.fitsA, by simpa [hlane] using hmax, ?_⟩,
      hblock⟩
    exact hblock.symm ▸ (xorFed_drainB_iff hadone hbdone).mpr ⟨by simp [hne], by simp; omega⟩

/-! ## Edges -/

/-- The wires carry a beat of one lane as it is. -/
theorem wired_beat_of_one {h : HexImpl} {n : Nat} {a : ABeat} (hframed : framingOk 1 n a.beat = true) :
    (a.wired h).beat = a.beat :=
  ABeat.wired_beat_of_framed (op := 2#2) (by rwa [laneWidth_xorc])

theorem XorFeeds.edge_joint {s : State} {x y : List Byte} (h : XorFeeds s x y) (hadone : s.block.adone = false)
    (hbdone : s.block.bdone = false) (hclean : s.clean) {xa : ABeat} {yb : BBeat}
    (hproblemA : beatProblem .illFramedA s.params.maxLen 1 s.nA xa.beat = none)
    (hproblemB : beatProblem .illFramedB s.params.maxLen 1 s.nB yb.beat = none) :
    Edge s (PortIn.operands (some xa) (some yb)) (xorJoined s xa.beat yb.beat) := by
  obtain ⟨hreadyA, hreadyB⟩ := readies_of_runXorc (runXorc_of_op h.mode h.op) true true
  have hbeat : (xa.wired s.params.hexImpl).beat = xa.beat := wired_beat_of_one (beatProblem_eq_none.mp hproblemA).1
  refine edge_operands h.mode hclean rfl (fun rest => ?_) (fun _ => by simp [hreadyA, hadone])
    (fun _ => by simp [hreadyB, hbdone])
  have hexec := exec_xorc_joint_taken (s := withInputs s (PortIn.operands (some xa) (some yb) :: rest))
    (x := xa.wired s.params.hexImpl) (y := yb) h.mode h.op hadone hbdone (by simp [PortIn.operands])
    (by simp [PortIn.operands]) (by simp [PortIn.operands]) (by rw [hbeat]; exact hproblemA) hproblemB
  rw [hbeat] at hexec
  rw [h.op]
  exact hexec

theorem XorFeeds.edge_drainA {s : State} {x y : List Byte} (h : XorFeeds s x y) (hadone : s.block.adone = false)
    (hbdone : s.block.bdone = true) (hclean : s.clean) {xa : ABeat}
    (hproblem : beatProblem .illFramedA s.params.maxLen 1 s.nA xa.beat = none) :
    Edge s (PortIn.operands (some xa) none) (xorDrainedA s xa.beat) := by
  obtain ⟨hreadyA, -⟩ := readies_of_runXorc (runXorc_of_op h.mode h.op) true false
  have hbeat : (xa.wired s.params.hexImpl).beat = xa.beat := wired_beat_of_one (beatProblem_eq_none.mp hproblem).1
  refine edge_operands h.mode hclean rfl (fun rest => ?_) (fun _ => by simp [hreadyA, hadone, hbdone])
    (fun hb => Bool.noConfusion hb)
  have htaken := (taken_drainA (s := withInputs s (PortIn.operands (some xa) none :: rest)) (by simp [PortIn.operands])
    h.mode h.op hadone hbdone).1
  have hexec := exec_xorc_drainA_taken (s := withInputs s (PortIn.operands (some xa) none :: rest))
    (x := xa.wired s.params.hexImpl) h.mode h.op hadone hbdone (htaken.trans (by simp [PortIn.operands]))
    (by rw [hbeat]; exact hproblem)
  rw [hbeat] at hexec
  rw [h.op]
  exact hexec

theorem XorFeeds.edge_drainB {s : State} {x y : List Byte} (h : XorFeeds s x y) (hadone : s.block.adone = true)
    (hbdone : s.block.bdone = false) (hclean : s.clean) {yb : BBeat}
    (hproblem : beatProblem .illFramedB s.params.maxLen 1 s.nB yb.beat = none) :
    Edge s (PortIn.operands none (some yb)) (xorDrainedB s yb.beat) := by
  obtain ⟨-, hreadyB⟩ := readies_of_runXorc (runXorc_of_op h.mode h.op) false true
  refine edge_operands h.mode hclean rfl (fun rest => ?_) (fun ha => Bool.noConfusion ha)
    (fun _ => by simp [hreadyB, hadone, hbdone])
  have htaken := (taken_drainB (s := withInputs s (PortIn.operands none (some yb) :: rest)) (by simp [PortIn.operands])
    h.mode h.op hadone hbdone).2
  have hexec := exec_xorc_drainB_taken (s := withInputs s (PortIn.operands none (some yb) :: rest)) h.mode h.op hadone hbdone
    (htaken.trans (by simp [PortIn.operands])) hproblem
  rw [h.op]
  exact hexec

/-! ## Paths -/

/-- Stream A alone, once stream B has ended with the sequence `y`. -/
theorem feedsStream_drainA (p : Params) (y : List Byte) :
    FeedsStream ABeat.beat (fun x => PortIn.operands (some x) none) 1 p 2#2 (fun x => xorCombine x y)
      fun s x => XorFeeds s x y ∧ s.block.adone = false ∧ s.block.bdone = true := by
  rintro s x xa ⟨h, hadone, hbdone⟩ rfl hclean hframed hlane hmax
  rw [← h.countA] at hframed hmax
  have hproblem := beatProblem_eq_none (ill := .illFramedA).mpr ⟨hframed, hmax⟩
  obtain ⟨hend, hmore⟩ := h.drainA hadone hbdone hproblem hlane
  refine ⟨h.mode, _, h.edge_drainA hadone hbdone hclean hproblem, rfl, rfl, hend, fun hlast => ?_⟩
  obtain ⟨hfeeds, hblock⟩ := hmore hlast
  exact ⟨hfeeds, hblock ▸ hadone, hblock ▸ hbdone⟩

/-- Stream B alone, once stream A has ended with the sequence `x`. -/
theorem feedsStream_drainB (p : Params) (x : List Byte) :
    FeedsStream BBeat.beat (fun y => PortIn.operands none (some y)) 1 p 2#2 (fun y => xorCombine x y)
      fun s y => XorFeeds s x y ∧ s.block.adone = true ∧ s.block.bdone = false := by
  rintro s y yb ⟨h, hadone, hbdone⟩ rfl hclean hframed hlane hmax
  rw [← h.countB] at hframed hmax
  have hproblem := beatProblem_eq_none (ill := .illFramedB).mpr ⟨hframed, hmax⟩
  obtain ⟨hend, hmore⟩ := h.drainB hadone hbdone hproblem hlane
  refine ⟨h.mode, _, h.edge_drainB hadone hbdone hclean hproblem, rfl, rfl, hend, fun hlast => ?_⟩
  obtain ⟨hfeeds, hblock⟩ := hmore hlast
  exact ⟨hfeeds, hblock ▸ hadone, hblock ▸ hbdone⟩

theorem lockStep_nil_right (xs : List ABeat) : lockStep xs [] = xs.map fun x => PortIn.operands (some x) none := by
  cases xs <;> rfl

theorem lockStep_nil_left (ys : List BBeat) : lockStep [] ys = ys.map fun y => PortIn.operands none (some y) := by
  cases ys <;> rfl

/-- What is left of both operands, from the joint phase on: the streams go on together, then the longer one alone. -/
theorem XorFeeds.path {s : State} {x y r q : List Byte} (h : XorFeeds s x y) (hadone : s.block.adone = false)
    (hbdone : s.block.bdone = false) (hclean : s.clean) {xs : List ABeat} {ys : List BBeat}
    (hframeA : xs.map ABeat.beat = frame 1 r) (hframeB : ys.map BBeat.beat = frame 1 q)
    (hfirstA : r = [] → x = []) (hfirstB : q = [] → y = []) (hfitsA : withinMax s.params.maxLen (x ++ r).length = true)
    (hfitsB : withinMax s.params.maxLen (y ++ q).length = true) :
    ∃ u, Path .run s (lockStep xs ys) u ∧ Responds u.block 2#2 (xorCombine (x ++ r) (y ++ q)) ∧ u.env = s.env ∧
      u.params = s.params := by
  induction xs generalizing s x y r q ys with
  | nil => rcases frame_cases Nat.one_pos r with ⟨-, hf⟩ | ⟨_, _, -, -, -, hf⟩ <;> simp [hf] at hframeA
  | cons xa xs ih =>
    match ys with
    | [] => rcases frame_cases Nat.one_pos q with ⟨-, hf⟩ | ⟨_, _, -, -, -, hf⟩ <;> simp [hf] at hframeB
    | yb :: ys =>
      obtain ⟨hframedA, hlaneA, hleA, hcasesA⟩ := frame_uncons (n := s.nA) Nat.one_pos hframeA fun hnil => by
        simp [h.countA, hfirstA hnil]
      obtain ⟨hframedB, hlaneB, hleB, hcasesB⟩ := frame_uncons (n := s.nB) Nat.one_pos hframeB fun hnil => by
        simp [h.countB, hfirstB hnil]
      have hmaxA : withinMax s.params.maxLen (s.nA + xa.beat.cnt) = true :=
        withinMax_of_le hfitsA (by rw [h.countA, List.length_append]; omega)
      have hmaxB : withinMax s.params.maxLen (s.nB + yb.beat.cnt) = true :=
        withinMax_of_le hfitsB (by rw [h.countB, List.length_append]; omega)
      have hproblemA := beatProblem_eq_none (ill := .illFramedA).mpr ⟨hframedA, hmaxA⟩
      have hproblemB := beatProblem_eq_none (ill := .illFramedB).mpr ⟨hframedB, hmaxB⟩
      have hedge := h.edge_joint hadone hbdone hclean hproblemA hproblemB
      obtain ⟨hend, hmore⟩ := h.joint hadone hbdone hproblemA hproblemB hlaneA hlaneB
      rcases hcasesA with ⟨hla, hxs, rfl⟩ | ⟨hla, r', hne, rfl, hrestA⟩ <;>
        rcases hcasesB with ⟨hlb, hys, rfl⟩ | ⟨hlb, q', hne', rfl, hrestB⟩
      case inl.inl =>
        rw [List.map_eq_nil_iff.mp hxs, List.map_eq_nil_iff.mp hys]
        exact ⟨_, .single h.mode hedge, hend (by rw [hla, hlb]; rfl), rfl, rfl⟩
      case inl.inr =>
        rw [List.map_eq_nil_iff.mp hxs, lockStep, lockStep_nil_left, ← List.append_assoc]
        obtain ⟨hfeeds, ha, hb⟩ := hmore (by rw [hla, hlb]; rfl)
        obtain ⟨u, hpath, hresponds, henv, hparams⟩ := (feedsStream_drainB s.params _).path Nat.one_pos
          ⟨hfeeds, ha.trans hla, hb.trans hlb⟩ rfl hedge.1 hrestB (fun hnil => absurd hnil hne')
          (by rwa [List.append_assoc])
        exact ⟨u, .edge h.mode hedge hpath, hresponds, henv, hparams⟩
      case inr.inl =>
        rw [List.map_eq_nil_iff.mp hys, lockStep, lockStep_nil_right, ← List.append_assoc]
        obtain ⟨hfeeds, ha, hb⟩ := hmore (by rw [hla, hlb]; rfl)
        obtain ⟨u, hpath, hresponds, henv, hparams⟩ := (feedsStream_drainA s.params _).path Nat.one_pos
          ⟨hfeeds, ha.trans hla, hb.trans hlb⟩ rfl hedge.1 hrestA (fun hnil => absurd hnil hne)
          (by rwa [List.append_assoc])
        exact ⟨u, .edge h.mode hedge hpath, hresponds, henv, hparams⟩
      case inr.inr =>
        rw [lockStep, ← List.append_assoc, ← List.append_assoc]
        obtain ⟨hfeeds, ha, hb⟩ := hmore (by rw [hla, hlb]; rfl)
        obtain ⟨u, hpath, hresponds, henv, hparams⟩ := ih hfeeds (ha.trans hla) (hb.trans hlb) hedge.1 hrestA hrestB
          (fun hnil => absurd hnil hne) (fun hnil => absurd hnil hne') (by rwa [List.append_assoc])
          (by rwa [List.append_assoc])
        exact ⟨u, .edge h.mode hedge hpath, hresponds, henv, hparams⟩

theorem lockStep_length (xs : List ABeat) (ys : List BBeat) : (lockStep xs ys).length = max xs.length ys.length := by
  induction xs generalizing ys with
  | nil => simp [lockStep_nil_left]
  | cons x xs ih =>
    cases ys with
    | nil => simp [lockStep_nil_right]
    | cons y ys => simp [lockStep, ih]

/-- The operand edges of both operands, from the acceptance of the command on. -/
theorem xorc_path {s : State} {a b : List Byte} (hclean : s.clean) (hfitsA : withinMax s.params.maxLen a.length = true)
    (hfitsB : withinMax s.params.maxLen b.length = true) {xs : List ABeat} {ys : List BBeat}
    (hframeA : xs.map ABeat.beat = frame 1 a) (hframeB : ys.map BBeat.beat = frame 1 b) :
    ∃ u, Path .run (s.accept 2#2) (lockStep xs ys) u ∧ Responds u.block 2#2 (xorCombine a b) ∧ u.env = s.env ∧
      u.params = s.params :=
  (xorFeeds_accept s).path (by simp) (by simp) hclean hframeA hframeB (fun _ => rfl) (fun _ => rfl) hfitsA hfitsB

/-- Settles O49: the invariant `XorFed` is true at acceptance, kept by every joint and drain step, and the last of them ends
with the result of `xor_combine`; the number of edges is the length of the longer frame. -/
theorem xorcRefines : Obligations.XorcRefines := by
  intro s a b xs ys rest hidle hclean hfitsA hfitsB hframeA hframeB hinputs joints drains
  obtain ⟨u, hpath, hresponds, henv, hparams⟩ := xorc_path hclean hfitsA hfitsB hframeA hframeB
  obtain ⟨hrun, v, hreaches, hresponds', hrest⟩ := hpath.refines hidle hclean hinputs hresponds henv hparams
  have hlength : (lockStep xs ys).length = joints + drains := by
    have hxs : xs.length = max 1 a.length := by rw [← frame_one_length, ← hframeA, List.length_map]
    have hys : ys.length = max 1 b.length := by rw [← frame_one_length, ← hframeB, List.length_map]
    rw [lockStep_length, hxs, hys]
    omega
  rw [hlength] at hrun hreaches
  exact ⟨hrun, v, hreaches, hresponds'.mode, hresponds'.op, hresponds'.res, hresponds'.rp, hrest⟩

end Sys2Proof.Proofs
end

section
/-! PROOFS. Whole transactions: the command, the operands, the result (10_state.md section 4), at the pace of the
environment (70_reset_and_hazards.md section 4). -/

namespace Sys2Proof.Proofs
open Sys2Proof Sys2Proof.Machine

/-! ## The frame of a result -/

/-- On one lane each beat has one element, and the last one the end mark (20_memory.md R52). -/
theorem frame_one_of_ne_nil {s : List Byte} (h : s ≠ []) :
    frame 1 s = (List.range s.length).map fun j =>
      ⟨((s.drop j).take 1).length, (s.drop j).take 1, j + 1 == s.length⟩ := by
  simp [frame, h]

@[simp] theorem resultFrame_length (r : Result) : (resultFrame r).length = r.beats := by
  simp [resultFrame, frame_one_length, Result.beats]

/-- The beat on offer is the one at the read position of the frame of the result (10_state.md R36, 20_memory.md R57). -/
theorem resultFrame_getElem? {s : State} (hrp : s.block.rp < s.block.res.beats) :
    (resultFrame s.block.res)[s.block.rp]? = some s.resultBeat.seen := by
  by_cases hnil : s.block.res.seq = []
  · have h0 : s.block.rp = 0 := by simpa [Result.beats, hnil] using hrp
    simp [resultFrame, hnil, h0, RBeat.seen, resultBeat_cnt_of_nil hnil, resultBeat_last_of_nil hnil]
  · have hpos := List.length_pos_iff.mpr hnil
    have hlt : s.block.rp < s.block.res.seq.length := by simp only [Result.beats] at hrp; omega
    have hdata : s.resultBeat.data = s.block.res.seq[s.block.rp] :=
      resultBeat_data_of_getElem? (List.getElem?_eq_getElem hlt)
    have hlast : s.resultBeat.last = (s.block.rp + 1 == s.block.res.seq.length) := by
      simp [State.resultBeat, hnil]
    have hpart : (s.block.res.seq.drop s.block.rp).take 1 = [s.block.res.seq[s.block.rp]] := by
      rw [List.drop_eq_getElem_cons hlt]
      rfl
    simp [resultFrame, frame_one_of_ne_nil hnil, hlt, RBeat.seen, resultBeat_cnt_of_ne_nil hnil, hdata, hlast, hpart]

/-- The end mark is on the last beat of the frame. -/
theorem resultBeat_last_iff_beats {s : State} (hrp : s.block.rp < s.block.res.beats) :
    s.resultBeat.last = true ↔ s.block.rp + 1 = s.block.res.beats := by
  simp only [State.resultBeat, Result.beats, Bool.or_eq_true, beq_iff_eq] at hrp ⊢
  omega

/-! ## Delivery -/

/-- The environment takes what is left of a result, and the block is idle. -/
theorem deliver_path {s : State} {r : Result} (hmode : s.block.mode = .resp) (hres : s.block.res = r)
    (hrp : s.block.rp < r.beats) (hclean : s.clean) :
    ∃ t, Path .resp s (List.replicate (r.beats - s.block.rp) PortIn.ready) t ∧ t.block.mode = .idle ∧
      t.block.op = s.block.op ∧ t.params = s.params ∧
      t.env.taken.map RBeat.seen = s.env.taken.map RBeat.seen ++ (resultFrame r).drop s.block.rp := by
  subst hres
  generalize hn : s.block.res.beats - s.block.rp = n
  induction n generalizing s with
  | zero => omega
  | succ n ih =>
    have hedge := edge_ready hmode hclean
    have hframe : (resultFrame s.block.res).drop s.block.rp =
        s.resultBeat.seen :: (resultFrame s.block.res).drop (s.block.rp + 1) := by
      obtain ⟨hlt, hbeat⟩ := List.getElem?_eq_some_iff.mp (resultFrame_getElem? hrp)
      rw [List.drop_eq_getElem_cons hlt, hbeat]
    have hlast := resultBeat_last_iff_beats hrp
    rw [List.replicate_succ, hframe]
    by_cases hend : s.block.rp + 1 = s.block.res.beats
    case pos =>
      have hn0 : n = 0 := by omega
      have hblock : (delivered s).block = { s.block with mode := .idle } := if_pos (hlast.mpr hend)
      refine ⟨delivered s, hn0 ▸ .single hmode hedge, by rw [hblock], by rw [hblock], rfl, ?_⟩
      rw [hend, ← resultFrame_length, List.drop_length]
      simp [delivered]
    case neg =>
      have hblock : (delivered s).block = { s.block with rp := s.block.rp + 1 } := if_neg (hlast.not.mpr hend)
      obtain ⟨t, hpath, hidle, hop, hparams, htaken⟩ := ih (s := delivered s) (by rw [hblock]; exact hmode) hedge.1
        (by rw [hblock]; dsimp only; omega) (by rw [hblock]; dsimp only; omega)
      rw [hblock] at hop htaken
      refine ⟨t, .edge hmode hedge hpath, hidle, hop, hparams, ?_⟩
      rw [htaken]
      simp [delivered]

/-! ## Operands -/

theorem mem_frame {w : Nat} {s : List Byte} {b : Beat} (h : b ∈ frame w s) :
    b.lane.length = b.cnt ∧ b.cnt ≤ w := by
  unfold frame at h
  dsimp only at h
  split at h
  · rw [List.mem_singleton.mp h]
    exact ⟨rfl, Nat.zero_le w⟩
  · obtain ⟨j, -, rfl⟩ := List.mem_map.mp h
    exact ⟨rfl, List.length_take_le w _⟩

/-- The beats of a frame survive the ports of stream A (20_memory.md R89). -/
theorem beats_onA {w : Nat} (hw : w ≤ 2) (s : List Byte) (junk : BitVec 16) :
    ((frame w s).map (·.onA junk)).map ABeat.beat = frame w s := by
  rw [List.map_map]
  refine (List.map_congr_left fun b hb => ?_).trans (List.map_id _)
  obtain ⟨hlane, hle⟩ := mem_frame hb
  obtain ⟨cnt, lane, last⟩ := b
  obtain rfl : lane.length = cnt := hlane
  match lane with
  | [] => exact beat_onA_nil last junk
  | [x] => exact beat_onA_one x last junk
  | [x, y] => exact beat_onA_two x y last junk
  | _ :: _ :: _ :: _ => simp only [List.length_cons] at hle; omega

theorem beats_onB (s : List Byte) (junk : Byte) :
    ((frame 1 s).map (·.onB junk)).map BBeat.beat = frame 1 s := by
  rw [List.map_map]
  refine (List.map_congr_left fun b hb => ?_).trans (List.map_id _)
  obtain ⟨hlane, hle⟩ := mem_frame hb
  obtain ⟨cnt, lane, last⟩ := b
  obtain rfl : lane.length = cnt := hlane
  match lane with
  | [] => exact beat_onB_nil last junk
  | [x] => exact beat_onB_one x last junk
  | _ :: _ :: _ => simp only [List.length_cons] at hle; omega

theorem laneWidth_le_two (h : HexImpl) (op : Code) : laneWidth h op ≤ 2 :=
  (laneWidth_le_lanesA h op).trans (lanesA_le_two h)

/-- The operand edges of any transaction lead to its result. -/
theorem operand_path {s : State} {tx : Transaction} (hclean : s.clean) (hfits : tx.fits s.params.maxLen = true) :
    ∃ u, Path .run (s.accept (encode tx.instr)) (tx.operandPins s.params.hexImpl) u ∧
      Responds u.block (encode tx.instr) tx.result ∧ u.env = s.env ∧ u.params = s.params := by
  cases tx with
  | hexdec t =>
    have hpath := hexOp_sound.path hclean hfits (beats_onA (laneWidth_le_two s.params.hexImpl 0#2) t 0#16)
    rw [Transaction.operandPins, Transaction.framesB, List.map_nil, lockStep_nil_right]
    exact hpath
  | b64enc b =>
    have hpath := b64Op_sound.path hclean hfits (beats_onA (laneWidth_le_two s.params.hexImpl 1#2) b 0#16)
    rw [Transaction.operandPins, Transaction.framesB, List.map_nil, lockStep_nil_right]
    exact hpath
  | xorc a b =>
    obtain ⟨hfitsA, hfitsB⟩ := Bool.and_eq_true_iff.mp hfits
    have hpath := xorc_path hclean hfitsA hfitsB (beats_onA (by decide) a 0#16) (beats_onB b 0#8)
    rw [Transaction.operandPins, Transaction.framesA, laneWidth_xorc]
    exact hpath
  | illegal => exact ⟨s.accept 3#2, .stay _, ⟨by simp, rfl, by simp [Transaction.result], by simp⟩, rfl, rfl⟩

/-! ## Pace -/

/-- The inputs `ps` lead from `s` to `t`, with any number of quiet edges before, between and after them. -/
def Paced (s : State) (ps : List PortIn) (t : State) : Prop :=
  ∀ ins : List PortIn, ins.filter (· ≠ PortIn.quiet) = ps → ∀ rest,
    reaches ins.length (withInputs s (ins ++ rest)) (withInputs t rest)

theorem Path.paced {m : Mode} {s t : State} {ps : List PortIn} (h : Path m s ps t) (hclean : s.clean) : Paced s ps t :=
  fun _ hins rest => h.reaches_paced hclean hins rest

theorem Paced.append {s t u : State} {ps qs : List PortIn} (h : Paced s ps t) (h' : Paced t qs u) :
    Paced s (ps ++ qs) u := by
  intro ins hins rest
  obtain ⟨ins₁, ins₂, rfl, h₁, h₂⟩ := List.filter_eq_append_iff.mp hins
  rw [List.length_append, List.append_assoc]
  exact reaches_add (h ins₁ h₁ _) (h' ins₂ h₂ rest)

/-- Any transaction from any idle state, at any pace of quiet edges. -/
theorem transaction_paced {s : State} {tx : Transaction} (hidle : s.block.mode = .idle) (hclean : s.clean)
    (hfits : tx.fits s.params.maxLen = true) :
    ∃ t, Paced s (tx.pins s.params.hexImpl) t ∧ t.block.mode = .idle ∧ t.block.op = encode tx.instr ∧ t.clean ∧
      t.params = s.params ∧ t.env.taken.map RBeat.seen = s.env.taken.map RBeat.seen ++ resultFrame tx.result := by
  have hcommand : Path .idle s [PortIn.command (encode tx.instr)] (s.accept (encode tx.instr)) :=
    .single hidle (edge_command hidle hclean _)
  obtain ⟨u, hoperands, hresponds, henv, hparams⟩ := operand_path hclean hfits
  have huclean : u.clean := hoperands.clean hclean
  have hbeats : 0 < tx.result.beats := Nat.lt_of_lt_of_le Nat.one_pos (le_max_left 1 _)
  obtain ⟨t, hready, htidle, hop, hparams', htaken⟩ := deliver_path hresponds.mode hresponds.res
    (by rw [hresponds.rp]; exact hbeats) huclean
  rw [hresponds.rp] at hready htaken
  refine ⟨t, ?_, htidle, hop.trans hresponds.op, hready.clean huclean, hparams'.trans hparams, ?_⟩
  · exact ((hcommand.paced hclean).append (hoperands.paced hclean)).append (hready.paced huclean)
  · rw [htaken, henv]
    rfl

/-- Settles O50: the command, the operands and the result are three paths, each of them at any pace. -/
theorem transactionDeliversItsResult : Obligations.TransactionDeliversItsResult := by
  intro s tx ins rest hidle hclean hfits hinputs hins
  obtain ⟨t, hpaced, htidle, hop, htclean, hparams, htaken⟩ := transaction_paced hidle hclean hfits
  have hreaches := hpaced ins hins rest
  rw [withInputs_self hinputs] at hreaches
  exact ⟨withInputs t rest, hreaches, htidle, hop, htaken, rfl, htclean, hparams⟩

/-- Settles O52: both instances show the frame of the result, which is a function of the transaction alone. -/
theorem resultsIgnoreHistoryVariantAndPace : Obligations.ResultsIgnoreHistoryVariantAndPace := by
  intro s s' tx ins ins' rest rest' hidle hclean hidle' hclean' hfits hfits' hinputs hins hinputs' hins'
  obtain ⟨t, hreaches, -, -, htaken, -⟩ := transactionDeliversItsResult s tx ins rest hidle hclean hfits hinputs hins
  obtain ⟨t', hreaches', -, -, htaken', -⟩ :=
    transactionDeliversItsResult s' tx ins' rest' hidle' hclean' hfits' hinputs' hins'
  exact ⟨t, t', resultFrame tx.result, hreaches, hreaches', htaken, htaken'⟩

/-! ## Scripts -/

/-- No edge of a transaction is quiet. -/
theorem ne_quiet_of_mem_lockStep {xs : List ABeat} {ys : List BBeat} {p : PortIn} (h : p ∈ lockStep xs ys) :
    p ≠ PortIn.quiet := by
  induction xs generalizing ys with
  | nil =>
    obtain ⟨y, -, rfl⟩ := List.mem_map.mp (lockStep_nil_left ys ▸ h)
    simp [PortIn.operands, PortIn.quiet, Offers.silent]
  | cons x xs ih =>
    match ys with
    | [] =>
      obtain ⟨z, -, rfl⟩ := List.mem_map.mp (lockStep_nil_right _ ▸ h)
      simp [PortIn.operands, PortIn.quiet, Offers.silent]
    | y :: ys =>
      rcases List.mem_cons.mp h with rfl | h
      · simp [PortIn.operands, PortIn.quiet, Offers.silent]
      · exact ih h

theorem filter_pins (tx : Transaction) (h : HexImpl) : (tx.pins h).filter (· ≠ PortIn.quiet) = tx.pins h := by
  refine List.filter_eq_self.mpr fun p hp => decide_eq_true ?_
  rcases List.mem_append.mp hp with hp | hp
  · rcases List.mem_cons.mp hp with rfl | hp
    · simp [PortIn.command, PortIn.quiet, Offers.silent]
    · exact ne_quiet_of_mem_lockStep hp
  · rw [List.eq_of_mem_replicate hp]
    simp [PortIn.ready, PortIn.quiet]

/-- Transactions driven back to back deliver their results in order. -/
theorem transactions_back_to_back (txs : List Transaction) {s : State} (hidle : s.block.mode = .idle) (hclean : s.clean)
    (hfits : ∀ tx ∈ txs, tx.fits s.params.maxLen = true) {rest : List PortIn}
    (hinputs : s.env.inputs = (txs.flatMap fun tx => tx.pins s.params.hexImpl) ++ rest) :
    ∃ t, reaches (txs.flatMap fun tx => tx.pins s.params.hexImpl).length s t ∧ t.block.mode = .idle ∧
      t.env.taken.map RBeat.seen =
        s.env.taken.map RBeat.seen ++ txs.flatMap (fun tx => resultFrame tx.result) ∧ t.env.inputs = rest := by
  induction txs generalizing s with
  | nil => exact ⟨s, reaches_zero s, hidle, by simp, hinputs⟩
  | cons tx txs ih =>
    rw [List.flatMap_cons, List.append_assoc] at hinputs
    obtain ⟨u, hreaches, huidle, -, htaken, hinputs', huclean, hparams⟩ := transactionDeliversItsResult s tx _ _ hidle hclean
      (hfits tx List.mem_cons_self) hinputs (filter_pins tx _)
    rw [← hparams] at hinputs' hfits
    obtain ⟨t, hreaches', htidle, htaken', hrest⟩ := ih huidle huclean
      (fun tx htx => hfits tx (List.mem_cons_of_mem _ htx)) hinputs'
    rw [hparams] at hreaches'
    refine ⟨t, ?_, htidle, ?_, hrest⟩
    · rw [List.flatMap_cons, List.length_append]
      exact reaches_add hreaches hreaches'
    · rw [htaken', htaken, List.flatMap_cons, List.append_assoc]

/-- A line issues a transaction (30_encoding.md R79). -/
theorem issues_ne_nil {rs : List Result} {l : Line} {ts : List Transaction} (h : l.issues rs = some ts) : ts ≠ [] := by
  cases l with
  | hexdec t => simp only [Line.issues, Option.some.injEq] at h; simp [← h]
  | b64enc x =>
    obtain ⟨b, -, rfl⟩ := Option.map_eq_some_iff.mp h
    simp
  | xorc x y =>
    obtain ⟨a, -, h⟩ := Option.bind_eq_some_iff.mp h
    obtain ⟨b, -, rfl⟩ := Option.map_eq_some_iff.mp h
    simp
  | illegal => simp only [Line.issues, Option.some.injEq] at h; simp [← h]
  | hex2b64 t => simp only [Line.issues, Option.some.injEq] at h; simp [← h]
  | hexxor t u => simp only [Line.issues, Option.some.injEq] at h; simp [← h]

/-- A line binds one result, and it is one of those that are delivered (log 21). -/
theorem lastResult_of_issues {rs : List Result} {l : Line} {ts : List Transaction} (h : l.issues rs = some ts) :
    ∃ r, lastResult ts = some r ∧ [r].Sublist (ts.map Transaction.result) := by
  have hne := issues_ne_nil h
  refine ⟨(ts.getLast hne).result, by simp [lastResult, List.getLast?_eq_some_getLast hne], ?_⟩
  exact List.singleton_sublist.mpr (List.mem_map_of_mem (List.getLast_mem hne))

/-- A script binds one result a line, each of them delivered, in order. -/
theorem scriptFrom_results {ls : List Line} {rs : List Result} {txs : List Transaction} {results : List Result}
    (h : scriptFrom rs ls = some (txs, results)) :
    ∃ new, results = rs ++ new ∧ new.length = ls.length ∧ new.Sublist (txs.map Transaction.result) := by
  induction ls generalizing rs txs results with
  | nil =>
    simp only [scriptFrom, Option.some.injEq, Prod.mk.injEq] at h
    obtain ⟨rfl, rfl⟩ := h
    exact ⟨[], by simp⟩
  | cons l ls ih =>
    simp only [scriptFrom] at h
    split at h
    · cases h
    · rename_i ts hts
      split at h
      · cases h
      · rename_i us rs' hrest
        simp only [Option.some.injEq, Prod.mk.injEq] at h
        obtain ⟨rfl, rfl⟩ := h
        obtain ⟨r, hr, hsub⟩ := lastResult_of_issues hts
        obtain ⟨new, rfl, hlength, hnew⟩ := ih hrest
        refine ⟨r :: new, by simp [hr], by simp [hlength], ?_⟩
        rw [List.map_append]
        exact hsub.append hnew

/-- Settles O53: the transactions are driven by induction over their list, the bound results counted by induction over the
lines. -/
theorem scriptsRunOnTheBlock : Obligations.ScriptsRunOnTheBlock := by
  intro s ls txs results rest hscript hidle hclean hfits hinputs
  obtain ⟨t, hreaches, htidle, htaken, hrest⟩ := transactions_back_to_back txs hidle hclean hfits hinputs
  obtain ⟨new, rfl, hlength, hsub⟩ := scriptFrom_results hscript
  exact ⟨t, hreaches, htidle, htaken, hrest, hlength, hsub⟩

end Sys2Proof.Proofs
end

section
/-! PROOFS. Which channels an edge takes from, and what the beat steps leave unchanged (20_memory.md section 1, 10_state.md
section 3). -/

namespace Sys2Proof.Proofs
open Sys2Proof Sys2Proof.Machine

/-! ## Taken and waiting -/

/-- Lock step: in the joint phase an edge takes a beat of both streams or of neither (20_memory.md R55). -/
theorem takenA_isSome_iff_of_joint {s : State} (h : joint s.block = true) : s.takenA.isSome ↔ s.takenB.isSome := by
  cases hrst : s.pins.rst
  · obtain ⟨hA, hB⟩ := taken_joint hrst h
    rw [hA, hB]
    cases s.pins.offers.a <;> cases s.pins.offers.b <;> simp
  · obtain ⟨-, hA, hB, -⟩ := taken_reset hrst
    simp [hA, hB]

/-- Settles O21: each clause is a law of the ports of its channel. -/
theorem channelsTakeTurns : Obligations.ChannelsTakeTurns := by
  intro s
  refine ⟨takenCmd_ne_none, fun h => ?_, takenR_ne_none, takenA_isSome_iff_of_joint⟩
  by_contra hm
  rcases h with h | h
  · exact h (takenA_eq_none_of_mode hm)
  · exact h (takenB_eq_none_of_mode hm)

/-- An operation that is not the open one waits (20_memory.md R65, log 10). -/
theorem exec_not_open {i : Instr} {s : State} (hm : s.block.mode = .run) (hop : s.block.op ≠ encode i) :
    exec i s = .next s := by
  cases i with
  | hexdec => rw [exec, execHexdec, runOperation_run hm]; exact if_neg hop
  | b64enc => rw [exec, execB64enc, runOperation_run hm]; exact if_neg hop
  | xorc => rw [exec, execXorc, runOperation_run hm]; exact if_neg hop
  | illegal => exact exec_illegal_run hm

theorem takenA_eq_none_of_adone {s : State} (hop : s.block.op = 2#2) (hadone : s.block.adone = true) :
    s.takenA = none := by
  simp [State.takenA, aReady, solo, joint, hop, hadone]

theorem takenB_eq_none_of_bdone {s : State} (hbdone : s.block.bdone = true) : s.takenB = none := by
  simp [State.takenB, bReady, joint, hbdone]

/-- XORC in `RUN`, with what is taken on each stream: nothing, a beat on both, or a beat on the one that goes on
(20_memory.md R55). -/
theorem xorc_run_taken {s t : State} (hm : s.block.mode = .run) (hop : s.block.op = 2#2) (h : exec .xorc s = .next t) :
    (s.takenA = none ∧ s.takenB = none ∧ t = s) ∨
    (∃ x y, s.block.adone = false ∧ s.block.bdone = false ∧ s.takenA = some x ∧ s.takenB = some y ∧
      beatProblem .illFramedA s.params.maxLen 1 s.nA x.beat = none ∧
      beatProblem .illFramedB s.params.maxLen 1 s.nB y.beat = none ∧ t = xorJoined s x.beat y.beat) ∨
    (∃ x, s.block.adone = false ∧ s.block.bdone = true ∧ s.takenA = some x ∧ s.takenB = none ∧
      beatProblem .illFramedA s.params.maxLen 1 s.nA x.beat = none ∧ t = xorDrainedA s x.beat) ∨
    (∃ y, s.block.adone = true ∧ s.block.bdone = false ∧ s.takenA = none ∧ s.takenB = some y ∧
      beatProblem .illFramedB s.params.maxLen 1 s.nB y.beat = none ∧ t = xorDrainedB s y.beat) := by
  by_cases htaken : s.takenA = none ∧ s.takenB = none
  case pos =>
    rw [exec_waits _ hm htaken.1 htaken.2] at h
    cases h
    exact .inl ⟨htaken.1, htaken.2, rfl⟩
  case neg =>
    right
    rw [exec_xorc_run hm hop] at h
    cases hadone : s.block.adone <;> cases hbdone : s.block.bdone
    case false.false =>
      have hboth := takenA_isSome_iff_of_joint (joint_of_neither_done hm hop hadone hbdone)
      simp only [xorcStep, hadone, hbdone] at h
      obtain ⟨x, hx⟩ : ∃ x, s.takenA = some x := by
        by_contra hA
        rw [← Option.isSome_iff_exists, hboth, Option.not_isSome_iff_eq_none] at hA
        exact htaken ⟨by simpa [hA] using hboth, hA⟩
      obtain ⟨y, hy⟩ := Option.isSome_iff_exists.mp (hboth.mp (by rw [hx]; rfl))
      rw [Machine.xorcJointStep, hy, if_neg (by simp), laneWidth_xorc] at h
      rcases takeA_next h with ⟨hA, -⟩ | ⟨x', hx', hproblemA, h'⟩
      · simp [hx] at hA
      rcases takeB_next h' with ⟨hB, -⟩ | ⟨y', hy', hproblemB, ht⟩
      · simp [takenB_withA, hy] at hB
      · cases ht
        exact .inl ⟨x', y', rfl, rfl, hx', hy', hproblemA, hproblemB, rfl⟩
    case false.true =>
      have hB := takenB_eq_none_of_bdone hbdone
      simp only [xorcStep, hadone, hbdone, xorcDrainA, laneWidth_xorc] at h
      rcases takeA_next h with ⟨hA, -⟩ | ⟨x, hx, hproblem, ht⟩
      · exact absurd ⟨hA, hB⟩ htaken
      · cases ht
        exact .inr (.inl ⟨x, rfl, rfl, hx, hB, hproblem, rfl⟩)
    case true.false =>
      have hA := takenA_eq_none_of_adone hop hadone
      simp only [xorcStep, hadone, hbdone, xorcDrainB] at h
      rcases takeB_next h with ⟨hB, -⟩ | ⟨y, hy, hproblem, ht⟩
      · exact absurd ⟨hA, hB⟩ htaken
      · cases ht
        exact .inr (.inr ⟨y, rfl, rfl, hA, hy, hproblem, rfl⟩)
    case true.true =>
      exact absurd ⟨takenA_eq_none_of_adone hop hadone, takenB_eq_none_of_bdone hbdone⟩ htaken

/-- HEXDEC in `RUN`, with what is taken. -/
theorem hexdec_run_taken {s t : State} (hm : s.block.mode = .run) (hop : s.block.op = 0#2)
    (h : exec .hexdec s = .next t) :
    (s.takenA = none ∧ t = s) ∨
    ∃ x, s.takenA = some x ∧
      beatProblem .illFramedA s.params.maxLen (laneWidth s.params.hexImpl 0#2) s.nA x.beat = none ∧
      t = hexdecStep x.beat { s with nA := s.nA + x.beat.cnt } := by
  rw [exec_hexdec_run hm hop] at h
  rcases takeA_next h with hwaits | ⟨x, hx, hproblem, ht⟩
  · exact .inl hwaits
  · cases ht
    exact .inr ⟨x, hx, hproblem, rfl⟩

/-- B64ENC in `RUN`, with what is taken. -/
theorem b64enc_run_taken {s t : State} (hm : s.block.mode = .run) (hop : s.block.op = 1#2)
    (h : exec .b64enc s = .next t) :
    (s.takenA = none ∧ t = s) ∨
    ∃ x, s.takenA = some x ∧ beatProblem .illFramedA s.params.maxLen 1 s.nA x.beat = none ∧
      t = { s with nA := s.nA + x.beat.cnt, block := s.block.b64enc x.beat } := by
  rw [exec_b64enc_run hm hop, laneWidth_b64enc] at h
  rcases takeA_next h with hwaits | ⟨x, hx, hproblem, ht⟩
  · exact .inl hwaits
  · unfold b64encStep at ht
    split at ht <;> cases ht
    exact .inr ⟨x, hx, hproblem, rfl⟩

/-! ## Frames -/

theorem next_inj {x : Answer} {s t : State} (h : x = .next s) (h' : x = .next t) : t = s := by
  rw [h] at h'
  cases h'
  rfl

/-! ## What HEXDEC writes -/

/-- What a HEXDEC beat writes to `b` before `Finish`: it appends `vs` to `out`, two characters at most to the byte, and
writes `hn` and `ph`, which the last beat leaves as it was. -/
structure HexWrites (b : Block) (beat : Beat) (vs : List Byte) (hn : Nibble) (ph e : Bool) (b' : Block) : Prop where
  step : b' = hexdecEnd beat.last e { b with out := b.out ++ vs, hn := hn, ph := ph }
  length : 2 * vs.length ≤ b.ph.toNat + beat.lane.length
  more : beat.last = false → 2 * vs.length + ph.toNat ≤ b.ph.toNat + beat.lane.length
  last : beat.last = true → ph = b.ph

theorem hexdecPipelined_writes {b : Block} {beat : Beat} (hlane : beat.lane = [] ∨ ∃ x, beat.lane = [x]) (junk : Nibble) :
    ∃ vs hn ph e, HexWrites b beat vs hn ph e (b.hexdecPipelined beat junk) := by
  rcases hlane with hnull | ⟨x, hx⟩
  case inl =>
    refine ⟨[], b.hn, b.ph, b.err || (beat.last && b.ph), ?_, by simp, fun _ => by simp, fun _ => rfl⟩
    rw [hexdecPipelined_null hnull, List.append_nil]
  case inr =>
    cases hph : b.ph
    case false =>
      rw [hexdecPipelined_high hx hph]
      refine ⟨[], (nib x).getD junk, !beat.last, if beat.last then true else b.err || (nib x).isNone, ?_, by simp, ?_, ?_⟩
      · cases beat.last <;> simp [hph]
      · simp +contextual [hx, hph]
      · simp +contextual [hph]
    case true =>
      rw [hexdecPipelined_low hx hph]
      refine ⟨if b.err || (nib x).isNone then [] else [b.hn ++ (nib x).getD 0#4], b.hn, beat.last,
        b.err || (nib x).isNone, ?_, ?_, ?_, ?_⟩
      · cases beat.last <;> cases b.err || (nib x).isNone <;> simp [hph]
      · cases b.err || (nib x).isNone <;> simp [hx, hph]
      · cases b.err || (nib x).isNone <;> simp +contextual [hx, hph]
      · simp +contextual [hph]

theorem hexdecParallel_writes {b : Block} {beat : Beat}
    (hlane : beat.lane = [] ∨ (∃ x, beat.lane = [x]) ∨ ∃ x y, beat.lane = [x, y]) :
    ∃ vs e, HexWrites b beat vs b.hn b.ph e (b.hexdecParallel beat) := by
  have hnone (e : Bool) (hstep : b.hexdecParallel beat = hexdecEnd beat.last e b) :
      ∃ vs e, HexWrites b beat vs b.hn b.ph e (b.hexdecParallel beat) :=
    ⟨[], e, by rw [hstep, List.append_nil], by simp, fun _ => by simp, fun _ => rfl⟩
  rcases hlane with hnull | ⟨x, hx⟩ | ⟨x, y, hxy⟩
  · exact hnone _ (hexdecParallel_null hnull)
  · exact hnone _ (hexdecParallel_half hx)
  · by_cases hbad : nib x = none ∨ nib y = none
    · exact hnone _ (hexdecParallel_full_invalid hxy hbad)
    · rw [not_or] at hbad
      obtain ⟨vx, hvx⟩ := Option.ne_none_iff_exists'.mp hbad.1
      obtain ⟨vy, hvy⟩ := Option.ne_none_iff_exists'.mp hbad.2
      refine ⟨if b.err then [] else [vx ++ vy], b.err, ?_, ?_, fun _ => ?_, fun _ => rfl⟩
      · rw [hexdecParallel_full_valid hxy hvx hvy]
        cases b.err <;> simp
      · cases b.err <;> simp [hxy]
      · cases b.err <;> simp [hxy]; omega

/-- The beat step of HEXDEC in either variant; under PARALLEL `hn`, `ph` and the free values stay (log 14). -/
theorem hexdecStep_writes {s : State} {n : Nat} {a : ABeat}
    (hframed : framingOk (laneWidth s.params.hexImpl 0#2) n a.beat = true) :
    ∃ vs hn ph e, HexWrites s.block a.beat vs hn ph e (hexdecStep a.beat s).block ∧
      (s.params.hexImpl = .parallel → ph = s.block.ph ∧ hn = s.block.hn ∧ (hexdecStep a.beat s).free = s.free) := by
  have hcases := lane_cases_of_framed (laneWidth_le_two _ _) hframed (ABeat.lane_length_of_framed hframed)
  cases hi : s.params.hexImpl with
  | pipelined =>
    have hlane : a.beat.lane = [] ∨ ∃ x, a.beat.lane = [x] := by
      rcases hcases with ⟨h, -, -⟩ | ⟨x, h, -⟩ | ⟨x, y, -, h⟩
      · exact .inl h
      · exact .inr ⟨x, h⟩
      · rw [hi] at h
        exact absurd h (by decide)
    obtain ⟨vs, hn, ph, e, h⟩ := hexdecPipelined_writes (b := s.block) hlane (Config.freeNibble s.free)
    refine ⟨vs, hn, ph, e, ?_, fun h => by cases h⟩
    rwa [hexdecStep_block_pipelined (s := s) hi a.beat s.nA]
  | parallel =>
    have hlane : a.beat.lane = [] ∨ (∃ x, a.beat.lane = [x]) ∨ ∃ x y, a.beat.lane = [x, y] := by
      rcases hcases with ⟨h, -, -⟩ | ⟨x, h, -⟩ | ⟨x, y, h, -⟩
      · exact .inl h
      · exact .inr (.inl ⟨x, h⟩)
      · exact .inr (.inr ⟨x, y, h⟩)
    obtain ⟨vs, e, h⟩ := hexdecParallel_writes (b := s.block) hlane
    refine ⟨vs, _, _, e, ?_, fun _ => ⟨rfl, rfl, by simp [hexdecStep, hi]⟩⟩
    rwa [hexdecStep_block_parallel (s := s) hi a.beat s.nA]

/-- Settles O17: a HEXDEC step waits, or it takes a beat and writes what `HexWrites` says. -/
theorem hexdecFrame : Obligations.HexdecFrame := by
  intro s t hm h
  by_cases hop : s.block.op = 0#2
  case neg =>
    obtain rfl := next_inj (exec_not_open (i := .hexdec) hm hop) h
    simp [hm]
  case pos =>
    rcases hexdec_run_taken hm hop h with ⟨-, rfl⟩ | ⟨x, htaken, hproblem, rfl⟩
    · simp [hm]
    obtain ⟨vs, hn, ph, e, hwrites, hparallel⟩ := hexdecStep_writes (s := { s with nA := s.nA + x.beat.cnt })
      (beatProblem_eq_none.mp hproblem).1
    obtain ⟨-, hnB, henv, hparams⟩ := hexdecStep_act x.beat { s with nA := s.nA + x.beat.cnt }
    rw [hnB, henv, hparams, hwrites.step]
    have hlast := hwrites.last
    cases hl : x.beat.last
    · simpa [hm] using hparallel
    · simpa [hm, hlast hl] using hparallel

end Sys2Proof.Proofs
end

section
/-! PROOFS. What the steps of B64ENC and XORC leave unchanged (10_state.md section 3), and what no step writes. -/

namespace Sys2Proof.Proofs
open Sys2Proof Sys2Proof.Machine

/-! ## What B64ENC writes -/

/-- The bits of the accumulator below the bytes it has are 0 (10_state.md R44 (c)). -/
def AccClear (a : Acc) (g : Nat) : Prop := ∀ i < 24 - 8 * g, a.getLsbD i = false

theorem accClear_placeByte {a : Acc} {g : Nat} (h : AccClear a g) (x : Byte) : AccClear (placeByte a x g) (g + 1) := by
  intro i hi
  rw [placeByte, BitVec.getLsbD_or, h i (by omega), BitVec.getLsbD_shiftLeft]
  have hlow : i < 16 - 8 * g := by omega
  simp [hlow]

theorem accClear_zero (g : Nat) : AccClear 0#24 g := fun i _ => by simp

/-- What a B64ENC beat writes to `b` before its end: it appends the complete group, if there is one now, and leaves a group
of `g` bytes in the accumulator `a`. Four characters go with three bytes (20_memory.md R61). -/
structure B64Writes (b : Block) (beat : Beat) (vs : List Byte) (a : Acc) (g : Nat) (b' : Block) : Prop where
  step : b' = b64encEnd beat.last a g { b with out := b.out ++ vs }
  groups : vs.length % 4 = 0
  length : 3 * vs.length + 4 * g = 4 * b.gc.toNat + 4 * beat.lane.length
  held : b.gc.toNat ≤ 2 → g ≤ 2
  clear : AccClear b.acc b.gc.toNat → AccClear a g

theorem emitGroup_length (a : Acc) (m : Nat) : (emitGroup a m).length = 4 := rfl

theorem b64enc_writes {b : Block} {beat : Beat} (hlane : beat.lane = [] ∨ ∃ x, beat.lane = [x]) :
    ∃ vs a g, B64Writes b beat vs a g (b.b64enc beat) := by
  rcases hlane with hnull | ⟨x, hx⟩
  · exact ⟨[], b.acc, b.gc.toNat, by rw [b64enc_null hnull, List.append_nil], rfl, by simp [hnull], id, id⟩
  · by_cases hthird : b.gc.toNat = 2
    · refine ⟨emitGroup (placeByte b.acc x b.gc.toNat) 3, 0#24, 0, b64enc_third_byte hx hthird, by rw [emitGroup_length], ?_, by omega,
        fun _ => accClear_zero 0⟩
      rw [emitGroup_length, hthird, hx]
      rfl
    · refine ⟨[], placeByte b.acc x b.gc.toNat, b.gc.toNat + 1, ?_, rfl, by simp [hx]; omega, by omega,
        fun h => accClear_placeByte h x⟩
      rw [b64enc_early_byte hx hthird, List.append_nil]

/-- The lanes of a beat that B64ENC takes. -/
theorem lane_of_framed_one {n : Nat} {a : ABeat} (hframed : framingOk 1 n a.beat = true) :
    a.beat.lane = [] ∨ ∃ x, a.beat.lane = [x] :=
  (cnt_cases_of_framed_one hframed).imp ABeat.beat_lane_zero fun h => ⟨_, ABeat.beat_lane_one h⟩

/-- Settles O18: a B64ENC step waits, or it takes a beat and writes what `B64Writes` says. -/
theorem b64encFrame : Obligations.B64encFrame := by
  intro s t hm h
  by_cases hop : s.block.op = 1#2
  case neg =>
    obtain rfl := next_inj (exec_not_open (i := .b64enc) hm hop) h
    simp [hm]
  case pos =>
    rcases b64enc_run_taken hm hop h with ⟨-, rfl⟩ | ⟨x, htaken, hproblem, rfl⟩
    · simp [hm]
    obtain ⟨vs, a, g, hwrites⟩ := b64enc_writes (b := s.block) (lane_of_framed_one (beatProblem_eq_none.mp hproblem).1)
    rw [hwrites.step]
    cases x.beat.last
    · simp [hm]
    · by_cases hg : g = 0
      · simp [hg]
      · simp [hg, List.append_assoc]

/-! ## XORC and the reserved code -/

/-- The registers that no step of XORC writes, and those it leaves while `RUN` goes on and when it ends. -/
def XorKeeps (b b' : Block) : Prop :=
  b'.op = b.op ∧ b'.ph = b.ph ∧ b'.hn = b.hn ∧ b'.acc = b.acc ∧ b'.gc = b.gc ∧ b.out <+: b'.out ∧
    (b'.mode = .run → b'.res = b.res ∧ b'.rp = b.rp) ∧
    (b'.mode ≠ .run → b'.err = b.err ∧ b'.adone = b.adone ∧ b'.bdone = b.bdone)

theorem xorcJoint_keeps {b : Block} (hm : b.mode = .run) (ba bb : Beat) : XorKeeps b (b.xorcJoint ba bb) := by
  rw [xorcJoint_eq, XorKeeps]
  cases ba.last && bb.last <;> cases b.err <;> simp [hm]

theorem xorcDrain_keeps {b : Block} (hm : b.mode = .run) (beat : Beat) : XorKeeps b (b.xorcDrain beat) := by
  rw [xorcDrain_eq, XorKeeps]
  cases beat.last <;> simp [hm]

theorem xorc_run_keeps {s t : State} (hm : s.block.mode = .run) (h : exec .xorc s = .next t) :
    XorKeeps s.block t.block ∧ t.free = s.free ∧ t.env = s.env ∧ t.params = s.params := by
  by_cases hop : s.block.op = 2#2
  case neg =>
    obtain rfl := next_inj (exec_not_open (i := .xorc) hm hop) h
    simp [XorKeeps, hm]
  case pos =>
    rcases xorc_run_taken hm hop h with ⟨-, -, rfl⟩ | ⟨x, y, -, -, -, -, -, -, rfl⟩ | ⟨x, -, -, -, -, -, rfl⟩ |
      ⟨y, -, -, -, -, -, rfl⟩
    · simp [XorKeeps, hm]
    · exact ⟨xorcJoint_keeps hm _ _, rfl, rfl, rfl⟩
    · exact ⟨xorcDrain_keeps hm _, rfl, rfl, rfl⟩
    · exact ⟨xorcDrain_keeps hm _, rfl, rfl, rfl⟩

/-- Settles O19: an XORC step waits, joins or drains, and each of them keeps the registers of `XorKeeps`. -/
theorem xorcAndReservedFrame : Obligations.XorcAndReservedFrame := by
  refine ⟨fun s t hm h => ?_, fun s hm => exec_illegal_run hm⟩
  obtain ⟨⟨hop, hph, hhn, hacc, hgc, hout, hrun, hend⟩, hrest⟩ := xorc_run_keeps hm h
  exact ⟨hop, hph, hhn, hacc, hgc, hout, hrun, hend, hrest⟩

/-! ## The model's own fields -/

@[simp] theorem deliver_nA (s : State) : s.deliver.nA = s.nA := by unfold State.deliver; split <;> rfl

@[simp] theorem deliver_nB (s : State) : s.deliver.nB = s.nB := by unfold State.deliver; split <;> rfl

@[simp] theorem deliver_params (s : State) : s.deliver.params = s.params := by unfold State.deliver; split <;> rfl

theorem deliver_env (s : State) : s.deliver.env = { s.env with taken := s.env.taken ++ s.takenR.toList } := by
  unfold State.deliver
  split
  · rename_i h
    simp [h]
  · rename_i h
    simp [h]

theorem takenR_eq_none_of_mode {s : State} (h : s.block.mode ≠ .resp) : s.takenR = none := by
  by_contra htaken
  exact h (takenR_ne_none htaken)

/-- In `RUN` no operation touches the environment's side or the parameters. -/
theorem exec_run_env {i : Instr} {s t : State} (hm : s.block.mode = .run) (h : exec i s = .next t) :
    t.env = s.env ∧ t.params = s.params := by
  cases i with
  | hexdec =>
    obtain ⟨-, -, -, -, -, -, -, -, -, -, henv, hparams⟩ := hexdecFrame s t hm h
    exact ⟨henv, hparams⟩
  | b64enc =>
    obtain ⟨-, -, -, -, -, -, -, -, -, -, -, henv, hparams⟩ := b64encFrame s t hm h
    exact ⟨henv, hparams⟩
  | xorc => exact (xorc_run_keeps hm h).2.2
  | illegal =>
    obtain rfl := next_inj (exec_illegal_run hm) h
    exact ⟨rfl, rfl⟩

/-- The reserved code takes no operand beat (30_encoding.md R76). -/
theorem taken_reserved {s : State} (hop : s.block.op = 3#2) : s.takenA = none ∧ s.takenB = none := by
  have hsolo : solo s.block = false := solo_eq_false_of_op (by simp [hop]) (by simp [hop])
  have hxorc : runXorc s.block = false := runXorc_eq_false_of_op (by simp [hop])
  constructor
  · simp [State.takenA, readies_of_closed hsolo hxorc true _]
  · simp [State.takenB, readies_of_closed hsolo hxorc _ true]

/-- In `RUN` the open operation counts the elements it takes (log 13). -/
theorem exec_run_counts {i : Instr} {s t : State} (hm : s.block.mode = .run) (hop : s.block.op = encode i)
    (h : exec i s = .next t) :
    t.nA = s.nA + s.takenA.elim 0 (·.cnt.toNat) ∧ t.nB = s.nB + s.takenB.elim 0 (·.cnt.toNat) := by
  cases i with
  | hexdec =>
    have hB := takenB_solo (solo_of_op hm (.inl hop))
    rcases hexdec_run_taken hm hop h with ⟨hA, rfl⟩ | ⟨x, hA, -, rfl⟩
    · simp [hA, hB]
    · obtain ⟨hnA, hnB, -⟩ := hexdecStep_act x.beat { s with nA := s.nA + x.beat.cnt }
      rw [hA, hB, hnA, hnB]
      exact ⟨rfl, rfl⟩
  | b64enc =>
    have hB := takenB_solo (solo_of_op hm (.inr hop))
    rcases b64enc_run_taken hm hop h with ⟨hA, rfl⟩ | ⟨x, hA, -, rfl⟩
    · simp [hA, hB]
    · simp [hA, hB]
  | xorc =>
    rcases xorc_run_taken hm hop h with ⟨hA, hB, rfl⟩ | ⟨x, y, -, -, hA, hB, -, -, rfl⟩ | ⟨x, -, -, hA, hB, -, rfl⟩ |
      ⟨y, -, -, hA, hB, -, rfl⟩ <;> simp [hA, hB]
  | illegal =>
    obtain rfl := next_inj (exec_illegal_run hm) h
    obtain ⟨hA, hB⟩ := taken_reserved hop
    simp [hA, hB]

/-- What `exec` does to the environment's side and to the parameters, in every mode. -/
theorem exec_env {i : Instr} {s t : State} (h : exec i s = .next t) :
    t.env = { s.env with taken := s.env.taken ++ s.takenR.toList } ∧ t.params = s.params := by
  cases hm : s.block.mode with
  | idle =>
    obtain rfl := next_inj (exec_idle i hm) h
    simp [takenR_eq_none_of_mode (s := s) (by simp [hm])]
  | run =>
    obtain ⟨henv, hparams⟩ := exec_run_env hm h
    simp [takenR_eq_none_of_mode (s := s) (by simp [hm]), henv, hparams]
  | resp =>
    obtain rfl := next_inj (exec_resp i hm) h
    exact ⟨deliver_env s, deliver_params s⟩

/-- Settles O7: mode by mode, and in `RUN` by whether the operation is the open one. -/
theorem modelFieldsFollowTheBeats : Obligations.ModelFieldsFollowTheBeats := by
  intro i s t h
  refine ⟨fun hm => ?_, fun hm hop => exec_run_counts hm hop h, fun hm hop => next_inj (exec_not_open hm hop) h,
    fun hm => ?_, exec_env h⟩
  · obtain rfl := next_inj (exec_idle i hm) h
    exact ⟨rfl, rfl, rfl⟩
  · obtain rfl := next_inj (exec_resp i hm) h
    exact ⟨deliver_nA s, deliver_nB s⟩

/-- Settles O58: a reset edge and the end of an edge leave the parameters, and so does `exec`. -/
theorem parametersAreFixed : Obligations.ParametersAreFixed := by
  intro s t h
  obtain ⟨-, ⟨-, rfl⟩ | ⟨-, -, rfl⟩ | ⟨c, u, -, -, hexec, rfl⟩⟩ := step_next h
  · rfl
  · rfl
  · exact (exec_env hexec).2

end Sys2Proof.Proofs
end

section
/-! PROOFS. Runs at any pace (70_reset_and_hazards.md sections 3 and 4): what the block has taken and given so far is always
that of some transactions, one after the other, and of a part of the next one. -/

namespace Sys2Proof.Proofs
open Sys2Proof Sys2Proof.Machine

/-! ## The open transaction -/

/-- What a stream has brought: the frame of `s` when it has ended, else the beginning of one. -/
def Streamed (done : Bool) (w : Nat) (bs : List Beat) (s : List Byte) : Prop :=
  if done then bs = frame w s else Begun w bs s

theorem Streamed.append {w : Nat} {bs : List Beat} {s : List Byte} (h : Streamed false w bs s) (hw : 0 < w) {b : Beat}
    (hframed : framingOk w s.length b = true) (hlane : b.lane.length = b.cnt) :
    Streamed b.last w (bs ++ [b]) (s ++ b.lane) := by
  cases hlast : b.last
  · exact Begun.more h hw hframed hlane hlast
  · exact Begun.last h hframed hlane hlast

/-- An operation of the model on stream A alone, with the transactions it serves. -/
structure SoloOp.Serves (o : SoloOp) (tx : List Byte → Transaction) : Prop where
  sound : o.Sound
  code (t : List Byte) : encode (tx t).instr = o.code
  result (t : List Byte) : (tx t).result = o.result t
  framesA (h : HexImpl) (t : List Byte) : (tx t).framesA h = frame (laneWidth h o.code) t
  framesB (t : List Byte) : (tx t).framesB = []
  fits (m : Option Nat) (t : List Byte) : (tx t).fits m = withinMax m t.length
  run_taken {s t : State} (hm : s.block.mode = .run) (hop : s.block.op = o.code)
    (h : exec (decode o.code) s = .next t) :
    (s.takenA = none ∧ t = s) ∨
    ∃ x, s.takenA = some x ∧
      beatProblem .illFramedA s.params.maxLen (laneWidth s.params.hexImpl o.code) s.nA x.beat = none ∧
      t = o.next x.beat s

theorem hexOp_serves : hexOp.Serves .hexdec where
  sound := hexOp_sound
  code _ := rfl
  result _ := rfl
  framesA _ _ := rfl
  framesB _ := rfl
  fits _ _ := rfl
  run_taken hm hop h := hexdec_run_taken hm hop h

theorem b64Op_serves : b64Op.Serves .b64enc where
  sound := b64Op_sound
  code _ := rfl
  result _ := rfl
  framesA _ _ := rfl
  framesB _ := rfl
  fits _ _ := rfl
  run_taken {s t} hm hop h := by
    rw [b64Op, laneWidth_b64enc]
    exact b64enc_run_taken hm hop h

/-- The operand beats `as` and `bs` that the open operation has taken, when more are to come. -/
inductive Operands (s : State) (as bs : List Beat) : Prop
  | solo {o : SoloOp} {tx : List Byte → Transaction} {t : List Byte} (ho : o.Serves tx) (hfeeds : o.Feeds s t)
      (hA : Streamed false (laneWidth s.params.hexImpl o.code) as t) (hB : bs = [])
  | xorc {x y : List Byte} (hfeeds : XorFeeds s x y) (hA : Streamed s.block.adone 1 as x)
      (hB : Streamed s.block.bdone 1 bs y)

/-- What the block takes of a transaction. -/
def txTraffic (h : HexImpl) (tx : Transaction) : Traffic := ⟨[encode tx.instr], tx.framesA h, tx.framesB⟩

/-- A transaction whose operands are complete: its beats, its bound, and the block about to offer its result. -/
def Complete (s : State) (y : Traffic) (tx : Transaction) : Prop :=
  y = txTraffic s.params.hexImpl tx ∧ tx.fits s.params.maxLen = true ∧ s.block.op = encode tx.instr ∧
    s.block.res = tx.result

/-- The open transaction has taken `y` and given `seen`. -/
inductive Progress (s : State) (y : Traffic) (seen : List (Code × List Byte × Bool)) : Prop
  | idle (hm : s.block.mode = .idle) (hy : y = ⟨[], [], []⟩) (hseen : seen = [])
  | run {as bs : List Beat} (hm : s.block.mode = .run) (hoperands : Operands s as bs) (hy : y = ⟨[s.block.op], as, bs⟩)
      (hseen : seen = [])
  | resp {tx : Transaction} (hm : s.block.mode = .resp) (htx : Complete s y tx) (hrp : s.block.rp < tx.result.beats)
      (hseen : seen = (resultFrame tx.result).take s.block.rp)

theorem beats_pos (r : Result) : 0 < r.beats := Nat.lt_of_lt_of_le Nat.one_pos (le_max_left 1 _)

theorem Progress.of_responds {s : State} {y : Traffic} {tx : Transaction}
    (hresponds : Responds s.block (encode tx.instr) tx.result) (hy : y = txTraffic s.params.hexImpl tx)
    (hfits : tx.fits s.params.maxLen = true) : Progress s y [] :=
  .resp hresponds.mode ⟨hy, hfits, hresponds.op, hresponds.res⟩ (by rw [hresponds.rp]; exact beats_pos _)
    (by simp [hresponds.rp])

/-! ## One edge -/

/-- The acceptance of a command begins a transaction. -/
theorem Progress.accept (s : State) (c : Code) : Progress (s.accept c) ⟨[c], [], []⟩ [] := by
  rcases command_cases c with rfl | rfl | rfl | rfl
  · exact .run (hexOp_sound.feeds_accept s).mode (.solo hexOp_serves (hexOp_sound.feeds_accept s) (Begun.nil _) rfl) rfl rfl
  · exact .run (b64Op_sound.feeds_accept s).mode (.solo b64Op_serves (b64Op_sound.feeds_accept s) (Begun.nil _) rfl) rfl rfl
  · exact .run (xorFeeds_accept s).mode (.xorc (xorFeeds_accept s) (Begun.nil _) (Begun.nil _)) rfl rfl
  · exact .of_responds (tx := .illegal) ⟨by simp, by simp [Transaction.instr, encode], by simp [Transaction.result], by simp⟩
      rfl rfl

/-- The operand beats an edge takes. -/
def beatsA (s : State) : List Beat := (s.takenA.map ABeat.beat).toList
def beatsB (s : State) : List Beat := (s.takenB.map BBeat.beat).toList

theorem beatsA_none {s : State} (h : s.takenA = none) : beatsA s = [] := by simp [beatsA, h]
theorem beatsB_none {s : State} (h : s.takenB = none) : beatsB s = [] := by simp [beatsB, h]
theorem beatsA_some {s : State} {x : ABeat} (h : s.takenA = some x) : beatsA s = [x.beat] := by simp [beatsA, h]
theorem beatsB_some {s : State} {y : BBeat} (h : s.takenB = some y) : beatsB s = [y.beat] := by simp [beatsB, h]

/-- An edge of an operation on stream A alone takes the next beat of its operand, or the last one. -/
theorem SoloOp.Feeds.progress {s t : State} {o : SoloOp} {tx : List Byte → Transaction} (ho : o.Serves tx)
    {x : List Byte} (h : o.Feeds s x) {as : List Beat} (hA : Streamed false (laneWidth s.params.hexImpl o.code) as x)
    (hexec : exec (decode o.code) s = .next t) : Progress t ⟨[o.code], as ++ beatsA s, []⟩ [] := by
  rcases ho.run_taken h.mode h.op hexec with ⟨hnone, rfl⟩ | ⟨a, htaken, hproblem, rfl⟩
  case inl =>
    rw [beatsA_none hnone, List.append_nil]
    exact .run h.mode (.solo ho h hA rfl) (by rw [h.op]) rfl
  case inr =>
    obtain ⟨hframed, hmax⟩ := beatProblem_eq_none.mp hproblem
    have hlane := ABeat.lane_length_of_framed hframed
    have hparams : (o.next a.beat s).params = s.params := ho.sound.act_params _ _
    have hA' := hA.append (laneWidth_pos _ _) (h.count ▸ hframed) hlane
    rw [beatsA_some htaken]
    cases hlast : a.beat.last
    case false =>
      have hfeeds := h.more ho.sound hproblem hlane hlast
      rw [hlast, ← hparams] at hA'
      exact .run hfeeds.mode (.solo ho hfeeds hA' rfl) (by rw [hfeeds.op]) rfl
    case true =>
      have hresponds := h.last ho.sound hproblem hlane hlast
      rw [hlast] at hA'
      refine .of_responds (tx := tx (x ++ a.beat.lane)) (by rwa [ho.code, ho.result]) ?_ ?_
      · rw [txTraffic, ho.code, ho.framesA, ho.framesB, hparams]
        exact congrArg (Traffic.mk _ · []) hA'
      · rw [ho.fits, hparams, List.length_append, hlane, ← h.count]
        exact hmax

/-- When both operands of XORC are complete its result follows. -/
theorem Progress.of_xorc {t : State} {x y : List Byte} {as bs : List Beat}
    (hresponds : Responds t.block 2#2 (xorCombine x y)) (hA : Streamed true 1 as x) (hB : Streamed true 1 bs y)
    (hfitsA : withinMax t.params.maxLen x.length = true) (hfitsB : withinMax t.params.maxLen y.length = true) :
    Progress t ⟨[2#2], as, bs⟩ [] := by
  have has : as = frame 1 x := hA
  have hbs : bs = frame 1 y := hB
  refine .of_responds (tx := .xorc x y) hresponds ?_ (Bool.and_eq_true_iff.mpr ⟨hfitsA, hfitsB⟩)
  rw [has, hbs, txTraffic, Transaction.framesA, laneWidth_xorc]
  rfl

/-- An edge of XORC takes the next beats of its operands, or completes them. -/
theorem XorFeeds.progress {s t : State} {x y : List Byte} (h : XorFeeds s x y) {as bs : List Beat}
    (hA : Streamed s.block.adone 1 as x) (hB : Streamed s.block.bdone 1 bs y) (hexec : exec .xorc s = .next t) :
    Progress t ⟨[2#2], as ++ beatsA s, bs ++ beatsB s⟩ [] := by
  rcases xorc_run_taken h.mode h.op hexec with ⟨hnoneA, hnoneB, rfl⟩ |
    ⟨xa, yb, hadone, hbdone, htakenA, htakenB, hproblemA, hproblemB, rfl⟩ |
    ⟨xa, hadone, hbdone, htakenA, hnoneB, hproblem, rfl⟩ | ⟨yb, hadone, hbdone, hnoneA, htakenB, hproblem, rfl⟩
  · rw [beatsA_none hnoneA, beatsB_none hnoneB, List.append_nil, List.append_nil]
    exact .run h.mode (.xorc h hA hB) (by rw [h.op]) rfl
  · obtain ⟨hframedA, hmaxA⟩ := beatProblem_eq_none.mp hproblemA
    obtain ⟨hframedB, hmaxB⟩ := beatProblem_eq_none.mp hproblemB
    have hlaneA := ABeat.lane_length ((framingOk_iff.mp hframedA).1.trans one_le_two)
    have hlaneB := BBeat.lane_length yb
    rw [hadone] at hA
    rw [hbdone] at hB
    have hA' := hA.append Nat.one_pos (h.countA ▸ hframedA) hlaneA
    have hB' := hB.append Nat.one_pos (h.countB ▸ hframedB) hlaneB
    rw [beatsA_some htakenA, beatsB_some htakenB]
    obtain ⟨hend, hmore⟩ := h.joint hadone hbdone hproblemA hproblemB hlaneA hlaneB
    cases hlast : xa.beat.last && yb.beat.last
    · obtain ⟨hfeeds, ha, hb⟩ := hmore hlast
      exact .run hfeeds.mode (.xorc hfeeds (ha.symm ▸ hA') (hb.symm ▸ hB')) (by rw [hfeeds.op]) rfl
    · obtain ⟨hlastA, hlastB⟩ := Bool.and_eq_true_iff.mp hlast
      refine .of_xorc (hend hlast) (hlastA ▸ hA') (hlastB ▸ hB') ?_ ?_
      · rw [List.length_append, hlaneA, ← h.countA]
        exact hmaxA
      · rw [List.length_append, hlaneB, ← h.countB]
        exact hmaxB
  · obtain ⟨hframed, hmax⟩ := beatProblem_eq_none.mp hproblem
    have hlane := ABeat.lane_length ((framingOk_iff.mp hframed).1.trans one_le_two)
    rw [hadone] at hA
    rw [hbdone] at hB
    have hA' := hA.append Nat.one_pos (h.countA ▸ hframed) hlane
    rw [beatsA_some htakenA, beatsB_none hnoneB, List.append_nil]
    obtain ⟨hend, hmore⟩ := h.drainA hadone hbdone hproblem hlane
    cases hlast : xa.beat.last
    · obtain ⟨hfeeds, hblock⟩ := hmore hlast
      rw [hlast] at hA'
      exact .run hfeeds.mode (.xorc hfeeds (by rwa [hblock, hadone]) (by rwa [hblock, hbdone])) (by rw [hfeeds.op]) rfl
    · refine .of_xorc (hend hlast) (hlast ▸ hA') hB ?_ h.fitsB
      rw [List.length_append, hlane, ← h.countA]
      exact hmax
  · obtain ⟨hframed, hmax⟩ := beatProblem_eq_none.mp hproblem
    have hlane := BBeat.lane_length yb
    rw [hadone] at hA
    rw [hbdone] at hB
    have hB' := hB.append Nat.one_pos (h.countB ▸ hframed) hlane
    rw [beatsA_none hnoneA, beatsB_some htakenB, List.append_nil]
    obtain ⟨hend, hmore⟩ := h.drainB hadone hbdone hproblem hlane
    cases hlast : yb.beat.last
    · obtain ⟨hfeeds, hblock⟩ := hmore hlast
      rw [hlast] at hB'
      exact .run hfeeds.mode (.xorc hfeeds (by rwa [hblock, hadone]) (by rwa [hblock, hbdone])) (by rw [hfeeds.op]) rfl
    · refine .of_xorc (hend hlast) hA (hlast ▸ hB') h.fitsA ?_
      rw [List.length_append, hlane, ← h.countB]
      exact hmax

/-- An edge of `RUN` takes the next beats of the operands, or completes them. -/
theorem Operands.progress {s t : State} {as bs : List Beat} (h : Operands s as bs)
    (hexec : exec (decode s.block.op) s = .next t) :
    Progress t ⟨[s.block.op], as ++ beatsA s, bs ++ beatsB s⟩ [] := by
  cases h with
  | solo ho hfeeds hA hB =>
    have hnone : s.takenB = none := takenB_solo (solo_of_op hfeeds.mode (hfeeds.op ▸ ho.sound.solo))
    rw [hfeeds.op] at hexec ⊢
    rw [hB, beatsB_none hnone]
    exact hfeeds.progress ho hA hexec
  | xorc hfeeds hA hB =>
    rw [hfeeds.op] at hexec ⊢
    exact hfeeds.progress hA hB hexec

/-! ## What an edge takes, mode by mode -/

theorem traffic_idle {s : State} (hm : s.block.mode = .idle) : s.traffic = ⟨s.takenCmd.toList, [], []⟩ := by
  simp [State.traffic, takenA_eq_none_of_mode (s := s) (by simp [hm]), takenB_eq_none_of_mode (s := s) (by simp [hm])]

theorem takenCmd_eq_none_of_mode {s : State} (h : s.block.mode ≠ .idle) : s.takenCmd = none := by
  by_contra htaken
  exact h (takenCmd_ne_none htaken)

theorem traffic_run {s : State} (hm : s.block.mode = .run) : s.traffic = ⟨[], beatsA s, beatsB s⟩ := by
  simp [State.traffic, takenCmd_eq_none_of_mode (s := s) (by simp [hm]), beatsA, beatsB]

theorem traffic_resp {s : State} (hm : s.block.mode = .resp) : s.traffic = ⟨[], [], []⟩ := by
  simp [State.traffic, takenCmd_eq_none_of_mode (s := s) (by simp [hm]), takenA_eq_none_of_mode (s := s) (by simp [hm]),
    takenB_eq_none_of_mode (s := s) (by simp [hm])]

@[simp] theorem traffic_append_nil (y : Traffic) : y.append ⟨[], [], []⟩ = y := by simp [Traffic.append]

@[simp] theorem traffic_nil_append (y : Traffic) : (⟨[], [], []⟩ : Traffic).append y = y := by simp [Traffic.append]

theorem traffic_append_assoc (x y z : Traffic) : (x.append y).append z = x.append (y.append z) := by
  simp [Traffic.append]

/-! ## Runs -/

/-- What the block takes of transactions, one after the other. -/
def txsTraffic (h : HexImpl) (txs : List Transaction) : Traffic :=
  ⟨txs.map fun tx => encode tx.instr, txs.flatMap (Transaction.framesA h), txs.flatMap Transaction.framesB⟩

theorem txsTraffic_concat (h : HexImpl) (txs : List Transaction) (tx : Transaction) :
    txsTraffic h (txs ++ [tx]) = (txsTraffic h txs).append (txTraffic h tx) := by
  simp [txsTraffic, txTraffic, Traffic.append]

/-- The block has taken `y` and given `seen`: whole transactions, and a part of the open one. -/
def Tracks (s : State) (y : Traffic) (seen : List (Code × List Byte × Bool)) : Prop :=
  ∃ txs y' seen', Progress s y' seen' ∧ (∀ tx ∈ txs, tx.fits s.params.maxLen = true) ∧
    y = (txsTraffic s.params.hexImpl txs).append y' ∧ seen = txs.flatMap (fun tx => resultFrame tx.result) ++ seen'

theorem Progress.finishEdge {s t : State} {y : Traffic} {seen : List (Code × List Byte × Bool)} (h : Progress t y seen) :
    Progress (Machine.finishEdge s t) y seen := by
  cases h with
  | idle hm hy hseen => exact .idle hm hy hseen
  | run hm hoperands hy hseen =>
    refine .run hm ?_ hy hseen
    cases hoperands with
    | solo ho h hA hB => exact .solo ho ⟨h.mode, h.op, h.count, h.fits, h.fed⟩ hA hB
    | xorc h hA hB => exact .xorc ⟨h.mode, h.op, h.countA, h.countB, h.fitsA, h.fitsB, h.fed⟩ hA hB
  | resp hm htx hrp hseen => exact .resp hm htx hrp hseen

theorem Tracks.finishEdge {s t : State} {y : Traffic} {seen : List (Code × List Byte × Bool)} (h : Tracks t y seen) :
    Tracks (Machine.finishEdge s t) y seen := by
  obtain ⟨txs, y', seen', hprogress, hrest⟩ := h
  exact ⟨txs, y', seen', hprogress.finishEdge, hrest⟩

/-- The result beat that is taken is the one on offer. -/
theorem takenR_eq_resultBeat {s : State} {r : RBeat} (h : s.takenR = some r) : r = s.resultBeat := by
  unfold State.takenR at h
  split at h <;> cases h
  rfl

/-- Delivery gives the next beat of the result, and with the last one the transaction is over. -/
theorem Progress.deliver {s : State} {y : Traffic} {seen : List (Code × List Byte × Bool)} (h : Progress s y seen)
    (hm : s.block.mode = .resp) :
    Progress s.deliver y (seen ++ (s.takenR.map RBeat.seen).toList) ∨
    ∃ tx, Complete s y tx ∧ s.deliver.block.mode = .idle ∧
      resultFrame tx.result = seen ++ (s.takenR.map RBeat.seen).toList := by
  cases h with
  | idle hm' hy hseen => simp [hm] at hm'
  | run hm' hoperands hy hseen => simp [hm] at hm'
  | @resp tx hm' htx hrp hseen =>
    cases htaken : s.takenR with
    | none =>
      left
      rw [deliver_not_taken htaken]
      simpa using Progress.resp hm htx hrp hseen
    | some r =>
      have hr : r = s.resultBeat := takenR_eq_resultBeat htaken
      have hrp' : s.block.rp < s.block.res.beats := by rwa [htx.2.2.2]
      have hseen' : seen ++ [s.resultBeat.seen] = (resultFrame tx.result).take (s.block.rp + 1) := by
        rw [List.take_add_one, ← htx.2.2.2, resultFrame_getElem? hrp', htx.2.2.2, hseen]
        rfl
      have hlast := resultBeat_last_iff_beats hrp'
      simp only [Option.map_some, Option.toList_some, hr, hseen']
      rw [deliver_taken htaken, hr]
      by_cases hend : s.block.rp + 1 = s.block.res.beats
      · rw [hlast.mpr hend, if_pos rfl, hend, htx.2.2.2]
        exact .inr ⟨tx, htx, rfl, by rw [← resultFrame_length, List.take_length]⟩
      · rw [if_neg (hlast.not.mpr hend)]
        have hmore : s.block.rp + 1 < tx.result.beats := by
          rw [← htx.2.2.2]
          omega
        exact .inl (.resp hm htx hmore rfl)

/-- Every edge without reset keeps the account. -/
theorem Tracks.step {s t : State} {y : Traffic} {seen : List (Code × List Byte × Bool)} (h : Tracks s y seen)
    (hrst : s.pins.rst = false) (hstep : step s = .next t) :
    Tracks t (y.append s.traffic) (seen ++ (s.takenR.map RBeat.seen).toList) := by
  obtain ⟨txs, y', seen', hprogress, hfits, rfl, rfl⟩ := h
  rw [traffic_append_assoc, List.append_assoc]
  obtain ⟨-, ⟨hrst', -⟩ | ⟨-, hdue, rfl⟩ | ⟨c, u, -, hdue, hexec, rfl⟩⟩ := step_next hstep
  · simp [hrst] at hrst'
  · refine Tracks.finishEdge ⟨txs, y', seen', hprogress, hfits, ?_⟩
    have hm : s.block.mode = .idle := by
      by_contra hm
      simp [dueCommand_open hm] at hdue
    have hcmd : s.takenCmd = none := by simpa [State.dueCommand, hm] using hdue
    simp [traffic_idle hm, hcmd, takenR_eq_none_of_mode (s := s) (by simp [hm])]
  · apply Tracks.finishEdge
    have hparams : u.params = s.params := (exec_env hexec).2
    rw [← hparams] at hfits ⊢
    cases hm : s.block.mode with
    | idle =>
      have hcmd : s.takenCmd = some c := by simpa [State.dueCommand, hm] using hdue
      obtain rfl := next_inj (exec_idle _ hm) hexec
      rw [encode_decode, traffic_idle hm, hcmd, takenR_eq_none_of_mode (s := s) (by simp [hm])]
      cases hprogress with
      | idle hm' hy hseen => exact ⟨txs, _, [], .accept s c, hfits, by simp [hy], by simp [hseen]⟩
      | run hm' hoperands hy hseen => simp [hm] at hm'
      | resp hm' htx hrp hseen => simp [hm] at hm'
    | run =>
      rw [dueCommand_open (by simp [hm])] at hdue
      cases hdue
      rw [traffic_run hm, takenR_eq_none_of_mode (s := s) (by simp [hm])]
      cases hprogress with
      | idle hm' hy hseen => simp [hm] at hm'
      | run hm' hoperands hy hseen =>
        exact ⟨txs, _, [], hoperands.progress hexec, hfits, by simp [hy, Traffic.append], by simp [hseen]⟩
      | resp hm' htx hrp hseen => simp [hm] at hm'
    | resp =>
      obtain rfl := next_inj (exec_resp _ hm) hexec
      rw [traffic_resp hm, traffic_append_nil]
      rcases hprogress.deliver hm with hmore | ⟨tx, htx, hidle, hframe⟩
      · exact ⟨txs, y', _, hmore, hfits, rfl, rfl⟩
      · obtain ⟨hy, htxfits, -, -⟩ := htx
        refine ⟨txs ++ [tx], _, [], .idle hidle rfl rfl, fun tx' htx' => ?_, ?_, ?_⟩
        · rcases List.mem_append.mp htx' with h | h
          · exact hfits tx' h
          · rw [List.mem_singleton.mp h, hparams]
            exact htxfits
        · rw [txsTraffic_concat, hy, hparams, traffic_append_nil]
        · simp [hframe]

/-- The environment has taken, at an edge, the result beat of that edge. -/
theorem step_taken {s t : State} (hrst : s.pins.rst = false) (hstep : step s = .next t) :
    t.env.taken = s.env.taken ++ s.takenR.toList ∧ t.env.inputs = s.env.inputs.tail := by
  obtain ⟨-, ⟨hrst', -⟩ | ⟨-, hdue, rfl⟩ | ⟨c, u, -, hdue, hexec, rfl⟩⟩ := step_next hstep
  · simp [hrst] at hrst'
  · have hm : s.block.mode = .idle := by
      by_contra hm
      simp [dueCommand_open hm] at hdue
    simp [takenR_eq_none_of_mode (s := s) (by simp [hm])]
  · simp [(exec_env hexec).1]

theorem rst_of_inputs {s : State} {k : Nat} (h : ∀ p ∈ s.env.inputs.take (k + 1), p.rst = false) :
    s.pins.rst = false := by
  simp only [State.pins, Env.drive]
  cases hi : s.env.inputs with
  | nil => rfl
  | cons p ps => exact h p (by simp [hi])

/-- The account along a run without reset. -/
theorem Tracks.reaches {k : Nat} {s t : State} {y : Traffic} {seen : List (Code × List Byte × Bool)} (h : Tracks s y seen)
    (hrst : ∀ p ∈ s.env.inputs.take k, p.rst = false) (hreaches : reaches k s t) :
    ∃ new, t.env.taken.map RBeat.seen = s.env.taken.map RBeat.seen ++ new ∧
      t.params = s.params ∧ Tracks t (y.append (trafficOf k s)) (seen ++ new) := by
  induction k generalizing s y seen with
  | zero =>
    cases hreaches
    exact ⟨[], by simp, rfl, by simpa [trafficOf] using h⟩
  | succ k ih =>
    obtain ⟨u, hstep, hrest⟩ := reaches_succ_inv hreaches
    have hrst' := rst_of_inputs hrst
    obtain ⟨htaken, hinputs⟩ := step_taken hrst' hstep
    have hlater : ∀ p ∈ u.env.inputs.take k, p.rst = false := fun p hp => by
      rw [hinputs] at hp
      refine hrst p ?_
      cases hi : s.env.inputs with
      | nil => simp [hi] at hp
      | cons q qs => exact List.mem_cons_of_mem _ (by simpa [hi] using hp)
    obtain ⟨new, htaken', hparams, htracks⟩ := ih (h.step hrst' hstep) hlater hrest
    refine ⟨(s.takenR.map RBeat.seen).toList ++ new, ?_, hparams.trans (parametersAreFixed s u hstep), ?_⟩
    · rw [htaken', htaken]
      cases s.takenR <;> simp
    · rw [← List.append_assoc]
      simpa only [trafficOf, hstep, traffic_append_assoc] using htracks

/-- Settles O51: the account `Tracks` begins empty in `IDLE`, every edge keeps it, and in `IDLE` no transaction is open. -/
theorem runsDeliverTheResultsOfWhatTheyTake : Obligations.RunsDeliverTheResultsOfWhatTheyTake := by
  intro s t k hidle hidle' hrst hreaches
  have hbegin : Tracks s ⟨[], [], []⟩ [] :=
    ⟨[], _, [], .idle hidle rfl rfl, fun tx htx => by simp at htx, rfl, rfl⟩
  obtain ⟨new, htaken, hparams, txs, y', seen', hprogress, hfits, hy, hseen⟩ := hbegin.reaches hrst hreaches
  rw [hparams] at hfits hy
  cases hprogress with
  | idle hm hy' hseen' =>
    rw [hy', traffic_append_nil, traffic_nil_append] at hy
    rw [hseen', List.append_nil, List.nil_append] at hseen
    rw [hseen] at htaken
    exact ⟨txs, by rw [hy]; rfl, by rw [hy]; rfl, by rw [hy]; rfl, htaken, hfits⟩
  | run hm hoperands hy' hseen' => simp [hidle'] at hm
  | resp hm htx hrp hseen' => simp [hidle'] at hm

end Sys2Proof.Proofs
end

section
/-! PROOFS. The reachable-state invariant (10_state.md R44): every edge keeps it. -/

namespace Sys2Proof.Proofs
open Sys2Proof Sys2Proof.Machine

/-! ## The part of the invariant that speaks of the registers -/

/-- The invariant, the wires apart. -/
def BlockInv (h : HexImpl) (b : Block) : Prop :=
  hexdecInv b ∧ b64encInv b ∧ xorcInv b ∧ respInv b ∧ runOpInv b ∧ matrixInv b ∧
    (h = .parallel → b.ph = false ∧ b.hn = 0#4)

theorem State.Inv.blockInv {s : State} (h : s.Inv) : BlockInv s.params.hexImpl s.block := by
  obtain ⟨hhex, hb64, hxorc, hresp, hop, hmatrix, hparallel, -⟩ := h
  exact ⟨hhex, hb64, hxorc, hresp, hop, hmatrix, hparallel⟩

theorem BlockInv.inv {s : State} (h : BlockInv s.params.hexImpl s.block) (hwires : wiresInv s) : s.Inv := by
  obtain ⟨hhex, hb64, hxorc, hresp, hop, hmatrix, hparallel⟩ := h
  exact ⟨hhex, hb64, hxorc, hresp, hop, hmatrix, hparallel, hwires⟩

/-- At the end of an edge only wires the ports have are remembered (20_memory.md R54). -/
theorem BlockInv.finishEdge {s u : State} (h : BlockInv s.params.hexImpl u.block) (hparams : u.params = s.params) :
    (Machine.finishEdge s u).Inv :=
  BlockInv.inv (s := Machine.finishEdge s u) (hparams.symm ▸ h) ⟨by simp [hparams], by simp⟩

/-- In `IDLE` the invariant speaks of the registers that PARALLEL does not have, and of no other. -/
theorem blockInv_idle {h : HexImpl} {b : Block} (hm : b.mode = .idle)
    (hparallel : h = .parallel → b.ph = false ∧ b.hn = 0#4) : BlockInv h b := by
  refine ⟨?_, ?_, ?_, ?_, ?_, ?_, hparallel⟩ <;> intro hm' <;> simp [hm] at hm'

/-- In `RESP` the invariant speaks of the result alone. -/
theorem blockInv_resp {h : HexImpl} {b : Block} (hm : b.mode = .resp) (hres : b.res.status ≠ .ok → b.res.seq = [])
    (hrp : b.rp < max 1 b.res.seq.length) (hmatrix : statusAllowed b.op b.res.status = true)
    (hparallel : h = .parallel → b.ph = false ∧ b.hn = 0#4) : BlockInv h b := by
  refine ⟨?_, ?_, ?_, fun _ => ⟨hres, hrp⟩, ?_, fun _ => hmatrix, hparallel⟩ <;> intro hm' <;> simp [hm] at hm'

/-- In `RUN` it speaks of the registers of the open operation alone. -/
theorem blockInv_hexdec {h : HexImpl} {b : Block} (hm : b.mode = .run) (hop : b.op = 0#2)
    (hregs : b.gc = 0#2 ∧ b.acc = 0#24 ∧ b.adone = false ∧ b.bdone = false)
    (hparallel : h = .parallel → b.ph = false ∧ b.hn = 0#4) : BlockInv h b := by
  refine ⟨fun _ _ => hregs, ?_, ?_, ?_, ?_, ?_, hparallel⟩ <;> intro hm' <;> simp [hm, hop] at hm' ⊢

theorem blockInv_b64enc {h : HexImpl} {b : Block} (hm : b.mode = .run) (hop : b.op = 1#2) (hb64 : b64encInv b)
    (hparallel : h = .parallel → b.ph = false ∧ b.hn = 0#4) : BlockInv h b := by
  refine ⟨?_, hb64, ?_, ?_, ?_, ?_, hparallel⟩ <;> intro hm' <;> simp [hm, hop] at hm' ⊢

theorem blockInv_xorc {h : HexImpl} {b : Block} (hm : b.mode = .run) (hop : b.op = 2#2) (hxorc : xorcInv b)
    (hparallel : h = .parallel → b.ph = false ∧ b.hn = 0#4) : BlockInv h b := by
  refine ⟨?_, ?_, hxorc, ?_, ?_, ?_, hparallel⟩ <;> intro hm' <;> simp [hm, hop] at hm' ⊢

/-! ## Every phase keeps it -/

section
variable {h : HexImpl} {b : Block} (hinv : BlockInv h b)
include hinv

theorem BlockInv.parallel : h = .parallel → b.ph = false ∧ b.hn = 0#4 := hinv.2.2.2.2.2.2

theorem BlockInv.accept (c : Code) : BlockInv h (b.accept c) := by
  have hparallel : h = .parallel → (b.accept c).ph = false ∧ (b.accept c).hn = 0#4 := fun hi => by
    simpa using (hinv.parallel hi).2
  rcases command_cases c with rfl | rfl | rfl | rfl
  · exact blockInv_hexdec (by simp) (by simp) (by simp) hparallel
  · exact blockInv_b64enc (by simp) (by simp) (by simp [b64encInv]) hparallel
  · exact blockInv_xorc (by simp) (by simp) (by simp [xorcInv]) hparallel
  · exact blockInv_resp (by simp) (by simp) (by simp) (by simp; decide) hparallel

theorem BlockInv.hexdec (hm : b.mode = .run) (hop : b.op = 0#2) {beat : Beat} {vs : List Byte} {hn : Nibble} {ph e : Bool}
    {b' : Block} (hwrites : HexWrites b beat vs hn ph e b') (hkeeps : h = .parallel → ph = b.ph ∧ hn = b.hn) :
    BlockInv h b' := by
  have hregs := hinv.1 hm hop
  have hparallel : h = .parallel → ph = false ∧ hn = 0#4 := fun hi => by
    rw [(hkeeps hi).1, (hkeeps hi).2]
    exact hinv.parallel hi
  rw [hwrites.step]
  cases beat.last
  · exact blockInv_hexdec hm hop hregs hparallel
  · rw [hexdecEnd_last]
    refine blockInv_resp rfl ?_ ?_ ?_ hparallel
    · cases e <;> simp
    · simp
    · cases e <;> simp [hop] <;> decide

theorem BlockInv.b64enc (hm : b.mode = .run) (hop : b.op = 1#2) {beat : Beat} {vs : List Byte} {a : Acc} {g : Nat}
    {b' : Block} (hwrites : B64Writes b beat vs a g b') : BlockInv h b' := by
  obtain ⟨hgc, herr, hph, hclear, hout⟩ := hinv.2.1 hm hop
  rw [hwrites.step]
  cases beat.last
  · have hg := hwrites.held hgc
    have hgc' : (BitVec.ofNat 2 g).toNat = g := by rw [BitVec.toNat_ofNat]; omega
    refine blockInv_b64enc hm hop (fun _ _ => ⟨?_, herr, hph, ?_, ?_⟩) hinv.parallel
    · exact hgc'.symm ▸ hg
    · change AccClear a (BitVec.ofNat 2 g).toNat
      rw [hgc']
      exact hwrites.clear hclear
    · have := hwrites.groups
      simp only [b64encEnd_more, List.length_append]
      omega
  · rw [b64encEnd_last]
    refine blockInv_resp rfl (by simp) ?_ ?_ hinv.parallel
    · simp
    · simp [hop]
      decide

theorem BlockInv.xorcJoint (hm : b.mode = .run) (hop : b.op = 2#2) (ba bb : Beat) : BlockInv h (b.xorcJoint ba bb) := by
  rw [xorcJoint_eq]
  cases hlast : ba.last && bb.last
  · refine blockInv_xorc hm hop (fun _ _ => ⟨?_, ?_⟩) hinv.parallel
    · simpa [Bool.and_eq_false_iff] using hlast
    · intro hne
      have hne' : ba.last ≠ bb.last := hne
      simp [mismatch, hne']
  · simp only [if_true]
    refine blockInv_resp rfl ?_ ?_ ?_ hinv.parallel
    · cases b.err || mismatch ba.cnt bb.cnt ba.last bb.last <;> simp
    · simp
    · cases b.err || mismatch ba.cnt bb.cnt ba.last bb.last <;> simp [hop] <;> decide

theorem BlockInv.xorcDrain (hop : b.op = 2#2) (beat : Beat) : BlockInv h (b.xorcDrain beat) := by
  cases hlast : beat.last
  · rwa [xorcDrain_more hlast]
  · rw [xorcDrain_eq, hlast, if_pos rfl]
    exact blockInv_resp rfl (by simp) (by simp) (by simp [hop]; decide) hinv.parallel

end

theorem BlockInv.exec_run {s u : State} (hinv : BlockInv s.params.hexImpl s.block) (hm : s.block.mode = .run)
    (hexec : exec (decode s.block.op) s = .next u) : BlockInv s.params.hexImpl u.block := by
  rcases command_cases s.block.op with hop | hop | hop | hop <;> rw [hop] at hexec
  · rcases hexdec_run_taken hm hop hexec with ⟨-, rfl⟩ | ⟨x, -, hproblem, rfl⟩
    · exact hinv
    obtain ⟨vs, hn, ph, e, hwrites, hkeeps⟩ := hexdecStep_writes (s := { s with nA := s.nA + x.beat.cnt })
      (beatProblem_eq_none.mp hproblem).1
    exact hinv.hexdec hm hop hwrites fun hi => ⟨(hkeeps hi).1, (hkeeps hi).2.1⟩
  · rcases b64enc_run_taken hm hop hexec with ⟨-, rfl⟩ | ⟨x, -, hproblem, rfl⟩
    · exact hinv
    obtain ⟨vs, a, g, hwrites⟩ := b64enc_writes (b := s.block) (lane_of_framed_one (beatProblem_eq_none.mp hproblem).1)
    exact hinv.b64enc hm hop hwrites
  · rcases xorc_run_taken hm hop hexec with ⟨-, -, rfl⟩ | ⟨x, y, -, -, -, -, -, -, rfl⟩ | ⟨x, -, -, -, -, -, rfl⟩ |
      ⟨y, -, -, -, -, -, rfl⟩
    · exact hinv
    · exact hinv.xorcJoint hm hop _ _
    · exact hinv.xorcDrain hop _
    · exact hinv.xorcDrain hop _
  · obtain rfl := next_inj (exec_illegal_run hm) hexec
    exact hinv

/-- Delivery moves the read position inside the result, or leaves `RESP` (10_state.md R36). -/
theorem BlockInv.deliver {s : State} (hinv : BlockInv s.params.hexImpl s.block) (hm : s.block.mode = .resp) :
    BlockInv s.params.hexImpl s.deliver.block := by
  cases htaken : s.takenR with
  | none => rwa [deliver_not_taken htaken]
  | some r =>
    obtain ⟨-, -, -, hresp, -, hmatrix, -⟩ := id hinv
    obtain ⟨hres, hrp⟩ := hresp hm
    have hr : r = s.resultBeat := takenR_eq_resultBeat htaken
    rw [deliver_taken htaken]
    cases hlast : r.last
    · have hmore := (resultBeat_last_iff_beats (s := s) hrp).not.mp (by rw [← hr, hlast]; exact Bool.false_ne_true)
      refine blockInv_resp hm hres ?_ (hmatrix hm) hinv.parallel
      exact lt_of_le_of_ne hrp hmore
    · exact blockInv_idle rfl hinv.parallel

/-- Settles O54: a reset edge makes the registers of the reset state, and each phase of an operation keeps `BlockInv`. -/
theorem invariantIsKept : Obligations.InvariantIsKept := by
  intro s t hinv hstep
  have hblock := State.Inv.blockInv hinv
  rcases step_cases hstep with ⟨-, rfl⟩ | ⟨-, u, rfl, rfl | ⟨-, c, -, rfl⟩ | ⟨hm, hexec⟩ | ⟨hm, rfl⟩⟩
  · exact BlockInv.inv (blockInv_idle rfl fun _ => ⟨rfl, rfl⟩) ⟨by simp, by simp⟩
  · exact hblock.finishEdge rfl
  · exact (hblock.accept c).finishEdge rfl
  · exact (hblock.exec_run hm hexec).finishEdge (exec_env hexec).2
  · exact (hblock.deliver hm).finishEdge (deliver_params s)

/-- Settles O55: in `IDLE` the invariant asks for the wires and, under PARALLEL, for `ph` and `hn`. -/
theorem invariantAtReset : Obligations.InvariantAtReset := by
  have hreset (p : Params) : (State.resetWith p).Inv :=
    BlockInv.inv (blockInv_idle rfl fun _ => ⟨rfl, rfl⟩) ⟨rfl, rfl⟩
  exact ⟨hreset, hreset _, by intro m; cases m <;> decide⟩

end Sys2Proof.Proofs
end

section
/-! PROOFS. The length invariant (70_reset_and_hazards.md R199, 20_memory.md R61): every edge keeps it. -/

namespace Sys2Proof.Proofs
open Sys2Proof Sys2Proof.Machine

theorem le_of_withinMax {m : Option Nat} {k n : Nat} (h : withinMax m k = true) (hn : n ∈ m) : k ≤ n := by
  cases hn
  exact of_decide_eq_true h

theorem capacity_hexdec (m : Nat) : capacity 0#2 m = m / 2 := rfl
theorem capacity_b64enc (m : Nat) : capacity 1#2 m = 4 * ((m + 2) / 3) := rfl
theorem capacity_xorc (m : Nat) : capacity 2#2 m = m := rfl

/-- In `IDLE` the length invariant asks for nothing. -/
theorem lengthInv_idle {s : State} (hm : s.block.mode = .idle) : s.LengthInv :=
  ⟨fun h => by simp [hm] at h, fun h => by simp [hm] at h⟩

/-- In `RESP` it bounds the result. -/
theorem lengthInv_resp {s : State} (hm : s.block.mode = .resp)
    (hcapacity : ∀ m ∈ s.params.maxLen, s.block.res.seq.length ≤ capacity s.block.op m) : s.LengthInv :=
  ⟨fun h => by simp [hm] at h, fun _ => hcapacity⟩

theorem lengthInv_resp_nil {s : State} (hm : s.block.mode = .resp) (hnil : s.block.res.seq = []) : s.LengthInv :=
  lengthInv_resp hm fun _ _ => by simp [hnil]

theorem LengthInv.finishEdge (s : State) {u : State} (h : u.LengthInv) : (Machine.finishEdge s u).LengthInv := h

theorem lengthInv_accept (s : State) (c : Code) : (s.accept c).LengthInv := by
  by_cases hc : c = 3#2
  · exact lengthInv_resp_nil (by simp [hc]) (by simp [hc])
  · refine ⟨fun _ => ⟨by simp, by simp, by simp, withinMax_zero _, withinMax_zero _⟩, fun h => ?_⟩
    simp [hc] at h

theorem lengthInv_deliver {s : State} (hm : s.block.mode = .resp) (h : s.LengthInv) : s.deliver.LengthInv := by
  cases htaken : s.takenR with
  | none => rwa [deliver_not_taken htaken]
  | some r =>
    rw [deliver_taken htaken]
    cases hlast : r.last
    · exact lengthInv_resp hm (h.2 hm)
    · exact lengthInv_idle rfl

/-- A byte of the result needs two characters (20_memory.md R61). -/
theorem lengthInv_hexdec {s : State} (h : s.LengthInv) (hm : s.block.mode = .run) (hop : s.block.op = 0#2) {x : ABeat}
    (hproblem : beatProblem .illFramedA s.params.maxLen (laneWidth s.params.hexImpl 0#2) s.nA x.beat = none) :
    (hexdecStep x.beat { s with nA := s.nA + x.beat.cnt }).LengthInv := by
  obtain ⟨hout, -, -, -, hmaxB⟩ := h.1 hm
  obtain ⟨hframed, hmax⟩ := beatProblem_eq_none.mp hproblem
  obtain ⟨vs, hn, ph, e, hwrites, -⟩ := hexdecStep_writes (s := { s with nA := s.nA + x.beat.cnt }) hframed
  obtain ⟨hnA, hnB, -, hparams⟩ := hexdecStep_act x.beat { s with nA := s.nA + x.beat.cnt }
  have hbound := hout hop
  have hlength := hwrites.length
  have hmore := hwrites.more
  have hblock := hwrites.step
  dsimp only at hlength hmore
  rw [ABeat.lane_length_of_framed hframed] at hlength hmore
  cases hlast : x.beat.last <;> rw [hlast] at hblock
  case false =>
    refine ⟨fun _ => ⟨fun _ => ?_, ?_, ?_, ?_, ?_⟩, fun hr => ?_⟩
    · have := hmore hlast
      rw [hblock, hnA]
      simp only [hexdecEnd_more, List.length_append] at this ⊢
      omega
    · rw [hblock]
      simp [hop]
    · rw [hblock]
      simp [hop]
    · rwa [hparams, hnA]
    · rwa [hparams, hnB]
    · rw [hblock] at hr
      simp [hm] at hr
  case true =>
    rw [hexdecEnd_last] at hblock
    refine lengthInv_resp (by rw [hblock]) fun m hm' => ?_
    rw [hparams] at hm'
    have hle := le_of_withinMax hmax hm'
    rw [hblock]
    cases e
    · simp only [hop, capacity_hexdec, Bool.false_eq_true, if_false, List.length_append]
      omega
    · simp

/-- Four characters of the result go with three bytes (20_memory.md R61). -/
theorem lengthInv_b64enc {s : State} (h : s.LengthInv) (hm : s.block.mode = .run) (hop : s.block.op = 1#2) {x : ABeat}
    (hproblem : beatProblem .illFramedA s.params.maxLen 1 s.nA x.beat = none)
    (hheld : ¬(s.block.gc = 3#2 ∧ x.beat.lane ≠ [])) :
    State.LengthInv { s with nA := s.nA + x.beat.cnt, block := s.block.b64enc x.beat } := by
  obtain ⟨-, hout, -, -, hmaxB⟩ := h.1 hm
  obtain ⟨hframed, hmax⟩ := beatProblem_eq_none.mp hproblem
  obtain ⟨vs, a, g, hwrites⟩ := b64enc_writes (b := s.block) (lane_of_framed_one hframed)
  have hbound := hout hop
  have hlength := hwrites.length
  have hlane := ABeat.lane_length ((framingOk_iff.mp hframed).1.trans one_le_two)
  have hgc : s.block.gc.toNat ≤ 2 ∨ x.beat.lane = [] := by
    by_contra hboth
    rw [not_or] at hboth
    exact hheld ⟨by bv_omega, hboth.2⟩
  cases hlast : x.beat.last
  case false =>
    have hfull := cnt_of_framed_more hframed hlast
    have hg : g ≤ 2 := hwrites.held (hgc.resolve_right fun hnil => by rw [hnil, hfull] at hlane; cases hlane)
    have hblock := hwrites.step
    rw [hlast, b64encEnd_more] at hblock
    refine ⟨fun _ => ⟨?_, fun _ => ?_, ?_, hmax, hmaxB⟩, fun hr => ?_⟩
    · simp [hblock, hop]
    · simp only [hblock, List.length_append, BitVec.toNat_ofNat]
      omega
    · simp [hblock, hop]
    · simp [hblock, hm] at hr
  case true =>
    have hblock := hwrites.step
    rw [hlast, b64encEnd_last] at hblock
    refine lengthInv_resp (by simp [hblock]) fun m hm' => ?_
    have hle := le_of_withinMax hmax hm'
    have hg : g ≤ 3 := by
      rcases hgc with hgc | hnil
      · exact (hwrites.held hgc).trans (by decide)
      · rw [hnil] at hlength
        have := s.block.gc.isLt
        simp only [List.length_nil] at hlength
        omega
    simp only [hblock, hop, capacity_b64enc]
    split
    · simp only [List.length_append]
      omega
    · simp only [List.length_append, emitGroup_length]
      omega

theorem xorLanes_length_le (xa xb : List Byte) : (xorLanes xa xb).length ≤ xa.length := by
  unfold xorLanes
  split
  · exact Nat.succ_le_succ (Nat.zero_le _)
  · exact Nat.zero_le _

/-- A byte of the result goes with a byte of stream A (20_memory.md R61). -/
theorem lengthInv_xorcJoint {s : State} (h : s.LengthInv) (hm : s.block.mode = .run) (hop : s.block.op = 2#2) {x : ABeat}
    {y : BBeat} (hproblemA : beatProblem .illFramedA s.params.maxLen 1 s.nA x.beat = none)
    (hproblemB : beatProblem .illFramedB s.params.maxLen 1 s.nB y.beat = none) :
    (xorJoined s x.beat y.beat).LengthInv := by
  obtain ⟨-, -, hout, -, -⟩ := h.1 hm
  obtain ⟨hframed, hmaxA⟩ := beatProblem_eq_none.mp hproblemA
  have hmaxB := (beatProblem_eq_none.mp hproblemB).2
  have hbound := hout hop
  have hlane := xorLanes_length_le x.beat.lane y.beat.lane
  rw [ABeat.lane_length ((framingOk_iff.mp hframed).1.trans one_le_two)] at hlane
  have hgrows : (if !s.block.err then s.block.out ++ xorLanes x.beat.lane y.beat.lane else s.block.out).length ≤
      s.nA + x.beat.cnt := by
    split
    · rw [List.length_append]
      omega
    · omega
  cases hlast : x.beat.last && y.beat.last
  · have hblock := xorcJoint_eq s.block x.beat y.beat
    rw [hlast] at hblock
    refine ⟨fun _ => ⟨?_, ?_, fun _ => ?_, hmaxA, hmaxB⟩, fun hr => ?_⟩
    · simp [hblock, hop]
    · simp [hblock, hop]
    · simp only [hblock, Bool.false_eq_true, if_false]
      exact hgrows
    · simp [hblock, hm] at hr
  · have hblock := xorcJoint_eq s.block x.beat y.beat
    rw [hlast] at hblock
    refine lengthInv_resp (by simp [hblock]) fun m hm' => ?_
    have hle := le_of_withinMax hmaxA hm'
    simp only [hblock, hop, if_true, capacity_xorc]
    cases s.block.err || mismatch x.beat.cnt y.beat.cnt x.beat.last y.beat.last
    · exact hgrows.trans hle
    · exact Nat.zero_le m

theorem lengthInv_xorcDrain {s : State} (h : s.LengthInv) (hm : s.block.mode = .run) (hop : s.block.op = 2#2)
    {nA nB : Nat} (beat : Beat) (hnA : s.nA ≤ nA) (hmaxA : withinMax s.params.maxLen nA = true)
    (hmaxB : withinMax s.params.maxLen nB = true) :
    State.LengthInv { s with nA := nA, nB := nB, block := s.block.xorcDrain beat } := by
  obtain ⟨-, -, hout, -, -⟩ := h.1 hm
  cases hlast : beat.last
  · rw [xorcDrain_more hlast]
    refine ⟨fun _ => ⟨?_, ?_, fun _ => (hout hop).trans hnA, hmaxA, hmaxB⟩, fun hr => ?_⟩
    · simp [hop]
    · simp [hop]
    · simp [hm] at hr
  · have hresponds : Responds (s.block.xorcDrain beat) s.block.op ⟨.lengthMismatchError, []⟩ := xorcDrain_last hlast
    exact lengthInv_resp_nil hresponds.mode (by rw [hresponds.res])

theorem lengthInv_exec_run {s u : State} (h : s.LengthInv) (hm : s.block.mode = .run)
    (hexec : exec (decode s.block.op) s = .next u) : u.LengthInv := by
  obtain ⟨-, -, -, hmaxA, hmaxB⟩ := h.1 hm
  rcases command_cases s.block.op with hop | hop | hop | hop <;> rw [hop] at hexec
  · rcases hexdec_run_taken hm hop hexec with ⟨-, rfl⟩ | ⟨x, -, hproblem, rfl⟩
    · exact h
    · exact lengthInv_hexdec h hm hop hproblem
  · rcases execB64enc_run_next hm hexec with rfl | ⟨x, -, -, hproblem, hheld, rfl⟩
    · exact h
    · exact lengthInv_b64enc h hm hop hproblem hheld
  · rcases xorc_run_taken hm hop hexec with ⟨-, -, rfl⟩ | ⟨x, y, -, -, -, -, hproblemA, hproblemB, rfl⟩ |
      ⟨x, -, -, -, -, hproblem, rfl⟩ | ⟨y, -, -, -, -, hproblem, rfl⟩
    · exact h
    · exact lengthInv_xorcJoint h hm hop hproblemA hproblemB
    · exact lengthInv_xorcDrain h hm hop _ (Nat.le_add_right _ _) (beatProblem_eq_none.mp hproblem).2 hmaxB
    · exact lengthInv_xorcDrain h hm hop _ le_rfl hmaxA (beatProblem_eq_none.mp hproblem).2
  · obtain rfl := next_inj (exec_illegal_run hm) hexec
    exact h

/-- Settles O56: in `IDLE` the invariant asks for nothing, and each phase of an operation keeps it. -/
theorem lengthInvariantIsKept : Obligations.LengthInvariantIsKept := by
  intro s t hinv hstep
  rcases step_cases hstep with ⟨-, rfl⟩ | ⟨-, u, rfl, rfl | ⟨-, c, -, rfl⟩ | ⟨hm, hexec⟩ | ⟨hm, rfl⟩⟩
  · exact lengthInv_idle rfl
  · exact LengthInv.finishEdge u hinv
  · exact LengthInv.finishEdge s (lengthInv_accept s c)
  · exact LengthInv.finishEdge s (lengthInv_exec_run hinv hm hexec)
  · exact LengthInv.finishEdge s (lengthInv_deliver hm hinv)

/-- Settles O57: the reset state is in `IDLE`. -/
theorem lengthInvariantAtReset : Obligations.LengthInvariantAtReset :=
  ⟨fun _ => lengthInv_idle rfl, lengthInv_idle rfl⟩

end Sys2Proof.Proofs
end

section
/-! PROOFS. Several instances (20_memory.md R66): they share nothing. -/

namespace Sys2Proof.Proofs
open Sys2Proof Sys2Proof.Machine

/-! ## One edge of one instance -/

theorem stepInstance_of_step {sys : List State} {k : Nat} {s t : State} (hk : sys[k]? = some s) (h : step s = .next t) :
    stepInstance sys k = .next (sys.set k t) := by
  simp [stepInstance, hk, h]

theorem stepInstance_of_none {sys : List State} {k : Nat} (hk : sys[k]? = none) : stepInstance sys k = .next sys := by
  simp [stepInstance, hk]

/-- An edge that goes on is an edge of none, or a step of its instance alone. -/
theorem stepInstance_next {sys sys' : List State} {k : Nat} (h : stepInstance sys k = .next sys') :
    (sys[k]? = none ∧ sys' = sys) ∨ ∃ s t, sys[k]? = some s ∧ step s = .next t ∧ sys' = sys.set k t := by
  cases hk : sys[k]? with
  | none =>
    rw [stepInstance_of_none hk] at h
    cases h
    exact .inl ⟨rfl, rfl⟩
  | some s =>
    cases hs : step s with
    | next t =>
      rw [stepInstance_of_step hk hs] at h
      cases h
      exact .inr ⟨s, t, rfl, hs, rfl⟩
    | fault f => simp [stepInstance, hk, hs] at h
    | refused r => simp [stepInstance, hk, hs] at h

/-- An edge of one instance leaves the others. -/
theorem stepInstance_others {sys sys' : List State} {j k : Nat} (hjk : j ≠ k) (h : stepInstance sys j = .next sys') :
    sys'[k]? = sys[k]? := by
  rcases stepInstance_next h with ⟨-, rfl⟩ | ⟨s, t, -, -, rfl⟩
  · rfl
  · exact List.getElem?_set_ne hjk

/-- Settles O59: each edge is of none or writes the place of its own instance, and the places are different. -/
theorem instancesCommute : Obligations.InstancesCommute := by
  intro sys sys1 sys2 j k hjk hj hk
  have hother := stepInstance_others hjk hj
  rcases stepInstance_next hk with ⟨hnone, rfl⟩ | ⟨s, t, hs, hstep, rfl⟩
  · exact ⟨sys, stepInstance_of_none (hother ▸ hnone), hj⟩
  · refine ⟨sys.set k t, stepInstance_of_step (hother ▸ hs) hstep, ?_⟩
    rcases stepInstance_next hj with ⟨hnone, rfl⟩ | ⟨s', t', hs', hstep', rfl⟩
    · exact stepInstance_of_none (by rw [List.getElem?_set_ne hjk.symm, hnone])
    · rw [List.set_comm t' t hjk]
      exact stepInstance_of_step (by rw [List.getElem?_set_ne hjk.symm, hs']) hstep'

/-! ## Schedules -/

theorem runInstances_cons {sys sys' : List State} {k : Nat} {ks : List Nat}
    (h : runInstances sys (k :: ks) = .next sys') :
    ∃ sys1, stepInstance sys k = .next sys1 ∧ runInstances sys1 ks = .next sys' := by
  simp only [runInstances] at h
  split at h
  · exact ⟨_, ‹_›, h⟩
  · cases h
  · cases h

/-- Settles O60: by induction over the schedule, an edge of the instance is its next step and an edge of another one leaves
it. -/
theorem interleavingGivesEachInstanceItsOwnRun : Obligations.InterleavingGivesEachInstanceItsOwnRun := by
  intro sys sys' schedule k s hrun hk
  induction schedule generalizing sys s with
  | nil =>
    cases hrun
    exact ⟨s, hk, reaches_zero s⟩
  | cons j ks ih =>
    obtain ⟨sys1, hedge, hrest⟩ := runInstances_cons hrun
    by_cases hjk : j = k
    · subst hjk
      rcases stepInstance_next hedge with ⟨hnone, -⟩ | ⟨s', u, hs', hstep, rfl⟩
      · simp [hnone] at hk
      · obtain rfl : s' = s := Option.some.inj (hs'.symm.trans hk)
        have hlt : j < sys.length := (List.getElem?_eq_some_iff.mp hk).1
        obtain ⟨t, ht, hreaches⟩ := ih (sys.set j u) u hrest (List.getElem?_set_self hlt)
        rw [List.count_cons_self]
        exact ⟨t, ht, reaches_succ hstep hreaches⟩
    · rw [List.count_cons_of_ne hjk]
      exact ih sys1 s hrest ((stepInstance_others hjk hedge).trans hk)

end Sys2Proof.Proofs
end

section
/-! PROOFS. The edge: which instruction acts, when nothing does, the checks at the ports, and reset (20_memory.md section 1,
70_reset_and_hazards.md section 1). -/

namespace Sys2Proof.Proofs
open Sys2Proof Sys2Proof.Machine

/-! ## The instruction that is due -/

/-- Settles O4: what is due in each mode is a law of `dueCommand`, and the end of the edge is `finishEdge`. -/
theorem stepRunsTheDueInstruction : Obligations.StepRunsTheDueInstruction := by
  intro s hport hrst
  refine ⟨fun c hm hc => ?_, fun hm => step_of_due hport hrst (dueCommand_open hm), fun hm hc => ?_,
    fun t => ⟨rfl, rfl, rfl, rfl, rfl, rfl, rfl, rfl⟩⟩
  · exact step_of_due hport hrst ((dueCommand_idle hrst hm).trans hc)
  · exact step_of_none_due hport hrst ((dueCommand_idle hrst hm).trans hc)

/-- Settles O5: the block is idle and holds nothing, so the step accepts the word that is placed. -/
theorem placedCommandRunsNext : Obligations.PlacedCommandRunsNext := by
  intro s nbits w i hdecode
  obtain rfl : decode (commandWord nbits w) = i := Option.some.inj hdecode
  have hidle : (s.withFetchWord nbits w).block.mode = .idle := rfl
  have hpins := pins_cons (s := s.withFetchWord nbits w) rfl
  have hrst : (s.withFetchWord nbits w).pins.rst = false := by rw [hpins]
  have hdue : (s.withFetchWord nbits w).dueCommand = some (commandWord nbits w) := by
    rw [dueCommand_idle hrst hidle, hpins, Offers.wired_cmd]
  have hstep := step_of_due (portProblem_of_clean (s := s.withFetchWord nbits w) ⟨rfl, rfl⟩) hrst hdue
  refine ⟨hstep, _, hstep.trans (congrArg _ (exec_idle _ hidle)), ?_⟩
  rw [finishEdge_block, State.accept_block, Block.accept_op]

/-- Settles O14: the byte is taken, for a beat of one element is framed wherever it comes, and `gc = 3` has no place for
it. -/
theorem groupCountThreeStops : Obligations.GroupCountThreeStops := by
  intro s x hm hop hgc hrst hoffer hcnt hmax
  have hbeat : x.beat.cnt = 1 := by simp [hcnt]
  have hframed : framingOk 1 s.nA x.beat = true :=
    framingOk_iff.mpr ⟨hbeat.le, fun h => absurd (hbeat.symm.trans h) one_ne_zero, fun _ => hbeat⟩
  have htaken : s.takenA = some x := (takenA_solo hrst (solo_of_op hm (.inr hop))).trans hoffer
  rw [exec_b64enc_run hm hop, laneWidth_b64enc,
    takeA_some htaken (beatProblem_eq_none.mpr ⟨hframed, by rwa [hbeat]⟩)]
  exact if_pos ⟨hgc, by simp [ABeat.beat_lane_one hcnt]⟩

/-! ## Waiting -/

theorem takes_eq_false_iff {s : State} :
    s.takes = false ↔ s.takenCmd = none ∧ s.takenA = none ∧ s.takenB = none ∧ s.takenR = none := by
  simp [State.takes, and_assoc]

/-- In `RUN` an edge takes what it takes from the operand streams. -/
theorem takes_eq_false_of_run {s : State} (hm : s.block.mode = .run) (hA : s.takenA = none) (hB : s.takenB = none) :
    s.takes = false :=
  takes_eq_false_iff.mpr ⟨takenCmd_eq_none_of_mode (by simp [hm]), hA, hB, takenR_eq_none_of_mode (by simp [hm])⟩

/-- An edge that takes nothing is the bare end of the edge, whichever instruction is due (20_memory.md R53). -/
theorem step_of_takes_nothing {s : State} (hport : s.portProblem = none) (hrst : s.pins.rst = false)
    (htakes : s.takes = false) : step s = .next (finishEdge s s) := by
  obtain ⟨hcmd, hA, hB, hR⟩ := takes_eq_false_iff.mp htakes
  cases hm : s.block.mode with
  | idle => exact step_of_none_due hport hrst (by simp [State.dueCommand, hm, hcmd])
  | run =>
    rw [step_of_due hport hrst (dueCommand_open (by simp [hm])), exec_waits _ hm hA hB]
    rfl
  | resp =>
    rw [step_of_due hport hrst (dueCommand_open (by simp [hm])), exec_resp _ hm, deliver_not_taken hR]
    rfl

theorem takenA_eq_none_of_offer {s : State} (h : s.pins.offers.a = none) : s.takenA = none := by
  simp [State.takenA, h]

theorem takenB_eq_none_of_offer {s : State} (h : s.pins.offers.b = none) : s.takenB = none := by
  simp [State.takenB, h]

theorem takenB_eq_none_of_op {s : State} (h : s.block.op ≠ 2#2) : s.takenB = none := by
  simp [State.takenB, bReady, joint, runXorc_eq_false_of_op h]

theorem mode_of_joint {b : Block} (h : joint b = true) : b.mode = .run := by
  by_contra hm
  simp [joint, runXorc_eq_false_of_mode hm] at h

/-- Settles O22: in each of the waiting cases no channel gives anything. -/
theorem waitingChangesNothing : Obligations.WaitingChangesNothing := by
  refine ⟨fun s => step_of_takes_nothing, fun s hm hA hB => ?_, fun s hm hop hA => ?_, fun s hjoint hoffer => ?_,
    fun s hm hready => ?_, fun s hm hcmd => ?_⟩
  · exact takes_eq_false_of_run hm (takenA_eq_none_of_offer hA) (takenB_eq_none_of_offer hB)
  · exact takes_eq_false_of_run hm (takenA_eq_none_of_offer hA) (takenB_eq_none_of_op hop)
  · have hboth := takenA_isSome_iff_of_joint hjoint
    rcases hoffer with hA | hB
    · have hA' := takenA_eq_none_of_offer hA
      exact takes_eq_false_of_run (mode_of_joint hjoint) hA' (by simpa [hA'] using hboth)
    · have hB' := takenB_eq_none_of_offer hB
      exact takes_eq_false_of_run (mode_of_joint hjoint) (by simpa [hB'] using hboth) hB'
  · have hclosed : s.block.mode ≠ .run := by simp [hm]
    exact takes_eq_false_iff.mpr ⟨takenCmd_eq_none_of_mode (by simp [hm]), takenA_eq_none_of_mode hclosed,
      takenB_eq_none_of_mode hclosed, takenR_eq_none (.inl hready)⟩
  · have hclosed : s.block.mode ≠ .run := by simp [hm]
    exact takes_eq_false_iff.mpr ⟨by simp [State.takenCmd, hcmd], takenA_eq_none_of_mode hclosed,
      takenB_eq_none_of_mode hclosed, takenR_eq_none_of_mode (by simp [hm])⟩

/-! ## The checks at the ports -/

theorem step_of_portProblem {s : State} {r : Refusal} (h : s.portProblem = some r) : step s = .refused r := by
  simp [step, h]

/-- An offer that was held and is gone or changed is not there any more. -/
theorem stillOffered_eq_false {α : Type} [DecidableEq α] {held now : Option α} {x : α} (hheld : held = some x)
    (hnow : now ≠ some x) : stillOffered held now = false := by
  simp [stillOffered, hheld, hnow]

theorem withdrawn_eq_false {α : Type} [DecidableEq α] {stale now : Option α} {x : α} (hstale : stale = some x)
    (hnow : now = some x) : withdrawn stale now = false := by
  simp [withdrawn, hstale, hnow]

@[simp] theorem stillOffered_none {α : Type} [DecidableEq α] (now : Option α) : stillOffered none now = true := rfl

/-- Settles O25: the hold check comes first, the withdrawal check after it, and the end of an edge remembers what was not
taken. -/
theorem portBreachesAreRefused : Obligations.PortBreachesAreRefused := by
  refine ⟨fun s hrst hgone => step_of_portProblem ?_, fun s hrst hheld hstale => step_of_portProblem ?_,
    fun s t hrst hstep => ?_⟩
  · rcases hgone with ⟨c, hc, hnow⟩ | ⟨a, ha, hnow⟩ | ⟨b, hb, hnow⟩
    · simp [State.portProblem, hrst, stillOffered_eq_false hc hnow]
    · simp [State.portProblem, hrst, stillOffered_eq_false ha hnow]
    · simp [State.portProblem, hrst, stillOffered_eq_false hb hnow]
  · rcases hstale with ⟨a, ha, hnow⟩ | ⟨b, hb, hnow⟩
    · simp [State.portProblem, hrst, hheld, Offers.silent, withdrawn_eq_false ha hnow]
    · simp [State.portProblem, hrst, hheld, Offers.silent, withdrawn_eq_false hb hnow]
  · rcases step_cases hstep with ⟨hrst', -⟩ | ⟨-, u, rfl, -⟩
    · simp [hrst] at hrst'
    · exact ⟨rfl, rfl⟩

/-! ## Reset -/

/-- An offer is kept as stale when the stream is still read or the offer was stale before (log 8). -/
theorem stale_iff {α : Type} [DecidableEq α] {isOpen : Bool} {now stale : Option α} {x : α} :
    (if isOpen || now = stale then now else none) = some x ↔ now = some x ∧ (isOpen = true ∨ stale = some x) := by
  cases isOpen
  · by_cases h : now = stale
    · simp [h]
    · simp only [Bool.false_or, decide_eq_true_eq, if_neg h, Bool.false_eq_true, false_or]
      exact ⟨fun hx => absurd hx (by simp), fun ⟨hnow, hstale⟩ => absurd (hnow.trans hstale.symm) h⟩
  · simp

/-- Settles O32: the step is the reset edge, and the stale offers are what `stale_iff` says on each stream. -/
theorem resetEdgeAndTheEnvironment : Obligations.ResetEdgeAndTheEnvironment := by
  intro s hrst
  refine ⟨Machine.resetEdge s, step_of_reset hrst, rfl, rfl, rfl, rfl, rfl, rfl, rfl, rfl, fun x => stale_iff,
    fun y => stale_iff, fun hA hB => ⟨rfl, ?_⟩⟩
  simp [State.staleOffers, hA, hB, Offers.silent]

/-- Settles O33: the registers are written out in `Block.reset`. -/
theorem resetStateValues : Obligations.ResetStateValues :=
  ⟨fun _ => ⟨rfl, rfl⟩, rfl, rfl, rfl, rfl, rfl, rfl, rfl, rfl, rfl, rfl, rfl, rfl, rfl, rfl⟩

/-- Settles O34: the reset registers are in `IDLE`, where no operand is read and no result offered. -/
theorem outputsAfterReset : Obligations.OutputsAfterReset := by
  intro s hreset
  have hidle : s.block.mode = .idle := by rw [hreset]; rfl
  have hclosed : s.block.mode ≠ .run := by simp [hidle]
  obtain ⟨hA, hB⟩ := readies_of_closed (solo_eq_false_of_mode hclosed) (runXorc_eq_false_of_mode hclosed)
    s.pins.offers.a.isSome s.pins.offers.b.isSome
  exact ⟨by simp [State.portsOut, cmdReady, hidle], hA, hB, by simp [State.portsOut, rValid, hidle]⟩

end Sys2Proof.Proofs
end

section
/-! PROOFS. Refusals (60_exceptions.md section 3): a beat that may not be taken is refused by name, and nothing else of the
environment's doing stops the machine. -/

namespace Sys2Proof.Proofs
open Sys2Proof Sys2Proof.Machine

/-! ## What is wrong with a beat -/

theorem beatProblem_of_ill_framed {ill : Refusal} {m : Option Nat} {w n : Nat} {b : Beat} (h : framingOk w n b = false) :
    beatProblem ill m w n b = some ill := by
  simp [beatProblem, h]

theorem beatProblem_of_too_long {ill : Refusal} {m w n : Nat} {b : Beat} (hframed : framingOk w n b = true)
    (h : n + b.cnt > m) : beatProblem ill (some m) w n b = some .operandTooLong := by
  simp [beatProblem, hframed, withinMax, h]

/-! ## The beat steps refuse it -/

theorem xorcStep_of_neither {s : State} (hadone : s.block.adone = false) (hbdone : s.block.bdone = false) :
    xorcStep s = Machine.xorcJointStep s := by
  simp only [xorcStep, hadone, hbdone]

theorem xorcStep_of_bdone {s : State} (hadone : s.block.adone = false) (hbdone : s.block.bdone = true) :
    xorcStep s = xorcDrainA s := by
  simp only [xorcStep, hadone, hbdone]

theorem xorcStep_of_adone {s : State} (hadone : s.block.adone = true) (hbdone : s.block.bdone = false) :
    xorcStep s = xorcDrainB s := by
  simp only [xorcStep, hadone, hbdone]

/-- In the joint phase the beat of stream A is looked at first (log 5). -/
theorem xorcJointStep_taken {s : State} {y : BBeat} (htaken : s.takenB = some y) :
    Machine.xorcJointStep s = takeA 1 s fun ba t =>
      takeB t fun bb u => .next { u with block := u.block.xorcJoint ba bb } := by
  rw [Machine.xorcJointStep, htaken, laneWidth_xorc]
  exact if_neg Bool.false_ne_true

/-- A beat of stream A that may not be taken is refused, whichever operation is open. -/
theorem exec_problemA {i : Instr} {s : State} {x : ABeat} {r : Refusal} (hm : s.block.mode = .run)
    (hop : s.block.op = encode i) (htaken : s.takenA = some x)
    (hproblem : beatProblem .illFramedA s.params.maxLen (laneWidth s.params.hexImpl s.block.op) s.nA x.beat = some r) :
    exec i s = .refused r := by
  rw [hop] at hproblem
  cases i with
  | hexdec => exact (exec_hexdec_run hm hop).trans (takeA_problem htaken hproblem)
  | b64enc => exact (exec_b64enc_run hm hop).trans (takeA_problem htaken hproblem)
  | xorc =>
    rw [encode, laneWidth_xorc] at hproblem
    have hadone : s.block.adone = false := by
      by_contra h
      simp [takenA_eq_none_of_adone hop (Bool.eq_true_of_not_eq_false h)] at htaken
    rw [exec_xorc_run hm hop]
    cases hbdone : s.block.bdone
    · have hboth := takenA_isSome_iff_of_joint (joint_of_neither_done hm hop hadone hbdone)
      obtain ⟨y, hy⟩ := Option.isSome_iff_exists.mp (hboth.mp (by rw [htaken]; rfl))
      rw [xorcStep_of_neither hadone hbdone, xorcJointStep_taken hy, takeA_problem htaken hproblem]
    · rw [xorcStep_of_bdone hadone hbdone, xorcDrainA, laneWidth_xorc, takeA_problem htaken hproblem]
  | illegal => simp [(taken_reserved hop).1] at htaken

/-- A beat of stream B that may not be taken is refused, when the beat of stream A taken with it, if any, is in order. -/
theorem exec_problemB {s : State} {y : BBeat} {r : Refusal} (hm : s.block.mode = .run) (hop : s.block.op = 2#2)
    (htaken : s.takenB = some y)
    (horder : ∀ x, s.takenA = some x → beatProblem .illFramedA s.params.maxLen 1 s.nA x.beat = none)
    (hproblem : beatProblem .illFramedB s.params.maxLen 1 s.nB y.beat = some r) : exec .xorc s = .refused r := by
  have hbdone : s.block.bdone = false := by
    by_contra h
    simp [takenB_eq_none_of_bdone (Bool.eq_true_of_not_eq_false h)] at htaken
  rw [exec_xorc_run hm hop]
  cases hadone : s.block.adone
  · have hboth := takenA_isSome_iff_of_joint (joint_of_neither_done hm hop hadone hbdone)
    obtain ⟨x, hx⟩ := Option.isSome_iff_exists.mp (hboth.mpr (by rw [htaken]; rfl))
    rw [xorcStep_of_neither hadone hbdone, xorcJointStep_taken htaken, takeA_some hx (horder x hx)]
    exact takeB_problem ((takenB_withA s _).trans htaken) hproblem
  · rw [xorcStep_of_adone hadone hbdone, xorcDrainB, takeB_problem htaken hproblem]

/-! ## Ill-framed and over-long operands -/

/-- Settles O23: each of the shapes breaks one of the framing rules. -/
theorem illFramedBeatsAreRefused : Obligations.IllFramedBeatsAreRefused := by
  constructor
  · intro i s x hm hop htaken w hshape
    refine exec_problemA hm hop htaken (beatProblem_of_ill_framed ?_)
    rw [Bool.eq_false_iff, ne_eq, framingOk_iff]
    rintro ⟨hle, hnull, hfull⟩
    rcases hshape with hwide | ⟨h0, hlast | hlate⟩ | ⟨hlast, hshort⟩
    · exact absurd hle (Nat.not_le.mpr hwide)
    · simpa [hlast] using (hnull (by simp [h0])).1
    · exact hlate (hnull (by simp [h0])).2
    · exact hshort (hfull hlast)
  · intro s y hm hop htaken horder hshape
    refine exec_problemB hm hop htaken horder (beatProblem_of_ill_framed ?_)
    rw [Bool.eq_false_iff, ne_eq, framingOk_iff]
    rintro ⟨-, hnull, -⟩
    rcases hshape with ⟨h0, hlast | hlate⟩
    · simpa [hlast] using (hnull (by simp [h0])).1
    · exact hlate (hnull (by simp [h0])).2

/-- Settles O24: a framed beat past the bound is refused for its length. -/
theorem overlongOperandsAreRefused : Obligations.OverlongOperandsAreRefused := by
  refine ⟨fun i s x m hm hop hmax htaken hframed hlong => exec_problemA hm hop htaken ?_,
    fun s y m hm hop hmax htaken horder hframed hlong => exec_problemB hm hop htaken horder ?_⟩
  · rw [hmax]
    exact beatProblem_of_too_long hframed hlong
  · rw [hmax]
    exact beatProblem_of_too_long hframed hlong

/-! ## Only breaches stop -/

/-- XORC goes on when the beats taken are in order. -/
theorem exec_xorc_goes_on {s : State} (hm : s.block.mode = .run) (hop : s.block.op = 2#2)
    (hokA : ∀ {x}, s.takenA = some x → beatProblem .illFramedA s.params.maxLen 1 s.nA x.beat = none)
    (hokB : ∀ {y}, s.takenB = some y → beatProblem .illFramedB s.params.maxLen 1 s.nB y.beat = none) :
    ∃ t, exec .xorc s = .next t := by
  rw [exec_xorc_run hm hop]
  cases hadone : s.block.adone <;> cases hbdone : s.block.bdone
  case false.false =>
    have hboth := takenA_isSome_iff_of_joint (joint_of_neither_done hm hop hadone hbdone)
    cases hy : s.takenB with
    | none => exact ⟨s, (xorcStep_of_neither hadone hbdone).trans (if_pos (by rw [hy]; rfl))⟩
    | some y =>
      obtain ⟨x, hx⟩ := Option.isSome_iff_exists.mp (hboth.mpr (by rw [hy]; rfl))
      rw [xorcStep_of_neither hadone hbdone, xorcJointStep_taken hy, takeA_some hx (hokA hx)]
      exact ⟨_, takeB_some ((takenB_withA s _).trans hy) (hokB hy)⟩
  case false.true =>
    rw [xorcStep_of_bdone hadone hbdone, xorcDrainA, laneWidth_xorc]
    cases hx : s.takenA with
    | none => exact ⟨s, takeA_none hx⟩
    | some x => exact ⟨_, takeA_some hx (hokA hx)⟩
  case true.false =>
    rw [xorcStep_of_adone hadone hbdone, xorcDrainB]
    cases hy : s.takenB with
    | none => exact ⟨s, takeB_none hy⟩
    | some y => exact ⟨_, takeB_some hy (hokB hy)⟩
  case true.true => exact ⟨s, by simp only [xorcStep, hadone, hbdone]⟩

/-- In `RUN` a problem of the beats taken stops the open operation under its name, stream A first. -/
theorem exec_run_stops {s : State} {r : Refusal} (hm : s.block.mode = .run) (hr : s.takenProblem = some r) :
    exec (decode s.block.op) s = .refused r := by
  rcases Option.or_eq_some_iff.mp hr with hA | ⟨hA, hB⟩
  · obtain ⟨x, hx, hproblem⟩ := Option.bind_eq_some_iff.mp hA
    exact exec_problemA hm (encode_decode _).symm hx hproblem
  · obtain ⟨y, hy, hproblem⟩ := Option.bind_eq_some_iff.mp hB
    have hop : s.block.op = 2#2 := by
      by_contra hop
      simp [takenB_eq_none_of_op hop] at hy
    rw [hop, laneWidth_xorc] at hA
    rw [hop]
    exact exec_problemB hm hop hy (fun x hx => by simpa [hx] using hA) hproblem

/-- In `RUN` of the invariant the beat step goes on when nothing is wrong with the beats taken. -/
theorem exec_run_goes_on {s : State} (hinv : s.Inv) (hm : s.block.mode = .run) (hok : s.takenProblem = none) :
    ∃ t, exec (decode s.block.op) s = .next t := by
  obtain ⟨hA, hB⟩ := Option.or_eq_none_iff.mp hok
  have hokA {x : ABeat} (hx : s.takenA = some x) :
      beatProblem .illFramedA s.params.maxLen (laneWidth s.params.hexImpl s.block.op) s.nA x.beat = none := by
    simpa [hx] using hA
  have hokB {y : BBeat} (hy : s.takenB = some y) : beatProblem .illFramedB s.params.maxLen 1 s.nB y.beat = none := by
    simpa [hy] using hB
  rcases command_cases s.block.op with hop | hop | hop | hop <;> rw [hop] at hokA ⊢
  · cases htaken : s.takenA with
    | none => exact ⟨s, (exec_hexdec_run hm hop).trans (takeA_none htaken)⟩
    | some x => exact ⟨_, (exec_hexdec_run hm hop).trans (takeA_some htaken (hokA htaken))⟩
  · cases htaken : s.takenA with
    | none => exact ⟨s, (exec_b64enc_run hm hop).trans (takeA_none htaken)⟩
    | some x =>
      have hgc : s.block.gc ≠ 3#2 := by
        have := (hinv.2.1 hm hop).1
        bv_omega
      exact ⟨_, (exec_b64enc_run hm hop).trans
        ((takeA_some htaken (hokA htaken)).trans (if_neg fun hfault => hgc hfault.1))⟩
  · rw [laneWidth_xorc] at hokA
    exact exec_xorc_goes_on hm hop hokA hokB
  · exact ⟨s, exec_illegal_run hm⟩

theorem takenProblem_of_mode {s : State} (hm : s.block.mode ≠ .run) : s.takenProblem = none := by
  simp [State.takenProblem, takenA_eq_none_of_mode hm, takenB_eq_none_of_mode hm]

/-- Acceptance, delivery and waiting always go on. -/
theorem step_goes_on_outside_run {s : State} (hport : s.portProblem = none) (hrst : s.pins.rst = false)
    (hm : s.block.mode ≠ .run) : ∃ t, step s = .next t := by
  cases hdue : s.dueCommand with
  | none => exact ⟨_, step_of_none_due hport hrst hdue⟩
  | some c =>
    have hstep := step_of_due hport hrst hdue
    cases hmode : s.block.mode with
    | idle => exact ⟨_, hstep.trans (congrArg _ (exec_idle _ hmode))⟩
    | run => exact absurd hmode hm
    | resp => exact ⟨_, hstep.trans (congrArg _ (exec_resp _ hmode))⟩

/-- Settles O26: a breach is one at the ports or one of the beats taken, and each is refused by the check that finds it;
without one every phase goes on. -/
theorem onlyBreachesStop : Obligations.OnlyBreachesStop := by
  intro s hinv
  cases hport : s.portProblem with
  | some r =>
    refine ⟨fun r' hr' => ?_, fun hnone => ?_⟩
    · obtain rfl : r = r' := by simpa [State.breach, hport] using hr'
      exact step_of_portProblem hport
    · simp [State.breach, hport] at hnone
  | none =>
    cases hrst : s.pins.rst with
    | true =>
      refine ⟨fun r hr => ?_, fun _ => ⟨_, step_of_reset hrst⟩⟩
      simp [State.breach, hport, hrst] at hr
    | false =>
      have hbreach : s.breach = s.takenProblem := by simp [State.breach, hport, hrst]
      rw [hbreach]
      by_cases hm : s.block.mode = .run
      case pos =>
        have hstep := step_of_due hport hrst (dueCommand_open (s := s) (by simp [hm]))
        refine ⟨fun r hr => ?_, fun hok => ?_⟩
        · rw [hstep, exec_run_stops hm hr]
          rfl
        · obtain ⟨t, ht⟩ := exec_run_goes_on hinv hm hok
          exact ⟨_, hstep.trans (congrArg _ ht)⟩
      case neg =>
        refine ⟨fun r hr => ?_, fun _ => step_goes_on_outside_run hport hrst hm⟩
        simp [takenProblem_of_mode hm] at hr

end Sys2Proof.Proofs
end

section
/-! PROOFS. Progress and atomicity (70_reset_and_hazards.md section 5, 20_memory.md section 3). -/

namespace Sys2Proof.Proofs
open Sys2Proof Sys2Proof.Machine

/-! ## Progress -/

theorem takes_of_takenA {s : State} (h : s.takenA.isSome) : s.takes = true := by simp [State.takes, h]

theorem takes_of_takenB {s : State} (h : s.takenB.isSome) : s.takes = true := by simp [State.takes, h]

/-- In `RUN` of XORC with a beat on every stream that goes on, one of them at least is taken (20_memory.md R55). -/
theorem takes_of_xorc {s : State} (hrst : s.pins.rst = false) (hm : s.block.mode = .run) (hop : s.block.op = 2#2)
    (hopen : ¬(s.block.adone = true ∧ s.block.bdone = true))
    (hA : s.block.adone = false → s.pins.offers.a.isSome) (hB : s.block.bdone = false → s.pins.offers.b.isSome) :
    s.takes = true := by
  cases hadone : s.block.adone <;> cases hbdone : s.block.bdone
  · apply takes_of_takenA
    rw [(taken_joint hrst (joint_of_neither_done hm hop hadone hbdone)).1, if_pos (hB hbdone)]
    exact hA hadone
  · apply takes_of_takenA
    rw [(taken_drainA hrst hm hop hadone hbdone).1]
    exact hA hadone
  · apply takes_of_takenB
    rw [(taken_drainB hrst hm hop hadone hbdone).2]
    exact hB hbdone
  · exact absurd ⟨hadone, hbdone⟩ hopen

/-- Settles O27: mode by mode; in `RUN` the invariant excludes the two states in which no stream is open. -/
theorem suppliedEdgesTake : Obligations.SuppliedEdgesTake := by
  intro s hinv hrst hsupplied
  obtain ⟨-, -, hxorc, -, hrunOp, -, -, -⟩ := hinv
  unfold State.supplied at hsupplied
  cases hm : s.block.mode with
  | idle =>
    simp only [hm] at hsupplied
    simp [State.takes, State.takenCmd, hrst, cmdReady, hm, hsupplied]
  | run =>
    simp only [hm, Bool.and_eq_true, Bool.or_eq_true, Bool.not_eq_true'] at hsupplied
    obtain ⟨hA, hB⟩ := hsupplied
    rcases command_cases s.block.op with hop | hop | hop | hop
    · have hsolo := solo_of_op hm (.inl hop)
      exact takes_of_takenA (by rw [takenA_solo hrst hsolo]; exact hA.resolve_left (by simp [aOpen, hsolo]))
    · have hsolo := solo_of_op hm (.inr hop)
      exact takes_of_takenA (by rw [takenA_solo hrst hsolo]; exact hA.resolve_left (by simp [aOpen, hsolo]))
    · have hrunX := runXorc_of_op hm hop
      exact takes_of_xorc hrst hm hop (hxorc hm hop).1 (fun h => hA.resolve_left (by simp [aOpen, hrunX, h]))
        (fun h => hB.resolve_left (by simp [bOpen, hrunX, h]))
    · exact absurd hop (hrunOp hm)
  | resp =>
    simp only [hm] at hsupplied
    simp [State.takes, takenR_of_ready hm hsupplied hrst]

/-! ## Atomicity -/

theorem xorcJoint_mode_more {b : Block} {ba bb : Beat} (h : (ba.last && bb.last) = false) :
    (b.xorcJoint ba bb).mode = b.mode := by
  rw [xorcJoint_eq, h]
  rfl

theorem xorcJoint_mode_last {b : Block} {ba bb : Beat} (h : (ba.last && bb.last) = true) :
    (b.xorcJoint ba bb).mode = .resp := by
  rw [xorcJoint_eq, h]
  rfl

/-- A block that leaves `RUN` in its open operation goes to `RESP`, with the last beat of every stream still open. -/
theorem exec_run_ends {s u : State} (hm : s.block.mode = .run) (hexec : exec (decode s.block.op) s = .next u)
    (hleaves : u.block.mode ≠ .run) :
    u.block.mode = .resp ∧ (aOpen s.block = true → ∃ x, s.takenA = some x ∧ x.last = true) ∧
      (bOpen s.block = true → ∃ y, s.takenB = some y ∧ y.last = true) := by
  rcases command_cases s.block.op with hop | hop | hop | hop <;> rw [hop] at hexec
  · have hclosedB : bOpen s.block = false := by simp [bOpen, runXorc, hop]
    rcases hexdec_run_taken hm hop hexec with ⟨-, rfl⟩ | ⟨x, htaken, hproblem, rfl⟩
    · exact absurd hm hleaves
    obtain ⟨vs, hn, ph, e, hwrites, -⟩ := hexdecStep_writes (s := { s with nA := s.nA + x.beat.cnt })
      (beatProblem_eq_none.mp hproblem).1
    rw [hwrites.step] at hleaves ⊢
    cases hlast : x.beat.last
    · rw [hlast] at hleaves
      exact absurd hm hleaves
    · exact ⟨by simp, fun _ => ⟨x, htaken, hlast⟩, fun h => by simp [hclosedB] at h⟩
  · have hclosedB : bOpen s.block = false := by simp [bOpen, runXorc, hop]
    rcases b64enc_run_taken hm hop hexec with ⟨-, rfl⟩ | ⟨x, htaken, hproblem, rfl⟩
    · exact absurd hm hleaves
    obtain ⟨vs, a, g, hwrites⟩ := b64enc_writes (b := s.block) (lane_of_framed_one (beatProblem_eq_none.mp hproblem).1)
    rw [hwrites.step] at hleaves ⊢
    cases hlast : x.beat.last
    · rw [hlast] at hleaves
      exact absurd hm hleaves
    · exact ⟨by simp, fun _ => ⟨x, htaken, hlast⟩, fun h => by simp [hclosedB] at h⟩
  · rcases xorc_run_taken hm hop hexec with ⟨-, -, rfl⟩ | ⟨x, y, -, -, hx, hy, -, -, rfl⟩ |
      ⟨x, -, hbdone, hx, -, -, rfl⟩ | ⟨y, hadone, -, -, hy, -, rfl⟩
    · exact absurd hm hleaves
    · cases hlast : x.beat.last && y.beat.last
      · exact absurd ((xorcJoint_mode_more hlast).trans hm) hleaves
      · obtain ⟨hlastA, hlastB⟩ := Bool.and_eq_true_iff.mp hlast
        exact ⟨xorcJoint_mode_last hlast, fun _ => ⟨x, hx, hlastA⟩, fun _ => ⟨y, hy, hlastB⟩⟩
    · cases hlast : x.beat.last
      · exact absurd ((congrArg Block.mode (xorcDrain_more hlast)).trans hm) hleaves
      · exact ⟨(xorcDrain_last hlast).mode, fun _ => ⟨x, hx, hlast⟩, fun h => by simp [bOpen, hbdone] at h⟩
    · cases hlast : y.beat.last
      · exact absurd ((congrArg Block.mode (xorcDrain_more hlast)).trans hm) hleaves
      · exact ⟨(xorcDrain_last hlast).mode, fun h => by simp [aOpen, solo, hop, hadone] at h, fun _ => ⟨y, hy, hlast⟩⟩
  · obtain rfl := next_inj (exec_illegal_run hm) hexec
    exact absurd hm hleaves

/-- Settles O28: a step that leaves `RUN` is a beat step of the open operation. -/
theorem resultOnlyAfterLastBeats : Obligations.ResultOnlyAfterLastBeats := by
  intro s t hm hstep hrst hleaves
  rcases step_cases hstep with ⟨hrst', -⟩ | ⟨-, u, rfl, rfl | ⟨hidle, -⟩ | ⟨-, hexec⟩ | ⟨hresp, -⟩⟩
  · simp [hrst] at hrst'
  · exact absurd hm hleaves
  · simp [hm] at hidle
  · exact exec_run_ends (u := u) hm hexec hleaves
  · simp [hm] at hresp

/-- Settles O29: the observation grows by the result beat taken; the invariant says that an error result is empty, and the
one beat of an empty result ends it. -/
theorem noPartialResults : Obligations.NoPartialResults := by
  intro s t hinv hstep
  obtain ⟨-, -, -, hresp, -⟩ := hinv
  obtain ⟨-, ⟨-, rfl⟩ | ⟨-, -, rfl⟩ | ⟨c, u, -, -, hexec, rfl⟩⟩ := step_next hstep
  · exact .inl rfl
  · exact .inl rfl
  · have henv := (exec_env hexec).1
    cases htaken : s.takenR with
    | none =>
      left
      simp [henv, htaken]
    | some r =>
      right
      have hm := takenR_ne_none (s := s) (by simp [htaken])
      obtain rfl := takenR_eq_resultBeat htaken
      obtain rfl := next_inj (exec_resp _ hm) hexec
      refine ⟨hm, by simp [henv, htaken], fun herror => ?_⟩
      have hnil := (hresp hm).1 herror
      have hlast := resultBeat_last_of_nil hnil
      refine ⟨resultBeat_cnt_of_nil hnil, hlast, ?_⟩
      rw [finishEdge_block, deliver_taken htaken, if_pos hlast]

end Sys2Proof.Proofs
end

section
/-! PROOFS. Lane bits that no count covers, and bits the ports do not have (20_memory.md R51, R54). -/

namespace Sys2Proof.Proofs
open Sys2Proof Sys2Proof.Machine

/-! ## `exec` sees the inputs through the beats taken -/

/-- An answer with other inputs to come. -/
def answerWithInputs (ps : List PortIn) : Answer → Answer
  | .next t => .next (withInputs t ps)
  | .fault f => .fault f
  | .refused r => .refused r

theorem takeA_withInputs {w : Nat} {s : State} {ps : List PortIn} {k : Beat → State → Answer}
    (hA : (withInputs s ps).takenA.map ABeat.beat = s.takenA.map ABeat.beat)
    (hk : ∀ beat n, k beat (withInputs { s with nA := n } ps) = answerWithInputs ps (k beat { s with nA := n })) :
    takeA w (withInputs s ps) k = answerWithInputs ps (takeA w s k) := by
  cases hs : s.takenA with
  | none =>
    rw [hs, Option.map_none, Option.map_eq_none_iff] at hA
    rw [takeA_none hs, takeA_none hA]
    rfl
  | some x =>
    rw [hs, Option.map_some] at hA
    obtain ⟨x', hx', hbeat⟩ := Option.map_eq_some_iff.mp hA
    cases hproblem : beatProblem .illFramedA s.params.maxLen w s.nA x.beat with
    | none =>
      rw [takeA_some hs hproblem, takeA_some hx' (by rw [hbeat]; exact hproblem), hbeat]
      exact hk x.beat (s.nA + x.beat.cnt)
    | some r =>
      rw [takeA_problem hs hproblem, takeA_problem hx' (by rw [hbeat]; exact hproblem)]
      rfl

theorem takeB_withInputs {s : State} {ps : List PortIn} {k : Beat → State → Answer}
    (hB : (withInputs s ps).takenB.map BBeat.beat = s.takenB.map BBeat.beat)
    (hk : ∀ beat n, k beat (withInputs { s with nB := n } ps) = answerWithInputs ps (k beat { s with nB := n })) :
    takeB (withInputs s ps) k = answerWithInputs ps (takeB s k) := by
  cases hs : s.takenB with
  | none =>
    rw [hs, Option.map_none, Option.map_eq_none_iff] at hB
    rw [takeB_none hs, takeB_none hB]
    rfl
  | some y =>
    rw [hs, Option.map_some] at hB
    obtain ⟨y', hy', hbeat⟩ := Option.map_eq_some_iff.mp hB
    cases hproblem : beatProblem .illFramedB s.params.maxLen 1 s.nB y.beat with
    | none =>
      rw [takeB_some hs hproblem, takeB_some hy' (by rw [hbeat]; exact hproblem), hbeat]
      exact hk y.beat (s.nB + y.beat.cnt)
    | some r =>
      rw [takeB_problem hs hproblem, takeB_problem hy' (by rw [hbeat]; exact hproblem)]
      rfl

theorem b64encStep_withInputs (beat : Beat) (s : State) (ps : List PortIn) :
    b64encStep beat (withInputs s ps) = answerWithInputs ps (b64encStep beat s) := by
  by_cases hfault : s.block.gc = 3#2 ∧ beat.lane ≠ []
  · rw [b64encStep, b64encStep, if_pos hfault]
    exact if_pos hfault
  · rw [b64encStep, b64encStep, if_neg hfault]
    exact if_neg hfault

section
variable {s : State} {ps : List PortIn}
  (hA : (withInputs s ps).takenA.map ABeat.beat = s.takenA.map ABeat.beat)
  (hB : (withInputs s ps).takenB.map BBeat.beat = s.takenB.map BBeat.beat)
include hA hB

theorem xorcStep_withInputs : xorcStep (withInputs s ps) = answerWithInputs ps (xorcStep s) := by
  cases hadone : s.block.adone <;> cases hbdone : s.block.bdone
  case false.false =>
    rw [xorcStep_of_neither hadone hbdone, xorcStep_of_neither (s := withInputs s ps) hadone hbdone]
    have hsome : (withInputs s ps).takenB.isNone = s.takenB.isNone := by
      simpa using congrArg Option.isNone hB
    cases hnone : s.takenB.isNone
    · rw [Machine.xorcJointStep, Machine.xorcJointStep, hsome, hnone, if_neg Bool.false_ne_true, if_neg Bool.false_ne_true]
      exact takeA_withInputs hA fun ba n => takeB_withInputs (s := { s with nA := n }) hB fun bb m => rfl
    · rw [Machine.xorcJointStep, Machine.xorcJointStep, hsome, hnone, if_pos rfl, if_pos rfl]
      rfl
  case false.true =>
    rw [xorcStep_of_bdone hadone hbdone, xorcStep_of_bdone (s := withInputs s ps) hadone hbdone]
    exact takeA_withInputs hA fun beat n => rfl
  case true.false =>
    rw [xorcStep_of_adone hadone hbdone, xorcStep_of_adone (s := withInputs s ps) hadone hbdone]
    exact takeB_withInputs hB fun beat n => rfl
  case true.true =>
    simp only [xorcStep, withInputs_block, hadone, hbdone]
    rfl

theorem exec_run_withInputs (i : Instr) (hm : s.block.mode = .run) :
    exec i (withInputs s ps) = answerWithInputs ps (exec i s) := by
  by_cases hop : s.block.op = encode i
  case neg =>
    rw [exec_not_open hm hop, exec_not_open (s := withInputs s ps) hm hop]
    rfl
  case pos =>
    cases i with
    | hexdec =>
      rw [exec_hexdec_run hm hop, exec_hexdec_run (s := withInputs s ps) hm hop]
      exact takeA_withInputs hA fun beat n => congrArg _ (hexOp_sound.act_withInputs beat _ ps)
    | b64enc =>
      rw [exec_b64enc_run hm hop, exec_b64enc_run (s := withInputs s ps) hm hop]
      exact takeA_withInputs hA fun beat n => b64encStep_withInputs beat _ ps
    | xorc =>
      rw [exec_xorc_run hm hop, exec_xorc_run (s := withInputs s ps) hm hop]
      exact xorcStep_withInputs hA hB
    | illegal =>
      rw [exec_illegal_run hm, exec_illegal_run (s := withInputs s ps) hm]
      rfl

/-- With the same beats taken `exec` gives the same answer, but for the inputs. -/
theorem exec_withInputs (hR : (withInputs s ps).takenR = s.takenR) (i : Instr) :
    exec i (withInputs s ps) = answerWithInputs ps (exec i s) := by
  cases hm : s.block.mode with
  | idle =>
    rw [exec_idle i hm, exec_idle (s := withInputs s ps) i hm]
    rfl
  | run => exact exec_run_withInputs hA hB i hm
  | resp =>
    rw [exec_resp i hm, exec_resp (s := withInputs s ps) i hm]
    cases htaken : s.takenR with
    | none =>
      rw [deliver_not_taken htaken, deliver_not_taken (hR.trans htaken)]
      rfl
    | some r =>
      rw [deliver_taken htaken, deliver_taken (hR.trans htaken)]
      rfl

end

/-! ## Inputs with the same beats -/

/-- Inputs that differ only in lane bits at or above the counts. -/
structure SameBeats (p p' : PortIn) : Prop where
  rst : p'.rst = p.rst
  rReady : p'.rReady = p.rReady
  a : p'.offers.a.map ABeat.beat = p.offers.a.map ABeat.beat
  b : p'.offers.b.map BBeat.beat = p.offers.b.map BBeat.beat

theorem SameBeats.isSomeA {p p' : PortIn} (h : SameBeats p p') : p'.offers.a.isSome = p.offers.a.isSome := by
  simpa using congrArg Option.isSome h.a

theorem SameBeats.isSomeB {p p' : PortIn} (h : SameBeats p p') : p'.offers.b.isSome = p.offers.b.isSome := by
  simpa using congrArg Option.isSome h.b

/-- The wires of the variant keep beats the same. -/
theorem map_wired_beat_congr {h : HexImpl} {x y : Option ABeat} (hxy : x.map ABeat.beat = y.map ABeat.beat) :
    (x.map (ABeat.wired h)).map ABeat.beat = (y.map (ABeat.wired h)).map ABeat.beat := by
  cases x <;> cases y <;> simp_all
  exact ABeat.wired_beat_congr h hxy

theorem SameBeats.taken {p p' : PortIn} (h : SameBeats p p') (s : State) (rest : List PortIn) :
    (withInputs s (p' :: rest)).takenA.map ABeat.beat = (withInputs s (p :: rest)).takenA.map ABeat.beat ∧
    (withInputs s (p' :: rest)).takenB.map BBeat.beat = (withInputs s (p :: rest)).takenB.map BBeat.beat ∧
    (withInputs s (p' :: rest)).takenR = (withInputs s (p :: rest)).takenR := by
  refine ⟨?_, ?_, ?_⟩
  · simp only [State.takenA, pins_withInputs, withInputs_block, Offers.wired_a, Offers.wired_b, h.rst, h.isSomeB]
    split
    · exact map_wired_beat_congr h.a
    · rfl
  · simp only [State.takenB, pins_withInputs, withInputs_block, Offers.wired_a, Offers.wired_b, h.rst, Option.isSome_map,
      h.isSomeA]
    split
    · exact h.b
    · rfl
  · simp only [State.takenR, pins_withInputs, withInputs_block, h.rst, h.rReady]
    rfl

/-! ## Inputs that are the same on the wires -/

/-- A step sees the inputs through the pins only. -/
theorem step_congr_of_pins {s : State} {p p' : PortIn} {rest : List PortIn}
    (hpins : (withInputs s (p' :: rest)).pins = (withInputs s (p :: rest)).pins) :
    step (withInputs s (p' :: rest)) = step (withInputs s (p :: rest)) := by
  have hport : (withInputs s (p' :: rest)).portProblem = (withInputs s (p :: rest)).portProblem := by
    simp only [State.portProblem, hpins]
    rfl
  have hdue : (withInputs s (p' :: rest)).dueCommand = (withInputs s (p :: rest)).dueCommand := by
    simp only [State.dueCommand, State.takenCmd, hpins]
    rfl
  have hfinish (t : State) : finishEdge (withInputs s (p' :: rest)) (withInputs t (p' :: rest)) =
      finishEdge (withInputs s (p :: rest)) t := by
    simp only [finishEdge, State.untaken, hpins]
    rfl
  have hexec (i : Instr) : exec i (withInputs s (p' :: rest)) =
      answerWithInputs (p' :: rest) (exec i (withInputs s (p :: rest))) := by
    refine exec_withInputs (s := withInputs s (p :: rest)) (congrArg _ ?_) (congrArg _ ?_) ?_ i
    · simp only [State.takenA]
      rw [show (withInputs (withInputs s (p :: rest)) (p' :: rest)).pins = _ from hpins]
      rfl
    · simp only [State.takenB]
      rw [show (withInputs (withInputs s (p :: rest)) (p' :: rest)).pins = _ from hpins]
      rfl
    · simp only [State.takenR]
      rw [show (withInputs (withInputs s (p :: rest)) (p' :: rest)).pins = _ from hpins]
      rfl
  cases hp : (withInputs s (p :: rest)).portProblem with
  | some r => rw [step_of_portProblem hp, step_of_portProblem (hport.trans hp)]
  | none =>
    cases hrst : (withInputs s (p :: rest)).pins.rst with
    | true =>
      rw [step_of_reset hrst, step_of_reset (by rw [hpins, hrst])]
      simp only [Machine.resetEdge, State.staleOffers, hpins]
      rfl
    | false =>
      have hrst' : (withInputs s (p' :: rest)).pins.rst = false := by rw [hpins, hrst]
      cases hd : (withInputs s (p :: rest)).dueCommand with
      | none =>
        rw [step_of_none_due hp hrst hd, step_of_none_due (hport.trans hp) hrst' (hdue.trans hd)]
        exact congrArg _ (hfinish (withInputs s (p :: rest)))
      | some c =>
        rw [step_of_due hp hrst hd, step_of_due (hport.trans hp) hrst' (hdue.trans hd), hexec]
        cases exec (decode c) (withInputs s (p :: rest)) with
        | next t => exact congrArg _ (hfinish t)
        | fault f => rfl
        | refused r => rfl

/-- Under PIPELINED the wires carry the lower lane alone (20_memory.md R54). -/
theorem wired_data_congr {x : ABeat} {d : BitVec 16} (h : d.extractLsb' 0 8 = x.data.extractLsb' 0 8) :
    ABeat.wired .pipelined { x with data := d } = x.wired .pipelined := by
  have hd (e : BitVec 16) : e.setWidth (dataWidthA .pipelined) = e.extractLsb' 0 8 := by
    simp [dataWidthA, lanesA, BitVec.setWidth_eq_extractLsb']
  simp only [ABeat.wired, hd, h]

/-- Settles O30: the bits above the wires never reach the pins, and `exec` sees of the operands only the beats taken. -/
theorem unusedLaneBitsAreIgnored : Obligations.UnusedLaneBitsAreIgnored := by
  refine ⟨fun s p x d rest hi hx hd => ?_, fun i s t p p' rest hinputs hrst hready hcmd hA hB hexec => ?_⟩
  · refine (step_congr_of_pins (s := s) ?_).symm
    rw [pins_withInputs, pins_withInputs]
    simp [Offers.wired, hi, hx, wired_data_congr hd]
  · have hsame : SameBeats p p' := ⟨hrst, hready, hA, hB⟩
    obtain ⟨htakenA, htakenB, htakenR⟩ := hsame.taken s rest
    rw [withInputs_self hinputs] at htakenA htakenB htakenR
    have hanswer := exec_withInputs htakenA htakenB htakenR i
    rw [hexec] at hanswer
    exact hanswer

end Sys2Proof.Proofs
end

section
/-! PROOFS. The constant tables and `decode_hex` (30_encoding.md sections 3 and 4, 40_hexdec.md). -/

namespace Sys2Proof.Proofs
open Sys2Proof Sys2Proof.Machine

/-! ## Hex digits -/

/-- The hardware's formula (30_encoding.md R82): the low four bits, plus nine for a letter. -/
theorem nib_eq_formula {c : Byte} {v : Nibble} (h : nib c = some v) :
    v = c.setWidth 4 + 9#4 * (c.extractLsb' 6 1).setWidth 4 := by
  revert c v
  decide

/-- Settles O35: the three ranges are the branches of `nib`, and they exclude each other. -/
theorem hexDigitCode : Obligations.HexDigitCode := by
  refine ⟨fun c => ⟨fun h => if_pos h, fun h => ?_, fun h => ?_, fun h0 hA ha => ?_, fun v => nib_eq_formula⟩, by decide⟩
  · have h0 : ¬(0x30#8 ≤ c ∧ c ≤ 0x39#8) := by bv_omega
    rw [nib, if_neg h0, if_pos h]
  · have h0 : ¬(0x30#8 ≤ c ∧ c ≤ 0x39#8) := by bv_omega
    have hA : ¬(0x41#8 ≤ c ∧ c ≤ 0x46#8) := by bv_omega
    rw [nib, if_neg h0, if_neg hA, if_pos h]
  · rw [nib, if_neg h0, if_neg hA, if_neg ha]

/-- A hex digit of either case is read back. -/
theorem nib_hexDigit (upper : Bool) (n : Nibble) : nib (hexDigit upper n) = some n := by
  revert upper n
  decide

/-! ## The Base64 alphabet -/

/-- The alphabet by ranges, as numbers (30_encoding.md R86). -/
theorem alpha_toNat (i : Field) :
    (alpha i).toNat =
      if i.toNat ≤ 25 then 0x41 + i.toNat else if i.toNat ≤ 51 then 0x47 + i.toNat
      else if i.toNat ≤ 61 then i.toNat - 4 else if i.toNat = 62 then 0x2B else 0x2F := by
  revert i
  decide

theorem alpha_inj {i j : Field} (h : alpha i = alpha j) : i = j := by
  have hnat := congrArg BitVec.toNat h
  rw [alpha_toNat, alpha_toNat] at hnat
  have hi := i.isLt
  have hj := j.isLt
  apply BitVec.eq_of_toNat_eq
  split_ifs at hnat <;> omega

theorem alpha_ne_pad (i : Field) : alpha i ≠ pad := by
  revert i
  decide

/-- Settles O36: the ranges are those of `alpha_toNat`. -/
theorem base64Alphabet : Obligations.Base64Alphabet := by
  intro i
  have hnat := alpha_toNat i
  refine ⟨fun h => ?_, fun ⟨h, h'⟩ => ?_, fun ⟨h, h'⟩ => ?_, fun h => ?_, fun h => ?_, fun j => alpha_inj, alpha_ne_pad i, ?_⟩
  · rw [hnat, if_pos h]
  · rw [hnat, if_neg (by omega), if_pos h']
  · rw [hnat, if_neg (by omega), if_neg (by omega), if_pos h']
  · apply BitVec.eq_of_toNat_eq
    rw [hnat, h]
    rfl
  · apply BitVec.eq_of_toNat_eq
    rw [hnat, h]
    rfl
  · revert i
    decide

/-! ## `decode_hex` -/

theorem pairByte_high (h l : Nibble) : (pairByte h l).extractLsb' 4 4 = h := BitVec.extractLsb'_append_eq_left

theorem pairByte_low (h l : Nibble) : (pairByte h l).extractLsb' 0 4 = l := by
  revert h l
  decide

/-- A byte is the pair of its nibbles. -/
theorem pairByte_extract (x : Byte) : pairByte (x.extractLsb' 4 4) (x.extractLsb' 0 4) = x :=
  (BitVec.extractLsb'_append_extractLsb'_eq_extractLsb' (start₂ := 4) (start₁ := 0) (len₁ := 4) rfl).trans
    BitVec.extractLsb'_eq_self

/-- The loop of R100 over valid digits: byte `k` is the pair of the digits at `2k` and `2k + 1`. -/
theorem hexPairs_of_valid {t : List Byte} (heven : t.length % 2 = 0) (hvalid : ∀ c ∈ t, nib c ≠ none) :
    ∃ o, hexPairs t = some o ∧ o.length = t.length / 2 ∧
      ∀ k (h : k < o.length),
        (t[2 * k]?).bind nib = some (o[k].extractLsb' 4 4) ∧
        (t[2 * k + 1]?).bind nib = some (o[k].extractLsb' 0 4) := by
  induction t using List.twoStepInduction with
  | nil => exact ⟨[], rfl, rfl, fun k h => absurd h (Nat.not_lt_zero k)⟩
  | singleton x => simp at heven
  | cons_cons x y rest ih =>
    obtain ⟨vx, hx⟩ := Option.ne_none_iff_exists'.mp (hvalid x (by simp))
    obtain ⟨vy, hy⟩ := Option.ne_none_iff_exists'.mp (hvalid y (by simp))
    obtain ⟨o, ho, hlength, hbytes⟩ := ih (by simp only [List.length_cons] at heven; omega)
      (fun c hc => hvalid c (by simp [hc]))
    refine ⟨pairByte vx vy :: o, by rw [hexPairs_cons_cons, hx, hy, ho]; rfl, ?_, fun k hk => ?_⟩
    · simp only [List.length_cons]
      omega
    · cases k with
      | zero => simp [hx, hy, pairByte_high, pairByte_low]
      | succ k => simpa [Nat.mul_add] using hbytes k (Nat.lt_of_succ_lt_succ hk)

/-- Settles O38: at an even length the result of `decode_hex` is that of the loop. -/
theorem hexSuccessIsExact : Obligations.HexSuccessIsExact := by
  intro t heven hvalid
  obtain ⟨o, ho, hlength, hbytes⟩ := hexPairs_of_valid heven hvalid
  exact ⟨o, decodeHex_of_pairs heven ho, hlength, hbytes⟩

/-- The text of bytes whose digits are in the cases the pairs of marks say. -/
def hexText (ps : List (Byte × Bool × Bool)) : List Byte :=
  ps.flatMap fun p => [hexDigit p.2.1 (p.1.extractLsb' 4 4), hexDigit p.2.2 (p.1.extractLsb' 0 4)]

theorem hexText_length (ps : List (Byte × Bool × Bool)) : (hexText ps).length = 2 * ps.length := by
  simp [hexText, Nat.mul_comm]

theorem hexPairs_hexText (ps : List (Byte × Bool × Bool)) : hexPairs (hexText ps) = some (ps.map (·.1)) := by
  induction ps with
  | nil => rfl
  | cons p ps ih =>
    have hcons : hexText (p :: ps) = hexDigit p.2.1 (p.1.extractLsb' 4 4) :: hexDigit p.2.2 (p.1.extractLsb' 0 4) ::
        hexText ps := rfl
    rw [hcons, hexPairs_cons_cons, nib_hexDigit, nib_hexDigit, ih]
    simp [pairByte_extract]

/-- Settles O39: each pair of digits is read back as its byte; lower case is one of the mixes. -/
theorem hexRoundTrip : Obligations.HexRoundTrip := by
  have hmixed (ps : List (Byte × Bool × Bool)) : decodeHex (hexText ps) = ⟨.ok, ps.map (·.1)⟩ :=
    decodeHex_of_pairs (by rw [hexText_length]; omega) (hexPairs_hexText ps)
  refine ⟨fun b => ?_, hmixed⟩
  have hlower : hexl b = hexText (b.map fun x => (x, false, false)) := by
    rw [hexText, List.flatMap_map]
    rfl
  rw [hlower, hmixed, List.map_map]
  simp [Function.comp_def]

end Sys2Proof.Proofs
end

section
/-! PROOFS. `encode_base64` (41_b64enc.md sections 1 and 3). -/

namespace Sys2Proof.Proofs
open Sys2Proof Sys2Proof.Machine

/-! ## The fields of a group -/

/-- `pack` puts the bytes of a group side by side (41_b64enc.md R122). -/
theorem pack_eq_append (x y z : Byte) : pack [x, y, z] = (x ++ (y ++ z) : BitVec 24) := by
  apply BitVec.eq_of_getLsbD_eq
  intro i hi
  simp only [pack, List.getD_cons_zero, List.getD_cons_succ, BitVec.getLsbD_or, BitVec.getLsbD_shiftLeft,
    BitVec.getLsbD_setWidth, BitVec.getLsbD_append]
  interval_cases i <;> simp

/-- Bit `j` of a field is bit `18 - 6*i + j` of the bytes. -/
theorem accField_pack_getLsbD (x y z : Byte) (i j : Nat) (hj : j < 6) :
    (accField (pack [x, y, z]) i).getLsbD j = (x ++ (y ++ z) : BitVec 24).getLsbD (18 - 6 * i + j) := by
  rw [pack_eq_append, accField, BitVec.getLsbD_extractLsb']
  simp [hj]

theorem accField_pack_zero (x y z : Byte) : accField (pack [x, y, z]) 0 = x.extractLsb' 2 6 := by
  apply BitVec.eq_of_getLsbD_eq
  intro j hj
  rw [accField_pack_getLsbD x y z 0 j hj]
  simp only [BitVec.getLsbD_append, BitVec.getLsbD_extractLsb']
  interval_cases j <;> simp

theorem accField_pack_one (x y z : Byte) :
    accField (pack [x, y, z]) 1 = x.extractLsb' 0 2 ++ y.extractLsb' 4 4 := by
  apply BitVec.eq_of_getLsbD_eq
  intro j hj
  rw [accField_pack_getLsbD x y z 1 j hj]
  simp only [BitVec.getLsbD_append, BitVec.getLsbD_extractLsb']
  interval_cases j <;> simp

theorem accField_pack_two (x y z : Byte) :
    accField (pack [x, y, z]) 2 = y.extractLsb' 0 4 ++ z.extractLsb' 6 2 := by
  apply BitVec.eq_of_getLsbD_eq
  intro j hj
  rw [accField_pack_getLsbD x y z 2 j hj]
  simp only [BitVec.getLsbD_append, BitVec.getLsbD_extractLsb']
  interval_cases j <;> simp

theorem accField_pack_three (x y z : Byte) : accField (pack [x, y, z]) 3 = z.extractLsb' 0 6 := by
  apply BitVec.eq_of_getLsbD_eq
  intro j hj
  rw [accField_pack_getLsbD x y z 3 j hj]
  simp only [BitVec.getLsbD_append, BitVec.getLsbD_extractLsb']
  interval_cases j <;> simp

/-! ## The characters of a group -/

theorem encGroup_three (x y z : Byte) :
    encGroup [x, y, z] = [alpha (x.extractLsb' 2 6), alpha (x.extractLsb' 0 2 ++ y.extractLsb' 4 4),
      alpha (y.extractLsb' 0 4 ++ z.extractLsb' 6 2), alpha (z.extractLsb' 0 6)] := by
  simp [encGroup, emitGroup, groupChar, accField_pack_zero, accField_pack_one, accField_pack_two, accField_pack_three]

/-- The byte a group of two has not got counts as 0. -/
theorem encGroup_two (x y : Byte) :
    encGroup [x, y] = [alpha (x.extractLsb' 2 6), alpha (x.extractLsb' 0 2 ++ y.extractLsb' 4 4),
      alpha (y.extractLsb' 0 4 ++ 0#2), pad] := by
  have hpack : pack [x, y] = pack [x, y, 0#8] := rfl
  simp [encGroup, emitGroup, groupChar, hpack, accField_pack_zero, accField_pack_one, accField_pack_two]

theorem encGroup_one (x : Byte) :
    encGroup [x] = [alpha (x.extractLsb' 2 6), alpha (x.extractLsb' 0 2 ++ 0#4), pad, pad] := by
  have hpack : pack [x] = pack [x, 0#8, 0#8] := rfl
  simp [encGroup, emitGroup, groupChar, hpack, accField_pack_zero, accField_pack_one]

/-- Settles O40: the characters of a group are those of its fields, and the fields are cut from the bytes side by side. -/
theorem base64GroupsFromBytes : Obligations.Base64GroupsFromBytes :=
  fun x y z => ⟨encGroup_three x y z, encGroup_two x y, encGroup_one x⟩

/-! ## Length and padding -/

/-- The number of bytes the last group has not got (41_b64enc.md R130). -/
def padCount (n : Nat) : Nat := (3 - n % 3) % 3

/-- The characters of a text are alphabet characters, and then the pads. -/
theorem encodeGroups_padded (b : List Byte) :
    ∃ data : List Field, encodeGroups b = data.map alpha ++ List.replicate (padCount b.length) pad := by
  match b with
  | [] => exact ⟨[], rfl⟩
  | [x] => exact ⟨[x.extractLsb' 2 6, x.extractLsb' 0 2 ++ 0#4], encGroup_one x⟩
  | [x, y] =>
    exact ⟨[x.extractLsb' 2 6, x.extractLsb' 0 2 ++ y.extractLsb' 4 4, y.extractLsb' 0 4 ++ 0#2], encGroup_two x y⟩
  | x :: y :: z :: rest =>
    obtain ⟨data, hdata⟩ := encodeGroups_padded rest
    have hcount : padCount (x :: y :: z :: rest).length = padCount rest.length := by
      simp [padCount, Nat.add_assoc]
    refine ⟨x.extractLsb' 2 6 :: (x.extractLsb' 0 2 ++ y.extractLsb' 4 4) :: (y.extractLsb' 0 4 ++ z.extractLsb' 6 2) ::
      z.extractLsb' 0 6 :: data, ?_⟩
    rw [encodeGroups, encGroup_three, hdata, hcount]
    rfl

theorem encGroup_length (g : List Byte) : (encGroup g).length = 4 := rfl

theorem encodeGroups_length (b : List Byte) : (encodeGroups b).length = 4 * ((b.length + 2) / 3) := by
  match b with
  | [] => rfl
  | [_] | [_, _] => simp [encodeGroups, encGroup_length]
  | x :: y :: z :: rest =>
    rw [encodeGroups, List.length_append, encGroup_length, encodeGroups_length rest]
    simp only [List.length_cons]
    omega

/-- Settles O41: group by group. -/
theorem base64LengthAndPadding : Obligations.Base64LengthAndPadding :=
  fun b => ⟨rfl, encodeGroups_length b, encodeGroups_padded b⟩

/-! ## Injectivity -/

theorem count_pad_encodeGroups (b : List Byte) : (encodeGroups b).count pad = padCount b.length := by
  obtain ⟨data, hdata⟩ := encodeGroups_padded b
  have hnone : (data.map alpha).count pad = 0 := by
    rw [List.count_eq_zero]
    intro hmem
    obtain ⟨i, -, hi⟩ := List.mem_map.mp hmem
    exact alpha_ne_pad i hi
  rw [hdata, List.count_append, hnone, List.count_replicate_self, Nat.zero_add]

/-- The length of a text and its pads give the length of the sequence. -/
theorem length_eq_of_encodeGroups_eq {a b : List Byte} (h : encodeGroups a = encodeGroups b) : a.length = b.length := by
  have hlength := congrArg List.length h
  have hpads := congrArg (List.count pad) h
  rw [encodeGroups_length, encodeGroups_length] at hlength
  rw [count_pad_encodeGroups, count_pad_encodeGroups, padCount, padCount] at hpads
  omega

theorem append_inj {v w : Nat} {a c : BitVec v} {b d : BitVec w} (h : a ++ b = c ++ d) : a = c ∧ b = d := by
  constructor
  · simpa only [BitVec.extractLsb'_append_eq_left] using congrArg (BitVec.extractLsb' w v) h
  · simpa only [BitVec.extractLsb'_append_eq_right] using congrArg (BitVec.extractLsb' 0 w) h

/-- A byte is known by its bits from `k` on and those below. -/
theorem byte_eq_of_parts {x y : Byte} (j k : Nat) (hjk : j + k = 8) (hhigh : x.extractLsb' k j = y.extractLsb' k j)
    (hlow : x.extractLsb' 0 k = y.extractLsb' 0 k) : x = y := by
  apply BitVec.eq_of_getLsbD_eq
  intro i hi
  by_cases hik : i < k
  · simpa [hik] using congrArg (·.getLsbD i) hlow
  · have hbit := congrArg (·.getLsbD (i - k)) hhigh
    have hlt : i - k < j := by omega
    have hadd : k + (i - k) = i := by omega
    simpa [hlt, hadd] using hbit

/-- The four characters of a group give its bytes. -/
theorem encGroup_three_inj {x y z x' y' z' : Byte} (h : encGroup [x, y, z] = encGroup [x', y', z']) :
    x = x' ∧ y = y' ∧ z = z' := by
  simp only [encGroup_three, List.cons.injEq, and_true] at h
  obtain ⟨h0, h1, h2, h3⟩ := h
  obtain ⟨hx, hy⟩ := append_inj (alpha_inj h1)
  obtain ⟨hy', hz⟩ := append_inj (alpha_inj h2)
  exact ⟨byte_eq_of_parts 6 2 rfl (alpha_inj h0) hx, byte_eq_of_parts 4 4 rfl hy hy',
    byte_eq_of_parts 2 6 rfl hz (alpha_inj h3)⟩

theorem encGroup_two_inj {x y x' y' : Byte} (h : encGroup [x, y] = encGroup [x', y']) : x = x' ∧ y = y' := by
  simp only [encGroup_two, List.cons.injEq, and_true] at h
  obtain ⟨h0, h1, h2⟩ := h
  obtain ⟨hx, hy⟩ := append_inj (alpha_inj h1)
  exact ⟨byte_eq_of_parts 6 2 rfl (alpha_inj h0) hx, byte_eq_of_parts 4 4 rfl hy (append_inj (alpha_inj h2)).1⟩

theorem encGroup_one_inj {x x' : Byte} (h : encGroup [x] = encGroup [x']) : x = x' := by
  simp only [encGroup_one, List.cons.injEq, and_true] at h
  obtain ⟨h0, h1⟩ := h
  exact byte_eq_of_parts 6 2 rfl (alpha_inj h0) (append_inj (alpha_inj h1)).1

theorem encodeGroups_inj {a b : List Byte} (hlength : a.length = b.length) (h : encodeGroups a = encodeGroups b) :
    a = b := by
  match a, b with
  | [], [] => rfl
  | [x], [x'] =>
    rw [encodeGroups, encodeGroups] at h
    rw [encGroup_one_inj h]
  | [x, y], [x', y'] =>
    rw [encodeGroups, encodeGroups] at h
    obtain ⟨rfl, rfl⟩ := encGroup_two_inj h
    rfl
  | x :: y :: z :: rest, x' :: y' :: z' :: rest' =>
    rw [encodeGroups, encodeGroups] at h
    obtain ⟨hgroup, hrest⟩ := List.append_inj h (by rw [encGroup_length, encGroup_length])
    obtain ⟨rfl, rfl, rfl⟩ := encGroup_three_inj hgroup
    rw [encodeGroups_inj (by simpa using hlength) hrest]
  | [], _ :: _ => simp at hlength
  | _ :: _, [] => simp at hlength
  | [_], _ :: _ :: _ => simp at hlength
  | _ :: _ :: _, [_] => simp at hlength
  | [_, _], _ :: _ :: _ :: _ => simp at hlength
  | _ :: _ :: _ :: _, [_, _] => simp at hlength

/-- Settles O42: the pads give the length, and at one length the groups give the bytes. -/
theorem base64IsInjective : Obligations.Base64IsInjective := by
  intro a b h
  have hseq : encodeGroups a = encodeGroups b := congrArg Result.seq h
  exact encodeGroups_inj (length_eq_of_encodeGroups_eq hseq) hseq

end Sys2Proof.Proofs
end

section
/-! PROOFS. `xor_combine`, the status matrix and the pipelines (42_xorc.md section 1, 60_exceptions.md section 1,
30_encoding.md section 2), and the command words (30_encoding.md section 1). -/

namespace Sys2Proof.Proofs
open Sys2Proof Sys2Proof.Machine

/-! ## `xor_combine` -/

theorem xorCombine_comm (a b : List Byte) : xorCombine a b = xorCombine b a := by
  by_cases h : a.length = b.length
  · rw [xorCombine_of_length_eq h, xorCombine_of_length_eq h.symm, List.zipWith_comm]
    simp only [BitVec.xor_comm]
  · rw [xorCombine_of_length_ne h, xorCombine_of_length_ne (Ne.symm h)]

/-- Combining with the second sequence again undoes it. -/
theorem xorCombine_xorCombine_right {a b : List Byte} (h : a.length = b.length) :
    xorCombine (xorCombine a b).seq b = ⟨.ok, a⟩ := by
  have hlength : (List.zipWith (· ^^^ ·) a b).length = b.length := by simp [h]
  rw [xorCombine_of_length_eq h, xorCombine_of_length_eq hlength]
  have hback : List.zipWith (· ^^^ ·) (List.zipWith (· ^^^ ·) a b) b = a :=
    List.ext_getElem (by simp [h]) fun k _ _ => by simp
  rw [hback]

theorem xorCombine_self (a : List Byte) : xorCombine a a = ⟨.ok, List.replicate a.length 0#8⟩ := by
  rw [xorCombine_of_length_eq rfl, List.zipWith_self]
  simp only [BitVec.xor_self, List.map_const']

theorem xorCombine_zeros (a : List Byte) : xorCombine a (List.replicate a.length 0#8) = ⟨.ok, a⟩ := by
  have hself : List.zipWith (· ^^^ ·) a (List.replicate a.length 0#8) = a :=
    List.ext_getElem (by simp) fun k _ _ => by simp
  rw [xorCombine_of_length_eq (by simp), hself]

/-- Settles O44: each property is the one of the bits. -/
theorem xorProperties : Obligations.XorProperties := fun a b =>
  ⟨xorCombine_xorCombine_right, xorCombine_self a, xorCombine_comm a b, xorCombine_zeros a⟩

/-! ## The status matrix -/

theorem decodeHex_ok_iff (t : List Byte) :
    (decodeHex t).status = .ok ↔ t.length % 2 = 0 ∧ ∀ c ∈ t, nib c ≠ none := by
  constructor
  · intro hok
    obtain ⟨hodd, hinvalid⟩ := hexErrors t
    constructor
    · by_contra hlength
      rw [hodd (by omega)] at hok
      cases hok
    · intro c hc hnib
      rw [hinvalid ⟨c, hc, hnib⟩] at hok
      cases hok
  · rintro ⟨heven, hvalid⟩
    obtain ⟨o, ho, -⟩ := hexSuccessIsExact t heven hvalid
    rw [ho]

theorem decodeHex_ok_or_error (t : List Byte) : (decodeHex t).status = .ok ∨ decodeHex t = ⟨.decodeError, []⟩ := by
  by_cases hodd : t.length % 2 = 1
  · exact .inr (decodeHex_of_odd hodd)
  · cases hpairs : hexPairs t with
    | none => exact .inr (decodeHex_of_hexPairs_none hpairs)
    | some o => exact .inl (by rw [decodeHex_of_pairs (by omega) hpairs])

theorem xorCombine_status (a b : List Byte) :
    (xorCombine a b).status = if a.length = b.length then .ok else .lengthMismatchError := by
  split
  case isTrue h => rw [xorCombine_of_length_eq h]
  case isFalse h => rw [xorCombine_of_length_ne h]

/-- A transaction ends as its row of the matrix says (60_exceptions.md R165), and an error has no element. -/
theorem transaction_result_matrix (tx : Transaction) :
    statusAllowed (encode tx.instr) tx.result.status = true ∧ (tx.result.status ≠ .ok → tx.result.seq = []) := by
  cases tx with
  | hexdec t =>
    rcases decodeHex_ok_or_error t with hok | herror
    · exact ⟨congrArg (statusAllowed _) hok, fun hne => absurd hok hne⟩
    · exact ⟨congrArg (statusAllowed _ ·.status) herror, fun _ => congrArg Result.seq herror⟩
  | b64enc b => exact ⟨rfl, fun hne => absurd rfl hne⟩
  | xorc a b =>
    by_cases h : a.length = b.length
    · have hok := congrArg Result.status (xorCombine_of_length_eq h)
      exact ⟨congrArg (statusAllowed _) hok, fun hne => absurd hok hne⟩
    · have herror := xorCombine_of_length_ne h
      exact ⟨congrArg (statusAllowed _ ·.status) herror, fun _ => congrArg Result.seq herror⟩
  | illegal => exact ⟨rfl, fun _ => rfl⟩

/-- Settles O45: by the outcomes of the three functions. -/
theorem statusMatrix : Obligations.StatusMatrix :=
  ⟨decodeHex_ok_iff, fun t => (decodeHex_ok_or_error t).imp id (congrArg Result.status), fun _ => rfl, xorCombine_status,
    transaction_result_matrix⟩

/-! ## The pipelines -/

theorem andThen_of_ok {r : Result} (h : r.status = .ok) (k : List Byte → List Transaction) : r.andThen k = k r.seq :=
  if_pos h

theorem andThen_of_error {r : Result} (h : r.status ≠ .ok) (k : List Byte → List Transaction) : r.andThen k = [] :=
  if_neg h

theorem hex2b64_lastResult (t : List Byte) :
    lastResult (.hexdec t :: (decodeHex t).andThen fun b => [.b64enc b]) =
      some (if (decodeHex t).status = .ok then encodeBase64 (decodeHex t).seq else decodeHex t) := by
  by_cases ht : (decodeHex t).status = .ok
  · rw [andThen_of_ok ht, if_pos ht]
    rfl
  · rw [andThen_of_error ht, if_neg ht]
    rfl

theorem hexxor_lastResult (t u : List Byte) :
    lastResult (.hexdec t :: (decodeHex t).andThen fun a =>
        .hexdec u :: (decodeHex u).andThen fun b => [.xorc a b]) =
      some (if (decodeHex t).status ≠ .ok then decodeHex t
        else if (decodeHex u).status ≠ .ok then decodeHex u
        else xorCombine (decodeHex t).seq (decodeHex u).seq) := by
  by_cases ht : (decodeHex t).status = .ok
  · rw [andThen_of_ok ht, if_neg (not_not.mpr ht)]
    by_cases hu : (decodeHex u).status = .ok
    · rw [andThen_of_ok hu, if_neg (not_not.mpr hu)]
      rfl
    · rw [andThen_of_error hu, if_pos hu]
      rfl
  · rw [andThen_of_error ht, if_pos ht]
    rfl

/-- Settles O46: the transactions issued end with the first that fails. -/
theorem pipelinesStopAtTheFirstError : Obligations.PipelinesStopAtTheFirstError :=
  ⟨fun _ t => ⟨_, rfl, hex2b64_lastResult t⟩, fun _ t u => ⟨_, rfl, hexxor_lastResult t u⟩⟩

/-! ## The command words -/

/-- Settles O1: by the table of operation codes. -/
theorem decodeReadsSpecWords : Obligations.DecodeReadsSpecWords := ⟨rfl, rfl, rfl, rfl⟩

/-- Settles O2: each of the four codes has its own instruction. -/
theorem decodeEncodeRoundTrip : Obligations.DecodeEncodeRoundTrip :=
  ⟨fun i _ => decode_encode i, encode_decode⟩

/-- The two low bits of a word of at least two bits are its command. -/
theorem commandWord_toNat {nbits : Nat} (h : 2 ≤ nbits) (w : Nat) : (commandWord nbits w).toNat = w % 4 := by
  have hdvd : 4 ∣ 2 ^ nbits := pow_dvd_pow 2 h
  rw [commandWord, BitVec.toNat_ofNat]
  exact Nat.mod_mod_of_dvd w hdvd

/-- Settles O3: the command of the word is the instruction's code, and decoding gives the instruction back. -/
theorem tableWordReadByItsTwoLowBits : Obligations.TableWordReadByItsTwoLowBits := by
  intro i nbits w hbits hw
  have hcode : commandWord nbits w = encode i := BitVec.eq_of_toNat_eq ((commandWord_toNat hbits w).trans hw)
  rw [decodeTableWord, hcode, decode_encode]

end Sys2Proof.Proofs
end
